-- ==== Sys2Proof/Word.lean ====
section
/-! DEFINITION. The word types of the block: everything on the wire and in the register space is a byte
(20_memory.md R45), a digit of a secondary address is a nibble (30_encoding.md R74). -/

namespace Sys2Proof

/-- A byte (00_scope.md R6): unsigned, bits 7 to 0. -/
abbrev Byte := BitVec 8

/-- A digit of a secondary address or of a mask (30_encoding.md R74). -/
abbrev Digit := BitVec 4

/-- A secondary address or a selection mask: 8 bytes, index 0 first on the wire (20_memory.md R42). No numeric
value is attached to it. -/
abbrev Addr := Vector Byte 8

end Sys2Proof
end

