-- ==== Sys2Proof/Config.lean ====
section
/-! DEFINITION. The configuration of the block (00_scope.md R4) and the one free value of the model. -/

namespace Sys2Proof.Config

/-- The implementation parameters of 00_scope.md R4, as one record. PAYLOAD_MAX and LEN_OVERHEAD are the constants
below. DESIGN CHOICE, safe: the record is held in State and never written, so a statement about every state is a
statement about every configuration (log 3). -/
structure Params where
  /-- ACK_BYTE -/
  ackByte : Byte
  /-- START_SHORT -/
  startShort : Byte
  /-- START_LONG, the start marker of control and of long frames -/
  startLong : Byte
  /-- STOP_BYTE -/
  stopByte : Byte
  /-- PRIMARY_MAX -/
  primaryMax : Byte
  /-- NET_ADDR, the network-layer pseudo-address -/
  netAddr : Byte
  /-- C_REQUEST -/
  cRequest : Byte
  /-- C_SELECT -/
  cSelect : Byte
  /-- A_SELECT -/
  aSelect : Byte
  /-- CI_SELECT -/
  ciSelect : Byte
  /-- WILDCARD, the "don't care" digit -/
  wildcard : Digit
  /-- TIMEOUT_DEFAULT. DESIGN CHOICE, safe: a natural in R4, held at the width of TIMEOUT (log 22). -/
  timeoutDefault : BitVec 16
  /-- SEL_ACK_IS_SINGLE, open (92_eei_decisions.md D13) -/
  selAckIsSingle : Bool
deriving DecidableEq, Repr

/-- The values R4 decides; the open parameter at its default, false. DESIGN CHOICE, unsafe for a claim about the reset
state alone (log 4). -/
def Params.decided : Params where
  ackByte := 0xE5
  startShort := 0x10
  startLong := 0x68
  stopByte := 0x16
  primaryMax := 250
  netAddr := 0xFD
  cRequest := 0x5B
  cSelect := 0x53
  aSelect := 0xFD
  ciSelect := 0x52
  wildcard := 0xF
  timeoutDefault := 10
  selAckIsSingle := false

/-- The constraint of R4: the three bytes the receiver dispatches on are pairwise distinct. -/
abbrev Params.Ok (c : Params) : Prop :=
  c.ackByte ≠ c.startShort ∧ c.ackByte ≠ c.startLong ∧ c.startShort ≠ c.startLong

/-- PAYLOAD_MAX (R4). A constant: the buffers of 10_state.md R11 to R13 are sized for it (log 3). -/
def payloadMax : Nat := 252

/-- LEN_OVERHEAD (R4): the length field counts C, A and CI besides the payload (30_encoding.md R68). A constant: it is
the number of header fields of the layout (log 3). -/
def lenOverhead : Nat := 3

/-- What the `n`-th host read of a buffer cell nothing has written returns: any byte (93_implementation_defined.md U5).
A free value: no body, nothing constrains it (log 2). -/
opaque freeByte : Nat → Byte

end Sys2Proof.Config
end

