-- ==== Sys2Proof/Machine/State.lean ====
section
/-! DEFINITION. The state of the block (10_state.md R10 to R25), as plain data, and the machine right after
reset. -/

namespace Sys2Proof.Machine

/-- RX_STATE (10_state.md R14): which byte of a frame the receiver expects next. Codes 14 and 15 do not exist. -/
inductive RxState where
  | idle | shC | shA | shCs | shStop
  | lgL1 | lgL2 | lgStart2 | lgC | lgA | lgCi | lgData | lgCs | lgStop
deriving DecidableEq, Repr

/-- The kinds of frame a receiver event names (R18, RX_KIND 1 to 4; `none` is code 0). -/
inductive FrameKind where
  | ack | short | control | long
deriving DecidableEq, Repr

/-- The decode errors (R18 RX_ERR 1 to 4, 60_exceptions.md R191). -/
inductive DecodeError where
  | malformed | checksumMismatch | unexpectedLength | truncated
deriving DecidableEq, Repr

/-- The exchange results (R19 EX_RESULT 1 to 5, 60_exceptions.md R192). -/
inductive ExResult where
  | ok | timeout | malformed | checksumMismatch | transportError
deriving DecidableEq, Repr

/-- The selection outcomes (R19 SEL_OUTCOME 1 to 5, 60_exceptions.md R193). -/
inductive SelOutcome where
  | nothing | single | collision | unexpected | transportError
deriving DecidableEq, Repr

/-- The reasons of a refusal (60_exceptions.md R196, codes 1 to 7). -/
inductive RefuseReason where
  | busy | notBusy | badLength | badAddress | badNarrow | noSelection | badCommand
deriving DecidableEq, Repr

/-- The transmit operand registers TX_C, TX_A, TX_CI, TX_LEN (R11). -/
structure TxRegs where
  c : Byte
  a : Byte
  ci : Byte
  len : Byte
deriving DecidableEq, Repr

/-- The receiver: its result registers (R13), RX_STATE (R14), its working registers (R15), and the last event (R18,
with EV_VALID of R17). RX_PAY is in memory. -/
structure Rx where
  /-- RX_C -/
  c : Byte
  /-- RX_A -/
  a : Byte
  /-- RX_CI -/
  ci : Byte
  /-- RX_LEN -/
  len : Byte
  /-- RX_STATE -/
  state : RxState
  /-- RX_L -/
  l : Byte
  /-- RX_CNT -/
  cnt : Byte
  /-- RX_SUM -/
  sum : Byte
  /-- RX_CSOK -/
  csok : Bool
  /-- RX_KIND -/
  kind : Option FrameKind
  /-- RX_ERR -/
  err : Option DecodeError
  /-- EV_VALID -/
  evValid : Bool
deriving DecidableEq, Repr

/-- The selector (R16), with SEL_OUTCOME (R19). -/
structure Sel where
  /-- SEL_MASK -/
  mask : Addr
  /-- SEL_ACTIVE -/
  active : Bool
  /-- SEL_ADDR -/
  addr : Addr
  /-- SEL_ADDR_VALID -/
  addrValid : Bool
  /-- SEL_OUTCOME -/
  outcome : Option SelOutcome
deriving DecidableEq, Repr

/-- What `send` answers (20_memory.md R46). -/
inductive SendResult where
  | ok | transportError
deriving DecidableEq, Repr

/-- What `recv()` answers (20_memory.md R46). -/
inductive RecvResult where
  | bytes (s : List Byte)
  | timeout
  | transportError
deriving DecidableEq, Repr

/-- One answer of the environment to `recv()`, with the input bit time_left of 43_exchange.md R170 as it stands when
the answer is given. DESIGN CHOICE, safe (log 7). -/
structure RecvInput where
  result : RecvResult
  timeLeft : Bool
deriving DecidableEq, Repr

/-- What the host does next (20_memory.md R40, R45). -/
inductive Input where
  /-- a single-byte register write; to index 0 it is the start of an operation (10_state.md R22) -/
  | write (index : Nat) (v : Byte)
  /-- a single-byte register read -/
  | read (index : Nat)
  /-- presents a byte sequence as the operand of DECODE (30_encoding.md R78: "a value in a model"), log 8 -/
  | present (b : List Byte)
  /-- gives wire bytes to the receiver (41_decode.md R110, R117), log 9 -/
  | wire (b : List Byte)
deriving DecidableEq, Repr

/-- Which answer an operation in progress waits for (60_exceptions.md R190, case 3), and what it has collected.
The model's own field: DESIGN CHOICE, safe (log 6). -/
inductive Phase where
  /-- no operation in progress -/
  | idle
  /-- SEND has handed its frame over (R96) -/
  | sendWait
  /-- REQ_DATA has handed its frame over (R171) -/
  | requestWait
  /-- SELECT has handed the select frame over (R148) -/
  | selectWait
  /-- SELECT has handed the request of step 4 over (R151) -/
  | step4Wait
  /-- AWAIT_REPLY waits for the first `recv()` (R170) -/
  | awaitFirst
  /-- AWAIT_REPLY waits for the continuation read, with the bytes of the first one (R170) -/
  | awaitMore (b : List Byte)
  /-- the selection window is open, with the bytes received in it (R149) -/
  | window (w : List Byte)
deriving DecidableEq, Repr

/-- The state of one block. -/
structure State where
  /-- the configuration (00_scope.md R4): never written (log 3) -/
  cfg : Config.Params
  /-- TX_C, TX_A, TX_CI, TX_LEN (R11) -/
  tx : TxRegs
  /-- TXBUF_LEN (R12) -/
  txbufLen : BitVec 9
  /-- the byte buffers TX_PAY, RX_PAY and TXBUF, as the cells that have been written, keyed by register index (R11 to
  R13, R23); a cell that is not listed holds no value (R25, log 1) -/
  mem : List Host.Cell
  /-- the receiver (R13 to R15, R18) -/
  rx : Rx
  /-- the selector (R16, R19) -/
  sel : Sel
  /-- TARGET (R16) -/
  target : Byte
  /-- BUSY (R17) -/
  busy : Bool
  /-- EX_RESULT (R19) -/
  exResult : Option ExResult
  /-- REFUSED (R17) -/
  refused : Bool
  /-- REFUSE_REASON (R20) -/
  refuseReason : Option RefuseReason
  /-- TIMEOUT (R21) -/
  timeout : BitVec 16
  /-- OPND[0..7] (R23) -/
  opnd : Addr
  /-- TXLOG, a model history (R24) -/
  txLog : List (List Byte)
  /-- RXLOG, a model history (R24) -/
  rxLog : List RecvResult
  /-- what the host does next, first entry first: the model's own field (log 13) -/
  input : List Input
  /-- the environment's answers to `send` not yet asked for: the model's own field (log 6) -/
  sendQ : List SendResult
  /-- the environment's answers to `recv()` not yet asked for: the model's own field (log 6) -/
  recvQ : List RecvInput
  /-- the operand of DECODE the host has presented: the model's own field (log 8) -/
  decodeArg : List Byte
  /-- what an operation in progress waits for: the model's own field (log 6) -/
  phase : Phase
  /-- what the last host read returned: the model's own field (log 16) -/
  lastRead : Option Byte
  /-- how many free values have been used: the model's own field (log 2) -/
  freeCount : Nat
deriving DecidableEq, Repr

/-- The three byte buffers (20_memory.md, head of the file). -/
inductive Buffer where
  | txPay | rxPay | txbuf
deriving DecidableEq, Repr

/-- Why the machine stops. -/
inductive Fault where
  /-- The block reads a cell of a buffer that nothing has written: raised by ENC_LONG (TX_PAY), SEND (TXBUF), REQ_DATA
  and SELECT (TXBUF, RX_PAY), as 70_reset_and_hazards.md R221 and U5 ask. Safe: the model stops where a chip would go
  on with some byte. Only ENC_LONG can raise it in a state a run reaches. -/
  | unwrittenCell (b : Buffer)
  /-- The configuration breaks the constraint of 00_scope.md R4: raised by the step (U16). Safe: no block has such a
  configuration. -/
  | badConfiguration
deriving DecidableEq, Repr

/-- Why an instruction has no meaning. No arm of this model answers with it: the spec's own refusals (R196) are next
states (log 11). -/
inductive Refusal where
  /-- An instruction without a meaning, raised in its arm of `exec`. Safe. -/
  | notModelled (mnemonic : String)
deriving DecidableEq, Repr

/-- The outcome of an operation. -/
abbrev Result := Host.Outcome State Fault Refusal

/-- The registers of the receiver after reset (R25). -/
def Rx.reset : Rx where
  c := 0
  a := 0
  ci := 0
  len := 0
  state := .idle
  l := 0
  cnt := 0
  sum := 0
  csok := false
  kind := none
  err := none
  evValid := false

/-- The selector after reset (R25): the mask is 0xFF in every byte. -/
def Sel.reset : Sel where
  mask := Vector.replicate 8 0xFF
  active := false
  addr := Vector.replicate 8 0
  addrValid := false
  outcome := none

/-- The state right after power-on reset (R25, R220). The configuration is the decided one (log 4); no cell of a buffer
is listed (log 1); nothing is pending (log 6, log 13). -/
def State.reset : State where
  cfg := .decided
  tx := ⟨0, 0, 0, 0⟩
  txbufLen := 0
  mem := []
  rx := .reset
  sel := .reset
  target := 0
  busy := false
  exResult := none
  refused := false
  refuseReason := none
  timeout := Config.Params.decided.timeoutDefault
  opnd := Vector.replicate 8 0
  txLog := []
  rxLog := []
  input := []
  sendQ := []
  recvQ := []
  decodeArg := []
  phase := .idle
  lastRead := none
  freeCount := 0

end Sys2Proof.Machine
end

