-- ==== Sys2Proof/Machine/Flags.lean ====
section
/-! DEFINITION. The status and result registers as the host reads them (10_state.md R17 to R20) and the events that
set their fields (R18). -/

namespace Sys2Proof.Machine

/-- RX_KIND (R18). -/
def kindCode : Option FrameKind → Byte
  | none => 0
  | some .ack => 1
  | some .short => 2
  | some .control => 3
  | some .long => 4

/-- RX_ERR (R18, R191). -/
def errCode : Option DecodeError → Byte
  | none => 0
  | some .malformed => 1
  | some .checksumMismatch => 2
  | some .unexpectedLength => 3
  | some .truncated => 4

/-- EX_RESULT (R19, R192). -/
def exCode : Option ExResult → Byte
  | none => 0
  | some .ok => 1
  | some .timeout => 2
  | some .malformed => 3
  | some .checksumMismatch => 4
  | some .transportError => 5

/-- SEL_OUTCOME (R19, R193). -/
def outcomeCode : Option SelOutcome → Byte
  | none => 0
  | some .nothing => 1
  | some .single => 2
  | some .collision => 3
  | some .unexpected => 4
  | some .transportError => 5

/-- REFUSE_REASON (R196). -/
def reasonCode : Option RefuseReason → Byte
  | none => 0
  | some .busy => 1
  | some .notBusy => 2
  | some .badLength => 3
  | some .badAddress => 4
  | some .badNarrow => 5
  | some .noSelection => 6
  | some .badCommand => 7

/-- A flag at a bit of a register. -/
def flagAt (f : Bool) (bit : Nat) : Byte := if f then 1#8 <<< bit else 0

/-- RX_PENDING (R17): derived, 1 exactly when the receiver is not in IDLE. -/
def rxPending (s : State) : Bool := s.rx.state != .idle

/-- STATUS (R17). -/
def statusReg (s : State) : Byte :=
  flagAt s.busy 0 ||| flagAt s.sel.active 1 ||| flagAt (rxPending s) 2 ||| flagAt s.rx.csok 3
    ||| flagAt s.rx.evValid 4 ||| flagAt s.refused 5

/-- RESULT (R18). -/
def resultReg (s : State) : Byte := kindCode s.rx.kind ||| errCode s.rx.err <<< 3

/-- EXRES (R19). -/
def exresReg (s : State) : Byte :=
  exCode s.exResult ||| outcomeCode s.sel.outcome <<< 3 ||| flagAt s.sel.addrValid 6

/-- REFUSE (R20). -/
def refuseReg (s : State) : Byte := reasonCode s.refuseReason

/-- What the receiver may produce at a byte (41_decode.md R110): a frame of a kind, whose fields are in the receive
registers, or a decode error. -/
inductive Event where
  | ok (k : FrameKind)
  | err (e : DecodeError)
deriving DecidableEq, Repr

/-- Latching an event (R18): the result fields and RX_LEN are written, and the receiver is back in IDLE (R110). -/
def Rx.emit (r : Rx) (e : Event) : Rx :=
  match e with
  | .ok .long =>
    { r with state := .idle, kind := some .long, err := none, evValid := true, len := r.l - 3 }
  | .ok k => { r with state := .idle, kind := some k, err := none, evValid := true, len := 0 }
  | .err x => { r with state := .idle, kind := none, err := some x, evValid := true, len := 0 }

/-- RX_CLEAR (10_state.md R26): RX_C, RX_A, RX_CI and RX_PAY are not touched. -/
def Rx.clear (r : Rx) : Rx :=
  { r with state := .idle, l := 0, cnt := 0, sum := 0, csok := false, kind := none, err := none, len := 0,
           evValid := false }

end Sys2Proof.Machine
end

