-- ==== Sys2Proof/Machine/Operands.lean ====
section
/-! DEFINITION. The functions of operands: the checksum (40_encode.md R90), digits and matching (30_encoding.md R74,
42_addressing.md R142 to R144), the classes of an address (R140, R141). -/

namespace Sys2Proof.Machine

/-- The sum of the bytes modulo 256 (R90). -/
def sum8 : List Byte → Byte
  | [] => 0
  | b :: bs => b + sum8 bs

/-- The digit at position `p` (R74): the high nibble of a byte is the even position. -/
def nib (x : Addr) (p : Fin 16) : Digit :=
  let b := x[p.val / 2]'(by omega)
  if p.val % 2 = 0 then b.extractLsb' 4 4 else b.extractLsb' 0 4

/-- `x` with the digit at position `p` replaced (R146). -/
def setNib (x : Addr) (p : Fin 16) (d : Digit) : Addr :=
  let b := x[p.val / 2]'(by omega)
  let b' : Byte := if p.val % 2 = 0 then d ++ b.extractLsb' 0 4 else b.extractLsb' 4 4 ++ d
  x.set (p.val / 2) b' (by omega)

/-- A mask matches an address (R143). -/
abbrev Matches (cfg : Config.Params) (m x : Addr) : Prop :=
  ∀ p : Fin 16, nib m p = cfg.wildcard ∨ nib m p = nib x p

/-- No digit is the wildcard (R144). -/
abbrev Concrete (cfg : Config.Params) (x : Addr) : Prop :=
  ∀ p : Fin 16, nib x p ≠ cfg.wildcard

/-- A primary address (R140). -/
abbrev IsPrimary (cfg : Config.Params) (a : Byte) : Prop := a ≤ cfg.primaryMax

/-- An address a request frame may have (R94, R141): a primary address or the network-layer address. -/
abbrev IsTarget (cfg : Config.Params) (a : Byte) : Prop := a ≤ cfg.primaryMax ∨ a = cfg.netAddr

/-- The bytes of a short frame (R62). -/
def shortFrame (cfg : Config.Params) (c a : Byte) : List Byte :=
  [cfg.startShort, c, a, sum8 [c, a], cfg.stopByte]

/-- The bytes of a control or long frame with payload `p` (R63, R64): the length byte is `p.length + 3` (R68), the
checksum covers C, A, CI and the payload (R69). -/
def longFrame (cfg : Config.Params) (c a ci : Byte) (p : List Byte) : List Byte :=
  let l : Byte := BitVec.ofNat 8 (p.length + Config.lenOverhead)
  [cfg.startLong, l, l, cfg.startLong, c, a, ci] ++ p ++ [sum8 ([c, a, ci] ++ p), cfg.stopByte]

/-- The request frame for a target (R72). -/
def requestFrame (cfg : Config.Params) (t : Byte) : List Byte := shortFrame cfg cfg.cRequest t

/-- The select frame for a mask (R73). -/
def selectFrame (cfg : Config.Params) (m : Addr) : List Byte :=
  longFrame cfg cfg.cSelect cfg.aSelect cfg.ciSelect m.toList

end Sys2Proof.Machine
end

