-- ==== Sys2Proof/Machine/Ops.lean ====
section
/-! DEFINITION. The named operations over memory and registers, and the one way an operation is declined. The block
takes no exception, saves nothing and returns from nothing (60_exceptions.md R197 to R200): `refuse` here and
`Rx.emit` are all that stands in that place. -/

namespace Sys2Proof.Machine

/-- The value of a cell; none where nothing has been written (log 1). -/
def Memory.read : List Host.Cell → Nat → Option Byte
  | [], _ => none
  | (k, v) :: m, a => if k = a then some v else Memory.read m a

/-- Writing a cell, keeping the addresses rising. -/
def Memory.write : List Host.Cell → Nat → Byte → List Host.Cell
  | [], a, b => [(a, b)]
  | (k, v) :: m, a, b =>
    if a < k then (a, b) :: (k, v) :: m
    else if a = k then (a, b) :: m
    else (k, v) :: Memory.write m a b

/-- The canonical form: addresses strictly rising. A cell that is not listed reads as no value, so no entry equals
what an unlisted cell reads as. -/
abbrev Memory.wf (m : List Host.Cell) : Prop := m.Pairwise (fun x y => x.1 < y.1)

/-- Writing successive cells from an address. -/
def Memory.writeAll : List Host.Cell → Nat → List Byte → List Host.Cell
  | m, _, [] => m
  | m, a, b :: bs => Memory.writeAll (Memory.write m a b) (a + 1) bs

/-- Reading `n` successive cells from an address; none if one of them has never been written. -/
def Memory.readAll (m : List Host.Cell) (a : Nat) : Nat → Option (List Byte)
  | 0 => some []
  | n + 1 =>
    match Memory.read m a, Memory.readAll m (a + 1) n with
    | some b, some bs => some (b :: bs)
    | _, _ => none

/-- The register index of the first cell of a buffer (10_state.md R23). -/
def Buffer.base : Buffer → Nat
  | .txPay => 0x100
  | .rxPay => 0x200
  | .txbuf => 0x300

/-- The number of cells of a buffer (R11 to R13). -/
def Buffer.size : Buffer → Nat
  | .txPay => 252
  | .rxPay => 252
  | .txbuf => 261

/-- A register index lies in a buffer (R23). -/
abbrev Buffer.Holds (b : Buffer) (index : Nat) : Prop := b.base ≤ index ∧ index < b.base + b.size

/-- A register index lies in one of the three buffers. -/
abbrev InBuffer (index : Nat) : Prop :=
  Buffer.txPay.Holds index ∨ Buffer.rxPay.Holds index ∨ Buffer.txbuf.Holds index

/-- The first `n` cells of a buffer. -/
def State.readBuffer (s : State) (b : Buffer) (n : Nat) : Option (List Byte) := Memory.readAll s.mem b.base n

/-- Storing a payload byte as it arrives, RX_PAY[RX_CNT] (41_decode.md R115). An index beyond the buffer is reserved and
ignores writes (R23), which no run reaches (20_memory.md R54, log 15). -/
def storeRxPay (m : List Host.Cell) (cnt b : Byte) : List Host.Cell :=
  if cnt.toNat < Buffer.rxPay.size then Memory.write m (Buffer.rxPay.base + cnt.toNat) b else m

/-- TXBUF and TXBUF_LEN hold a frame (R12). What stood in TXBUF beyond it stays. -/
def State.loadTx (s : State) (frame : List Byte) : State :=
  { s with mem := Memory.writeAll s.mem Buffer.txbuf.base frame, txbufLen := BitVec.ofNat 9 frame.length }

/-- Declining an operation (60_exceptions.md R196): nothing changes but the refusal fields. -/
def State.refuse (s : State) (r : RefuseReason) : State := { s with refused := true, refuseReason := some r }

/-- REFUSED <- 0: an operation that is not refused; REFUSE_REASON keeps its last value (R196). -/
def State.accept (s : State) : State := { s with refused := false }

/-- RX_CLEAR (10_state.md R26). -/
def State.rxClear (s : State) : State := { s with rx := s.rx.clear }

/-- Latching an event (R18). -/
def State.emit (s : State) (e : Event) : State := { s with rx := s.rx.emit e }

/-- An operation in progress waits for an answer of the environment (60_exceptions.md R190, case 3; logs 6 and 19). -/
def State.waitIn (s : State) (p : Phase) : State := { s with phase := p }

/-- Handing a frame to the transport: it joins TXLOG (R24), whatever the answer will be (log 23). -/
def State.handOver (s : State) (frame : List Byte) : State := { s with txLog := s.txLog ++ [frame] }

/-- The answer to `send`, when the environment has given it. -/
def State.takeSend (s : State) : Option (SendResult × State) :=
  match s.sendQ with
  | [] => none
  | r :: q => some (r, { s with sendQ := q, phase := .idle })

/-- One answer to `recv()` is consumed and joins RXLOG (R24, R45). -/
def State.received (s : State) (r : RecvInput) (q : List RecvInput) : State :=
  { s with recvQ := q, rxLog := s.rxLog ++ [r.result], phase := .idle }

/-- The answer to `recv()`, when the environment has given it. -/
def State.takeRecv (s : State) : Option (RecvInput × State) :=
  match s.recvQ with
  | [] => none
  | r :: q => some (r, s.received r q)

end Sys2Proof.Machine
end

