-- ==== Sys2Proof/Machine/Encode.lean ====
section
/-! DEFINITION. The encoding operations (40_encode.md R91 to R95): pure transformations of registers into TXBUF. -/

namespace Sys2Proof.Machine

/-- ENC_SHORT (R91). -/
def execEncShort (s : State) : Result := .next ((s.loadTx (shortFrame s.cfg s.tx.c s.tx.a)).accept)

/-- ENC_CONTROL (R92). -/
def execEncControl (s : State) : Result := .next ((s.loadTx (longFrame s.cfg s.tx.c s.tx.a s.tx.ci [])).accept)

/-- ENC_LONG (R93). Reading a TX_PAY cell nothing has written is a fault (R221, U5). -/
def execEncLong (s : State) : Result :=
  if s.tx.len.toNat > Config.payloadMax then .next (s.refuse .badLength)
  else
    match s.readBuffer .txPay s.tx.len.toNat with
    | some p => .next ((s.loadTx (longFrame s.cfg s.tx.c s.tx.a s.tx.ci p)).accept)
    | none => .fault (.unwrittenCell .txPay)

/-- What ENC_REQUEST does once the target is accepted (R94). -/
def State.buildRequest (s : State) (t : Byte) : State := (s.loadTx (requestFrame s.cfg t)).accept

/-- ENC_REQUEST (R94). -/
def execEncRequest (s : State) : Result :=
  if IsTarget s.cfg s.target then .next (s.buildRequest s.target) else .next (s.refuse .badAddress)

/-- What ENC_SELECT does once a selection is active (R95). -/
def State.buildSelect (s : State) : State := (s.loadTx (selectFrame s.cfg s.sel.mask)).accept

/-- ENC_SELECT (R95). -/
def execEncSelect (s : State) : Result :=
  if s.sel.active = false then .next (s.refuse .noSelection) else .next s.buildSelect

end Sys2Proof.Machine
end

