-- ==== Sys2Proof/Machine/Receiver.lean ====
section
/-! DEFINITION. The receiver (41_decode.md): one byte (R111 to R116), DECODE of a buffer (R119), its closed form
(R120), and the reading of the receive registers as a frame. -/

namespace Sys2Proof.Machine

/-- What the receiver does with a byte, apart from storing it in RX_PAY (R112 to R116). An event is latched. -/
def Rx.next (cfg : Config.Params) (r : Rx) (b : Byte) : Rx × Option Event :=
  match r.state with
  | .idle =>
    if b = cfg.ackByte then (r.emit (.ok .ack), some (.ok .ack))
    else if b = cfg.startShort then ({ r with sum := 0, state := .shC }, none)
    else if b = cfg.startLong then ({ r with sum := 0, state := .lgL1 }, none)
    else (r.emit (.err .malformed), some (.err .malformed))
  | .shC => ({ r with c := b, sum := b, state := .shA }, none)
  | .shA => ({ r with a := b, sum := r.sum + b, state := .shCs }, none)
  | .shCs => ({ r with csok := b == r.sum, state := .shStop }, none)
  | .shStop =>
    if b ≠ cfg.stopByte then (r.emit (.err .malformed), some (.err .malformed))
    else if r.csok = false then (r.emit (.err .checksumMismatch), some (.err .checksumMismatch))
    else (r.emit (.ok .short), some (.ok .short))
  | .lgL1 => ({ r with l := b, state := .lgL2 }, none)
  | .lgL2 =>
    if b ≠ r.l ∨ b < 3 then (r.emit (.err .unexpectedLength), some (.err .unexpectedLength))
    else ({ r with state := .lgStart2 }, none)
  | .lgStart2 =>
    if b ≠ cfg.startLong then (r.emit (.err .malformed), some (.err .malformed))
    else ({ r with state := .lgC }, none)
  | .lgC => ({ r with c := b, sum := b, state := .lgA }, none)
  | .lgA => ({ r with a := b, sum := r.sum + b, state := .lgCi }, none)
  | .lgCi =>
    ({ r with ci := b, sum := r.sum + b, cnt := 0, state := if r.l = 3 then .lgCs else .lgData }, none)
  | .lgData =>
    ({ r with sum := r.sum + b, cnt := r.cnt + 1, state := if r.cnt + 1 = r.l - 3 then .lgCs else .lgData }, none)
  | .lgCs => ({ r with csok := b == r.sum, state := .lgStop }, none)
  | .lgStop =>
    if b ≠ cfg.stopByte then (r.emit (.err .malformed), some (.err .malformed))
    else if r.csok = false then (r.emit (.err .checksumMismatch), some (.err .checksumMismatch))
    else if r.l = 3 then (r.emit (.ok .control), some (.ok .control))
    else (r.emit (.ok .long), some (.ok .long))

/-- What the receiver stores of a byte: in LG_DATA it is a payload byte (R115). -/
def Rx.store (r : Rx) (m : List Host.Cell) (b : Byte) : List Host.Cell :=
  match r.state with
  | .lgData => storeRxPay m r.cnt b
  | .idle | .shC | .shA | .shCs | .shStop | .lgL1 | .lgL2 | .lgStart2 | .lgC | .lgA | .lgCi | .lgCs | .lgStop => m

/-- The receiver takes one byte (R111). -/
def State.takeByte (s : State) (b : Byte) : State :=
  { s with rx := (s.rx.next s.cfg b).1, mem := s.rx.store s.mem b }

/-- The event the receiver produces at a byte, if any. -/
def State.eventAt (s : State) (b : Byte) : Option Event := (s.rx.next s.cfg b).2

/-- RX_BYTE with the byte as a value (R117). -/
def State.rxByte (s : State) (b : Byte) : State := s.accept.takeByte b

/-- RX_BYTE for each of some bytes, in order. -/
def State.feed (s : State) : List Byte → State
  | [] => s
  | b :: bs => (s.rxByte b).feed bs

/-- RX_END (R118). -/
def State.rxEnd (s : State) : State :=
  match s.rx.state with
  | .idle => s.accept
  | .shC | .shA | .shCs | .shStop | .lgL1 | .lgL2 | .lgStart2 | .lgC | .lgA | .lgCi | .lgData | .lgCs | .lgStop =>
    s.accept.emit (.err .truncated)

/-- The loop of DECODE (R119): the first error wins, a frame must end at the last byte. -/
def State.decodeLoop (s : State) : List Byte → State
  | [] => s.emit (.err .truncated)
  | b :: bs =>
    match s.eventAt b with
    | none => (s.takeByte b).decodeLoop bs
    | some (.err _) => s.takeByte b
    | some (.ok _) => if bs = [] then s.takeByte b else (s.takeByte b).emit (.err .unexpectedLength)

/-- DECODE of a buffer (R119). -/
def State.decodeBuf (s : State) (b : List Byte) : State := s.rxClear.accept.decodeLoop b

/-- A decoded frame (00_scope.md R6). -/
inductive Frame where
  | ack
  | short (c a : Byte)
  | control (c a ci : Byte)
  | long (c a ci : Byte) (p : List Byte)
deriving DecidableEq, Repr

/-- What DECODE answers (00_scope.md R6). -/
inductive DecodeResult where
  | ok (f : Frame)
  | err (e : DecodeError)
deriving DecidableEq, Repr

/-- The last event, with the frame the receive registers hold (10_state.md R13, R18): none when there is no event, or
when RX_PAY[0..RX_LEN-1] has a cell nothing has written. -/
def State.lastResult (s : State) : Option DecodeResult :=
  match s.rx.err, s.rx.kind with
  | some e, _ => some (.err e)
  | none, none => none
  | none, some .ack => some (.ok .ack)
  | none, some .short => some (.ok (.short s.rx.c s.rx.a))
  | none, some .control => some (.ok (.control s.rx.c s.rx.a s.rx.ci))
  | none, some .long =>
    match s.readBuffer .rxPay s.rx.len.toNat with
    | some p => some (.ok (.long s.rx.c s.rx.a s.rx.ci p))
    | none => none

/-- Byte `i` of a buffer, in the closed form, where it is known to exist. -/
def byteAt (b : List Byte) (i : Nat) : Byte := b.getD i 0

/-- The short case of the closed form (R120). -/
def closedShort (cfg : Config.Params) (b : List Byte) : DecodeResult :=
  if b.length < 5 then .err .truncated
  else if byteAt b 4 ≠ cfg.stopByte then .err .malformed
  else if byteAt b 3 ≠ byteAt b 1 + byteAt b 2 then .err .checksumMismatch
  else if b.length > 5 then .err .unexpectedLength
  else .ok (.short (byteAt b 1) (byteAt b 2))

/-- The control and long case of the closed form (R120). -/
def closedLong (cfg : Config.Params) (b : List Byte) : DecodeResult :=
  if b.length < 3 then .err .truncated
  else if byteAt b 1 ≠ byteAt b 2 then .err .unexpectedLength
  else
    let l := (byteAt b 1).toNat
    if l < 3 then .err .unexpectedLength
    else if b.length < 4 then .err .truncated
    else if byteAt b 3 ≠ cfg.startLong then .err .malformed
    else if b.length < l + 6 then .err .truncated
    else if byteAt b (l + 5) ≠ cfg.stopByte then .err .malformed
    else if byteAt b (l + 4) ≠ sum8 ((b.drop 4).take l) then .err .checksumMismatch
    else if b.length > l + 6 then .err .unexpectedLength
    else if l = 3 then .ok (.control (byteAt b 4) (byteAt b 5) (byteAt b 6))
    else .ok (.long (byteAt b 4) (byteAt b 5) (byteAt b 6) ((b.drop 7).take (l - 3)))

/-- DECODE in closed form (R120). The model's meaning of DECODE is R119; this is the other one. -/
def closedDecode (cfg : Config.Params) (b : List Byte) : DecodeResult :=
  match b with
  | [] => .err .truncated
  | b0 :: rest =>
    if b0 = cfg.ackByte then if rest = [] then .ok .ack else .err .unexpectedLength
    else if b0 = cfg.startShort then closedShort cfg b
    else if b0 = cfg.startLong then closedLong cfg b
    else .err .malformed

end Sys2Proof.Machine
end

