-- ==== Sys2Proof/Machine/Send.lean ====
section
/-! DEFINITION. SEND (40_encode.md R96). -/

namespace Sys2Proof.Machine

/-- A `send` failed: the error is surfaced, nothing is outstanding (R96, 92_eei_decisions.md D30). -/
def State.sendFailed (s : State) : State := { s with exResult := some .transportError }

/-- A request is on the wire: its reply is outstanding (R96). -/
def State.sendDone (s : State) : State := { s with busy := true, exResult := none }

/-- SEND after its frame has been handed over: what the answer makes of it (R96). -/
def sendAnswered (s : State) : Result :=
  match s.takeSend with
  | none => .next (s.waitIn .sendWait)
  | some (.transportError, s) => .next s.sendFailed.accept
  | some (.ok, s) => .next s.sendDone.accept

/-- SEND (R96). -/
def execSend (s : State) : Result :=
  if s.busy then .next (s.refuse .busy)
  else if s.txbufLen = 0 then .next (s.refuse .badLength)
  else
    match s.readBuffer .txbuf s.txbufLen.toNat with
    | some frame => sendAnswered (s.handOver frame)
    | none => .fault (.unwrittenCell .txbuf)

end Sys2Proof.Machine
end

