-- ==== Sys2Proof/Machine/Addressing.lean ====
section
/-! DEFINITION. Primary addressing and secondary-address selection (42_addressing.md R140 to R152). -/

namespace Sys2Proof.Machine

/-- RESOLVE_PRIMARY (R140). -/
def execResolvePrimary (s : State) : Result :=
  if IsPrimary s.cfg s.opnd[0] then .next ({ s with target := s.opnd[0] }).accept
  else .next (s.refuse .badAddress)

/-- MASK_LOAD (R145). -/
def execMaskLoad (s : State) : Result :=
  .next ({ s with sel := { s.sel with mask := s.opnd, active := true } }).accept

/-- MASK_NARROW (R146). -/
def execMaskNarrow (s : State) : Result :=
  if s.sel.active = false then .next (s.refuse .noSelection)
  else if h : s.opnd[0].toNat < 16 then
    let p : Fin 16 := ⟨s.opnd[0].toNat, h⟩
    let d : Digit := s.opnd[1].extractLsb' 0 4
    if s.opnd[1] > 15 ∨ d = s.cfg.wildcard then .next (s.refuse .badNarrow)
    else if nib s.sel.mask p ≠ s.cfg.wildcard then .next (s.refuse .badNarrow)
    else .next ({ s with sel := { s.sel with mask := setNib s.sel.mask p d } }).accept
  else .next (s.refuse .badNarrow)

/-- Step 4 after its request has been handed over (R151). -/
def step4Answered (s : State) : Result :=
  match s.takeSend with
  | none => .next (s.waitIn .step4Wait)
  | some (.transportError, s) => .next s.sendFailed
  | some (.ok, s) => .next { s with busy := true }

/-- Step 4 (R151): the request to the network-layer address is built and handed over. -/
def step4 (s : State) : Result :=
  let s := ({ s with sel := { s.sel with active := false }, target := s.cfg.netAddr }).buildRequest s.cfg.netAddr
  match s.readBuffer .txbuf 5 with
  | some frame => step4Answered (s.handOver frame)
  | none => .fault (.unwrittenCell .txbuf)

/-- The first eight payload bytes of the received frame, the echoed address (R147, 30_encoding.md R75). -/
def State.echoed (s : State) : Option Addr :=
  match Memory.readAll s.mem Buffer.rxPay.base 8 with
  | some [b0, b1, b2, b3, b4, b5, b6, b7] => some #v[b0, b1, b2, b3, b4, b5, b6, b7]
  | _ => none

/-- SEL_OUTCOME <- o. -/
def State.outcome (s : State) (o : SelOutcome) : State := { s with sel := { s.sel with outcome := some o } }

/-- Single with an echoed address (R150). -/
def State.echo (s : State) (e : Addr) : State := { s with sel := { s.sel with addr := e, addrValid := true } }

/-- The rest of R150 for a window that has decoded to one good frame, which the receive registers hold. -/
def classifyFrame (s : State) : Result :=
  match s.rx.kind with
  | some .long =>
    if 8 ≤ s.rx.len then
      match s.echoed with
      | some e =>
        if Concrete s.cfg e ∧ Matches s.cfg s.sel.mask e then step4 ((s.echo e).outcome .single)
        else .next (s.outcome .unexpected)
      | none => .fault (.unwrittenCell .rxPay)
    else .next (s.outcome .unexpected)
  | some .ack => if s.cfg.selAckIsSingle then step4 (s.outcome .single) else .next (s.outcome .unexpected)
  | some .short | some .control | none => .next (s.outcome .unexpected)

/-- The classification of the window, and on Single step 4 (R150, R148). -/
def classify (w : List Byte) (s : State) : Result :=
  if w = [] then .next (s.outcome .nothing)
  else
    let s := s.decodeBuf w
    match s.rx.err with
    | some _ => .next (s.outcome .collision)
    | none => classifyFrame s

/-- The selection window (R148, R149): answers to `recv()` are taken until one is Timeout or TransportError; where they
run out before that, the window stays open (log 6, log 20). -/
def window : List RecvInput → List Byte → State → Result
  | [], w, s => .next (s.waitIn (.window w))
  | r :: q, w, s =>
    match r.result with
    | .bytes b => window q (w ++ b) (s.received r q)
    | .timeout => classify w { s.received r q with busy := false }
    | .transportError => .next (({ s.received r q with busy := false }).outcome .transportError)

/-- SELECT after the select frame has been handed over (R148). -/
def selectAnswered (s : State) : Result :=
  match s.takeSend with
  | none => .next (s.waitIn .selectWait)
  | some (.transportError, s) => .next (s.outcome .transportError)
  | some (.ok, s) => window s.recvQ [] { s with busy := true }

/-- What SELECT clears at its start (R148, 10_state.md R26). -/
def State.selectStart (s : State) : State :=
  ({ s with sel := { s.sel with outcome := none, addrValid := false }, exResult := none }).accept.rxClear

/-- SELECT (R148). -/
def execSelect (s : State) : Result :=
  if s.busy then .next (s.refuse .busy)
  else if s.sel.active = false then .next (s.refuse .noSelection)
  else
    let s := s.selectStart.buildSelect
    match s.readBuffer .txbuf 17 with
    | some frame => selectAnswered (s.handOver frame)
    | none => .fault (.unwrittenCell .txbuf)

/-- What a byte-serial selector keeps of the window besides the receiver (R152): how many frames, saturating at 2, and
whether there was an error. -/
structure Tally where
  frames : Nat
  error : Bool
deriving DecidableEq, Repr

/-- An event is counted (R152). -/
def Tally.count (t : Tally) (e : Option Event) : Tally :=
  match e with
  | none => t
  | some (.ok _) => { t with frames := min 2 (t.frames + 1) }
  | some (.err _) => { t with error := true }

/-- The bytes of the window, each given to the receiver as it arrives (R152). -/
def serialBytes : List Byte → Tally × State → Tally × State
  | [], ts => ts
  | b :: bs, (t, s) => serialBytes bs (t.count (s.eventAt b), s.rxByte b)

/-- RX_END when the window closes, counted (R152). -/
def serialEnd (ts : Tally × State) : Tally × State :=
  (if ts.2.rx.state = .idle then ts.1 else ts.1.count (some (.err .truncated)), ts.2.rxEnd)

/-- The outcome of one frame in the receive registers, as R150 tests it. -/
def frameOutcome (s : State) : SelOutcome :=
  match s.rx.kind with
  | some .long =>
    match s.echoed with
    | some e => if 8 ≤ s.rx.len ∧ Concrete s.cfg e ∧ Matches s.cfg s.sel.mask e then .single else .unexpected
    | none => .unexpected
  | some .ack => if s.cfg.selAckIsSingle then .single else .unexpected
  | some .short | some .control | none => .unexpected

/-- The byte-serial form of the classification (R152). R150, `classify`, is the normative one. -/
def serialOutcome (w : List Byte) (s : State) : SelOutcome :=
  let (t, s) := serialEnd (serialBytes w (⟨0, false⟩, s.rxClear))
  if w = [] then .nothing
  else if t.error ∨ t.frames = 2 then .collision
  else frameOutcome s

end Sys2Proof.Machine
end

