-- ==== Sys2Proof/Machine/Decoding.lean ====
section
/-! DEFINITION. The decoding operations (41_decode.md R117 to R119). -/

namespace Sys2Proof.Machine

/-- RX_BYTE (R117): the operand is OPND[0]. -/
def execRxByte (s : State) : Result := .next (s.rxByte s.opnd[0])

/-- RX_END (R118). -/
def execRxEnd (s : State) : Result := .next s.rxEnd

/-- DECODE (R119): the operand is the byte sequence the host has presented (log 8). -/
def execDecode (s : State) : Result := .next (s.decodeBuf s.decodeArg)

end Sys2Proof.Machine
end

