-- ==== Sys2Proof/Machine/Exchange.lean ====
section
/-! DEFINITION. The request/response exchange (43_exchange.md R170 to R173). -/

namespace Sys2Proof.Machine

/-- The end of an exchange (R170): the result is latched, nothing is outstanding. -/
def State.finish (s : State) (x : ExResult) : State := { s with exResult := some x, busy := false }

/-- How the last DECODE maps to an exchange result (R172). -/
def exchangeResult (s : State) : ExResult :=
  match s.rx.err, s.rx.kind with
  | some .checksumMismatch, _ => .checksumMismatch
  | some .malformed, _ | some .unexpectedLength, _ | some .truncated, _ => .malformed
  | none, some .ack | none, some .long => .ok
  | none, some .short | none, some .control | none, none => .malformed

/-- The continuation read of AWAIT_REPLY (R170 step 4): the reply is decoded again with what it brings. -/
def awaitMore (b : List Byte) (s : State) : Result :=
  match s.takeRecv with
  | none => .next (s.waitIn (.awaitMore b))
  | some (r, s) =>
    match r.result with
    | .transportError => .next (s.finish .transportError)
    | .timeout => .next (s.finish .malformed)
    | .bytes c =>
      let s := s.decodeBuf (b ++ c)
      .next (s.finish (exchangeResult s))

/-- The first `recv()` of AWAIT_REPLY, and what follows it (R170 steps 2 to 5). -/
def awaitFirst (s : State) : Result :=
  match s.takeRecv with
  | none => .next (s.waitIn .awaitFirst)
  | some (r, s) =>
    match r.result with
    | .timeout => .next (s.finish .timeout)
    | .transportError => .next (s.finish .transportError)
    | .bytes b =>
      let s := s.decodeBuf b
      if s.rx.err = some .truncated ∧ r.timeLeft then awaitMore b s
      else .next (s.finish (exchangeResult s))

/-- AWAIT_REPLY once it is accepted (R170). -/
def awaitStart (s : State) : Result := awaitFirst ({ s.accept with exResult := none }).rxClear

/-- AWAIT_REPLY (R170). -/
def execAwaitReply (s : State) : Result :=
  if s.busy = false then .next (s.refuse .notBusy) else awaitStart s

/-- REQ_DATA after its request has been handed over: the end of its SEND, then its AWAIT_REPLY (R171). -/
def requestAnswered (s : State) : Result :=
  match s.takeSend with
  | none => .next (s.waitIn .requestWait)
  | some (.transportError, s) => .next s.sendFailed.accept
  | some (.ok, s) => awaitStart s.sendDone

/-- REQ_DATA (R171): both refusals are tested before anything is written. -/
def execReqData (s : State) : Result :=
  if s.busy then .next (s.refuse .busy)
  else if IsTarget s.cfg s.target then
    let s := s.buildRequest s.target
    match s.readBuffer .txbuf 5 with
    | some frame => requestAnswered (s.handOver frame)
    | none => .fault (.unwrittenCell .txbuf)
  else .next (s.refuse .badAddress)

end Sys2Proof.Machine
end

