-- ==== Sys2Proof/Machine/System.lean ====
section
/-! DEFINITION. RESET (70_reset_and_hazards.md R220). -/

namespace Sys2Proof.Machine

/-- RESET (R220): every register and flag at its value of 10_state.md R25, the buffers unspecified; never refused. The
configuration and the histories stay (R10, R220), and so does what the model holds of the host and of the environment
(log 17). -/
def execReset (s : State) : Result :=
  .next { State.reset with
    cfg := s.cfg, timeout := s.cfg.timeoutDefault, txLog := s.txLog, rxLog := s.rxLog, input := s.input,
    sendQ := s.sendQ, recvQ := s.recvQ, decodeArg := s.decodeArg, lastRead := s.lastRead, freeCount := s.freeCount }

end Sys2Proof.Machine
end

