-- ==== Sys2Proof/Syntax.lean ====
section
/-! DEFINITION. The instructions: one constructor per row of the opcode table. Sixteen operations of format CMD
(30_encoding.md R78), whose operands are registers, and four wire units of format WIRE (R61 to R64), whose operands
are the bytes of the unit that its markers and its length field do not fix. -/

namespace Sys2Proof

inductive Instr where
  /-- RESET, code 0 (R220) -/
  | reset
  /-- ENC_SHORT, code 1 (R91) -/
  | encShort
  /-- ENC_CONTROL, code 2 (R92) -/
  | encControl
  /-- ENC_LONG, code 3 (R93) -/
  | encLong
  /-- ENC_REQUEST, code 4 (R94) -/
  | encRequest
  /-- ENC_SELECT, code 5 (R95) -/
  | encSelect
  /-- SEND, code 6 (R96) -/
  | send
  /-- RX_BYTE, code 7 (R117) -/
  | rxByte
  /-- RX_END, code 8 (R118) -/
  | rxEnd
  /-- DECODE, code 9 (R119) -/
  | decode
  /-- RESOLVE_PRIMARY, code 10 (R140) -/
  | resolvePrimary
  /-- MASK_LOAD, code 11 (R145) -/
  | maskLoad
  /-- MASK_NARROW, code 12 (R146) -/
  | maskNarrow
  /-- SELECT, code 13 (R148) -/
  | select
  /-- AWAIT_REPLY, code 14 (R170) -/
  | awaitReply
  /-- REQ_DATA, code 15 (R171) -/
  | reqData
  /-- The acknowledgement unit (R61) -/
  | ack
  /-- A short unit (R62). The checksum and the last byte are operands, as they came: whether they are good is the
  receiver's business (R113). DESIGN CHOICE, safe (log 10). -/
  | short (c a cs stop : Byte)
  /-- A control unit (R63): length field 3 -/
  | control (c a ci cs stop : Byte)
  /-- A long unit (R64): length field `p.length + 3` -/
  | long (c a ci : Byte) (p : List Byte) (cs stop : Byte)
deriving DecidableEq, Repr

end Sys2Proof
end

