-- ==== Sys2Proof/WellFormed.lean ====
section
/-! DEFINITION. Which terms of `Instr` are instructions: only a long unit has a restriction, its payload is 1 to 252
bytes (30_encoding.md R64, R65: with none it is the control unit). -/

namespace Sys2Proof

/-- The check of R64 and R65. -/
def Instr.wf : Instr → Bool
  | .long _ _ _ p _ _ => decide (1 ≤ p.length) && decide (p.length ≤ Config.payloadMax)
  | .reset | .encShort | .encControl | .encLong | .encRequest | .encSelect | .send | .rxByte | .rxEnd | .decode
  | .resolvePrimary | .maskLoad | .maskNarrow | .select | .awaitReply | .reqData
  | .ack | .short .. | .control .. => true

/-- `i` is a well-formed instruction. -/
abbrev Instr.WellFormed (i : Instr) : Prop := i.wf = true

end Sys2Proof
end

