-- ==== Sys2Proof/Decode.lean ====
section
/-! DEFINITION. The decoder: of a byte written to CMD (30_encoding.md R67, R78) and of the bytes of a wire unit
(R61 to R65, R68, R71), total, rejecting by name; then the encoder, written from the same tables. -/

namespace Sys2Proof

/-- Why bytes are no instruction. -/
inductive Reject where
  /-- a CMD byte with a bit of 7:4 set (R67) -/
  | badCommand
  /-- a first byte that begins no unit (R71, R76) -/
  | noUnit
  /-- the two length bytes differ (R76) -/
  | lengthsDiffer
  /-- a length below 3 (R76) -/
  | lengthTooSmall
  /-- the fourth byte is not the start marker (R76) -/
  | badRepeatedStart
  /-- the bytes end before the unit does -/
  | incomplete
deriving DecidableEq, Repr

/-- The operation of a code, bits 3:0 of the byte written to CMD: the table of R78. -/
def opOfCode (n : Nat) : Option Instr :=
  match n with
  | 0 => some .reset
  | 1 => some .encShort
  | 2 => some .encControl
  | 3 => some .encLong
  | 4 => some .encRequest
  | 5 => some .encSelect
  | 6 => some .send
  | 7 => some .rxByte
  | 8 => some .rxEnd
  | 9 => some .decode
  | 10 => some .resolvePrimary
  | 11 => some .maskLoad
  | 12 => some .maskNarrow
  | 13 => some .select
  | 14 => some .awaitReply
  | 15 => some .reqData
  | _ => none

/-- A byte written to CMD (R67): bits 7:4 must be 0. -/
def decodeCmd (v : Byte) : Except Reject Instr :=
  match opOfCode v.toNat with
  | some i => .ok i
  | none => .error .badCommand

/-- The body of a control or long unit (R63, R64) after its header, for a length field `l` of at least 3: what is
taken is `l + 2` bytes. -/
def decodeBody (l : Byte) (bs : List Byte) : Except Reject (Instr × List Byte) :=
  match bs with
  | c :: a :: ci :: rest =>
    let n := l.toNat - Config.lenOverhead
    match rest.drop n with
    | cs :: stop :: more =>
      if n = 0 then .ok (.control c a ci cs stop, more)
      else .ok (.long c a ci (rest.take n) cs stop, more)
    | _ => .error .incomplete
  | _ => .error .incomplete

/-- The unit at the front of a byte sequence, and the bytes after it. The first byte tells the format, for a START_LONG
unit the length field tells the rest (R71). -/
def decodeWire (cfg : Config.Params) (bs : List Byte) : Except Reject (Instr × List Byte) :=
  match bs with
  | [] => .error .incomplete
  | b :: bs =>
    if b = cfg.ackByte then .ok (.ack, bs)
    else if b = cfg.startShort then
      match bs with
      | c :: a :: cs :: stop :: more => .ok (.short c a cs stop, more)
      | _ => .error .incomplete
    else if b = cfg.startLong then
      match bs with
      | l :: l2 :: bs =>
        if l ≠ l2 then .error .lengthsDiffer
        else if l.toNat < Config.lenOverhead then .error .lengthTooSmall
        else
          match bs with
          | s :: bs => if s ≠ cfg.startLong then .error .badRepeatedStart else decodeBody l bs
          | [] => .error .incomplete
      | _ => .error .incomplete
    else .error .noUnit

/-- Which of the two formats of the opcode table an instruction has. -/
inductive Format where
  | cmd
  | wire
deriving DecidableEq, Repr

def Instr.format : Instr → Format
  | .ack | .short .. | .control .. | .long .. => .wire
  | .reset | .encShort | .encControl | .encLong | .encRequest | .encSelect | .send | .rxByte | .rxEnd | .decode
  | .resolvePrimary | .maskLoad | .maskNarrow | .select | .awaitReply | .reqData => .cmd

/-- The length field of a unit with `n` payload bytes (R68). -/
def lengthField (n : Nat) : Byte := BitVec.ofNat 8 (n + Config.lenOverhead)

/-- The header of a control or long unit (R63, R64): start, L, L, start. -/
def longHeader (cfg : Config.Params) (n : Nat) : List Byte :=
  [cfg.startLong, lengthField n, lengthField n, cfg.startLong]

/-- The bytes of an instruction: of an operation the byte written to CMD (R78), of a unit its bytes in wire order
(R61 to R64). -/
def encode (cfg : Config.Params) : Instr → List Byte
  | .reset => [0x00]
  | .encShort => [0x01]
  | .encControl => [0x02]
  | .encLong => [0x03]
  | .encRequest => [0x04]
  | .encSelect => [0x05]
  | .send => [0x06]
  | .rxByte => [0x07]
  | .rxEnd => [0x08]
  | .decode => [0x09]
  | .resolvePrimary => [0x0A]
  | .maskLoad => [0x0B]
  | .maskNarrow => [0x0C]
  | .select => [0x0D]
  | .awaitReply => [0x0E]
  | .reqData => [0x0F]
  | .ack => [cfg.ackByte]
  | .short c a cs stop => [cfg.startShort, c, a, cs, stop]
  | .control c a ci cs stop => longHeader cfg 0 ++ [c, a, ci, cs, stop]
  | .long c a ci p cs stop => longHeader cfg p.length ++ [c, a, ci] ++ p ++ [cs, stop]

/-- Decoding at the port of a format: CMD takes one byte, the wire takes a unit. -/
def decodeAt (cfg : Config.Params) (f : Format) (bs : List Byte) : Except Reject (Instr × List Byte) :=
  match f, bs with
  | .wire, bs => decodeWire cfg bs
  | .cmd, v :: rest =>
    match decodeCmd v with
    | .ok i => .ok (i, rest)
    | .error e => .error e
  | .cmd, [] => .error .incomplete

/-- The longest instruction, a long unit of 252 payload bytes (R64). -/
def maxInstrBytes : Nat := 261

/-- `n` bytes of a word of the opcode table: byte `k` is bits `8k+7` to `8k`. -/
def tableBytes : Nat → Nat → List Byte
  | 0, _ => []
  | n + 1, w => BitVec.ofNat 8 w :: tableBytes n (w / 256)

/-- The bytes of a row of the table, zeros above `nbits`, as long as the longest instruction. -/
def wordBytes (nbits w : Nat) : List Byte := tableBytes maxInstrBytes (w % 2 ^ nbits)

/-- Which format a word of the table has. DESIGN CHOICE, safe: the table's two formats have no first byte in common
under the decided configuration, bits 7:4 are zero in a CMD row and not in a WIRE row (log 12). -/
def tableFormat (w : Nat) : Format := if w / 16 % 16 = 0 then .cmd else .wire

/-- The instruction the decoder reads from a word of the opcode table, under the decided configuration. -/
def decodeTableWord (nbits w : Nat) : Option Instr :=
  match decodeAt .decided (tableFormat w) (wordBytes nbits w) with
  | .ok (i, _) => some i
  | .error _ => none

end Sys2Proof
end

