-- ==== Sys2Proof/Machine/Wire.lean ====
section
/-! DEFINITION. The wire units given to the receiver: byte by byte, each as RX_BYTE takes it (41_decode.md R111 to
R117). Whether the unit is good is the receiver's finding. DESIGN CHOICE, safe (log 9). -/

namespace Sys2Proof.Machine

/-- The acknowledgement (R61). -/
def execAck (s : State) : Result := .next (s.feed (encode s.cfg .ack))

/-- A short unit (R62, R113). -/
def execShort (c a cs stop : Byte) (s : State) : Result := .next (s.feed (encode s.cfg (.short c a cs stop)))

/-- A control unit (R63, R114 to R116). -/
def execControl (c a ci cs stop : Byte) (s : State) : Result :=
  .next (s.feed (encode s.cfg (.control c a ci cs stop)))

/-- A long unit (R64, R114 to R116). -/
def execLong (c a ci : Byte) (p : List Byte) (cs stop : Byte) (s : State) : Result :=
  .next (s.feed (encode s.cfg (.long c a ci p cs stop)))

end Sys2Proof.Machine
end

