-- ==== Sys2Proof/Machine/Dispatch.lean ====
section
/-! DEFINITION. The meaning of every instruction, one arm each. -/

namespace Sys2Proof.Machine

def exec (i : Instr) (s : State) : Host.Outcome State Fault Refusal :=
  match i with
  | .reset => Sys2Proof.Machine.execReset s
  | .encShort => Sys2Proof.Machine.execEncShort s
  | .encControl => Sys2Proof.Machine.execEncControl s
  | .encLong => Sys2Proof.Machine.execEncLong s
  | .encRequest => Sys2Proof.Machine.execEncRequest s
  | .encSelect => Sys2Proof.Machine.execEncSelect s
  | .send => Sys2Proof.Machine.execSend s
  | .rxByte => Sys2Proof.Machine.execRxByte s
  | .rxEnd => Sys2Proof.Machine.execRxEnd s
  | .decode => Sys2Proof.Machine.execDecode s
  | .resolvePrimary => Sys2Proof.Machine.execResolvePrimary s
  | .maskLoad => Sys2Proof.Machine.execMaskLoad s
  | .maskNarrow => Sys2Proof.Machine.execMaskNarrow s
  | .select => Sys2Proof.Machine.execSelect s
  | .awaitReply => Sys2Proof.Machine.execAwaitReply s
  | .reqData => Sys2Proof.Machine.execReqData s
  | .ack => Sys2Proof.Machine.execAck s
  | .short c a cs stop => Sys2Proof.Machine.execShort c a cs stop s
  | .control c a ci cs stop => Sys2Proof.Machine.execControl c a ci cs stop s
  | .long c a ci p cs stop => Sys2Proof.Machine.execLong c a ci p cs stop s

end Sys2Proof.Machine
end

