-- ==== Sys2Proof/Machine/HostPort.lean ====
section
/-! DEFINITION. The register space as the host reaches it (10_state.md R22, R23; 20_memory.md R40, R45). -/

namespace Sys2Proof.Machine

/-- The register at an index below the buffers (R23); reserved indices and CMD read 0. -/
def readLow (s : State) (i : Nat) : Byte :=
  if h : 0x010 ≤ i ∧ i ≤ 0x017 then s.sel.mask[i - 0x010]
  else if h : 0x018 ≤ i ∧ i ≤ 0x01F then s.sel.addr[i - 0x018]
  else if h : 0x022 ≤ i ∧ i ≤ 0x029 then s.opnd[i - 0x022]
  else
    match i with
    | 0x001 => statusReg s
    | 0x002 => resultReg s
    | 0x003 => exresReg s
    | 0x004 => refuseReg s
    | 0x005 => s.timeout.extractLsb' 0 8
    | 0x006 => s.timeout.extractLsb' 8 8
    | 0x007 => s.target
    | 0x008 => s.tx.c
    | 0x009 => s.tx.a
    | 0x00A => s.tx.ci
    | 0x00B => s.tx.len
    | 0x00C => s.rx.c
    | 0x00D => s.rx.a
    | 0x00E => s.rx.ci
    | 0x00F => s.rx.len
    | 0x020 => s.txbufLen.extractLsb' 0 8
    | 0x021 => (s.txbufLen.extractLsb' 8 1).zeroExtend 8
    | _ => 0

/-- What a host read of an index returns; none for a buffer cell nothing has written. -/
def readRegister (s : State) (i : Nat) : Option Byte :=
  if InBuffer i then Memory.read s.mem i else some (readLow s i)

/-- A host read (R45): of the block's state it changes nothing. A buffer cell nothing has written returns any value
(93_implementation_defined.md U5), the free value (log 2). -/
def hostRead (i : Nat) (s : State) : State :=
  match readRegister s i with
  | some v => { s with lastRead := some v }
  | none => { s with lastRead := some (Config.freeByte s.freeCount), freeCount := s.freeCount + 1 }

/-- A host write to an index other than CMD (R23): read-only and reserved indices ignore it. -/
def hostWrite (i : Nat) (v : Byte) (s : State) : State :=
  if Buffer.txPay.Holds i then { s with mem := Memory.write s.mem i v }
  else if h : 0x022 ≤ i ∧ i ≤ 0x029 then { s with opnd := s.opnd.set (i - 0x022) v }
  else
    match i with
    | 0x005 => { s with timeout := s.timeout.extractLsb' 8 8 ++ v }
    | 0x006 => { s with timeout := v ++ s.timeout.extractLsb' 0 8 }
    | 0x007 => { s with target := v }
    | 0x008 => { s with tx := { s.tx with c := v } }
    | 0x009 => { s with tx := { s.tx with a := v } }
    | 0x00A => { s with tx := { s.tx with ci := v } }
    | 0x00B => { s with tx := { s.tx with len := v } }
    | _ => s

end Sys2Proof.Machine
end

