-- ==== Sys2Proof/Machine/Fetch.lean ====
section
/-! DEFINITION. What the block takes next: the host's next action (00_scope.md R7; 10_state.md R22). Operations are not
fetched from a memory, the host writes CMD (20_memory.md R50). -/

namespace Sys2Proof.Machine

/-- What a step finds to do. -/
inductive Fetched where
  /-- an instruction, and the state with it taken off the host's list -/
  | instr (i : Instr) (s : State)
  /-- an action that is no instruction, done -/
  | done (s : State)
deriving DecidableEq, Repr

/-- The wire bytes that are left stay in front. -/
def pushWire (b : List Byte) (q : List Input) : List Input := if b = [] then q else .wire b :: q

/-- Wire bytes given to the receiver: the unit at their front is the instruction. Bytes that begin no unit are no
instruction; the receiver, which takes any byte (41_decode.md R111), is given the first of them (log 21). -/
def fetchWire (b : List Byte) (q : List Input) (s : State) : Fetched :=
  match decodeWire s.cfg b with
  | .ok (i, more) => .instr i { s with input := pushWire more q }
  | .error _ =>
    match b with
    | [] => .done { s with input := q }
    | v :: more => .done ({ s with input := pushWire more q }.rxByte v)

/-- A byte written to CMD (30_encoding.md R67): an operation, or refused BadCommand. -/
def fetchCmd (v : Byte) (s : State) : Fetched :=
  match decodeCmd v with
  | .ok i => .instr i s
  | .error _ => .done (s.refuse .badCommand)

/-- The host's next action. With none the block is idle and holds its state (60_exceptions.md R205, log 14). -/
def fetch (s : State) : Fetched :=
  match s.input with
  | [] => .done s
  | .write i v :: q => if i = 0 then fetchCmd v { s with input := q } else .done (hostWrite i v { s with input := q })
  | .read i :: q => .done (hostRead i { s with input := q })
  | .present b :: q => .done { s with input := q, decodeArg := b }
  | .wire b :: q => fetchWire b q { s with input := q }

/-- The host action that gives the machine a word of the opcode table: a write of CMD, or the bytes of a unit. -/
def wordInput (nbits w : Nat) : Input :=
  match tableFormat w with
  | .cmd => .write 0 (BitVec.ofNat 8 (w % 2 ^ nbits))
  | .wire => .wire (wordBytes nbits w)

/-- A word of the opcode table placed where the next step takes its instruction: first on the host's list, with no
operation in progress (log 13). -/
def placeWord (s : State) (nbits w : Nat) : State := { s with input := wordInput nbits w :: s.input, phase := .idle }

end Sys2Proof.Machine
end

