-- ==== Sys2Proof/Machine/Resume.lean ====
section
/-! DEFINITION. An operation in progress goes on when its answer is there (60_exceptions.md R190, case 3; log 6). -/

namespace Sys2Proof.Machine

/-- What the operation in progress does next. While the answer is missing it goes on waiting. -/
def resume (s : State) : Result :=
  match s.phase with
  | .idle => .next s
  | .sendWait => sendAnswered s
  | .requestWait => requestAnswered s
  | .selectWait => selectAnswered s
  | .step4Wait => step4Answered s
  | .awaitFirst => awaitFirst s
  | .awaitMore b => awaitMore b s
  | .window w => window s.recvQ w s

end Sys2Proof.Machine
end

