-- ==== Sys2Proof/Machine/Step.lean ====
section
/-! DEFINITION. One step of the machine: the operation in progress goes on, or the host's next action is taken. -/

namespace Sys2Proof.Machine

/-- One step. A configuration that breaks the constraint of 00_scope.md R4 is no configuration of this block (U16,
log 5). The host sees the state before an operation or after it (20_memory.md R45): its next action is taken only when
no operation is in progress. -/
def step (s : State) : Host.Outcome State Fault Refusal :=
  if s.cfg.Ok then
    if s.phase = .idle then
      match fetch s with
      | .instr i t => exec i t
      | .done t => .next t
    else resume s
  else .fault .badConfiguration

/-- A word of the opcode table placed where step takes its next instruction (log 13). -/
def State.withFetchWord (s : State) (nbits w : Nat) : State := placeWord s nbits w

end Sys2Proof.Machine
end

