-- ==== Sys2Proof/Safety.lean ====
section
/-! DEFINITION. What counts as a good state and a good run: the invariant of the block's registers and buffers, and
the end of a run. -/

namespace Sys2Proof.Machine

/-- The first `n` cells of a buffer hold values. -/
def State.Written (s : State) (b : Buffer) (n : Nat) : Prop := ∀ i, i < n → (Memory.read s.mem (b.base + i)).isSome

/-- Where the receiver is within a control or long frame (41_decode.md R114 to R116): past the header the length is at
least 3, in LG_DATA a payload byte is still missing, after it none is. -/
def Rx.Placed (r : Rx) : Prop :=
  match r.state with
  | .idle | .shC | .shA | .shCs | .shStop | .lgL1 | .lgL2 => True
  | .lgStart2 | .lgC | .lgA | .lgCi => 3 ≤ r.l.toNat
  | .lgData => r.cnt.toNat + 3 < r.l.toNat
  | .lgCs | .lgStop => r.cnt.toNat + 3 = r.l.toNat

/-- The receiver is in the part of a frame where RX_CNT payload bytes have been stored (R115, R116). -/
def Rx.InBody (r : Rx) : Prop := r.state = .lgData ∨ r.state = .lgCs ∨ r.state = .lgStop

/-- EV_VALID, RX_KIND, RX_ERR and RX_LEN agree (10_state.md R18, 30_encoding.md R65): an event is a frame or an error,
and only a long frame has a payload, of 1 to 252 bytes. -/
structure Rx.Latched (r : Rx) : Prop where
  valid : r.evValid = (r.kind.isSome || r.err.isSome)
  one : r.kind = none ∨ r.err = none
  long : r.kind = some .long → 1 ≤ r.len.toNat ∧ r.len.toNat ≤ 252
  short : r.kind ≠ some .long → r.len = 0

/-- What holds while an operation is waiting for an answer (40_encode.md R96, 42_addressing.md R148 and R151,
43_exchange.md R170): BUSY is 1 exactly when what it waits for is a reply, and a selection that has not ended has no
outcome. -/
def State.PhaseOk (s : State) : Prop :=
  match s.phase with
  | .idle => True
  | .sendWait | .requestWait => s.busy = false
  | .selectWait => s.busy = false ∧ s.sel.active = true ∧ s.sel.outcome = none
  | .step4Wait =>
    s.busy = false ∧ s.sel.active = false ∧ s.sel.outcome = some .single ∧ s.target = s.cfg.netAddr
  | .awaitFirst => s.busy = true
  | .awaitMore _ => s.busy = true ∧ s.rx.err = some .truncated
  | .window _ => s.busy = true ∧ s.sel.active = true ∧ s.sel.outcome = none

/-- The invariant of the block. -/
structure State.Inv (s : State) : Prop where
  /-- the constraint of 00_scope.md R4 -/
  cfg : s.cfg.Ok
  /-- the memory is in its canonical form -/
  memWf : Memory.wf s.mem
  /-- only buffer cells are ever written (20_memory.md R54) -/
  memIn : ∀ c ∈ s.mem, InBuffer c.1
  /-- TXBUF_LEN is at most 261 (10_state.md R12) -/
  txbufLen : s.txbufLen.toNat ≤ 261
  /-- the frame in TXBUF has been written (40_encode.md R91 to R95) -/
  txbuf : s.Written .txbuf s.txbufLen.toNat
  /-- the receiver is at a place of a frame -/
  placed : s.rx.Placed
  /-- the payload bytes counted have been stored -/
  stored : s.rx.InBody → s.Written .rxPay s.rx.cnt.toNat
  /-- the last event is consistent -/
  latched : s.rx.Latched
  /-- the payload of the last event has been stored -/
  payload : s.Written .rxPay s.rx.len.toNat
  /-- a refusal has a reason (60_exceptions.md R196) -/
  reason : s.refused = true → s.refuseReason ≠ none
  /-- SEL_ADDR_VALID goes with Single and a fully concrete address (10_state.md R16, 42_addressing.md R150) -/
  echoed : s.sel.addrValid = true → s.sel.outcome = some .single ∧ Concrete s.cfg s.sel.addr
  /-- a waiting operation has left BUSY and the selector as its rule says -/
  phase : s.PhaseOk

/-- Every piece of state that 10_state.md R25 gives a reset value is at it. The buffers, which R25 leaves unspecified,
are not mentioned. -/
structure State.AtReset (s : State) : Prop where
  tx : s.tx.c = 0 ∧ s.tx.a = 0 ∧ s.tx.ci = 0 ∧ s.tx.len = 0
  txbufLen : s.txbufLen = 0
  rx : s.rx.c = 0 ∧ s.rx.a = 0 ∧ s.rx.ci = 0 ∧ s.rx.len = 0
  rxState : s.rx.state = .idle
  rxWork : s.rx.l = 0 ∧ s.rx.cnt = 0 ∧ s.rx.sum = 0 ∧ s.rx.csok = false
  mask : s.sel.mask = Vector.replicate 8 0xFF
  active : s.sel.active = false
  addr : s.sel.addr = Vector.replicate 8 0
  addrValid : s.sel.addrValid = false
  target : s.target = 0
  flags : s.busy = false ∧ s.rx.evValid = false ∧ s.refused = false
  event : s.rx.kind = none ∧ s.rx.err = none
  results : s.exResult = none ∧ s.sel.outcome = none
  reason : s.refuseReason = none
  timeout : s.timeout = s.cfg.timeoutDefault
  opnd : s.opnd = Vector.replicate 8 0

/-- From `s` to `t` a frame has been built in TXBUF and nothing else has changed but TXBUF_LEN and REFUSED (40_encode.md
R91 to R95): every cell outside the frame reads as before. -/
def State.Builds (s t : State) (frame : List Byte) : Prop :=
  t = { s with mem := t.mem, txbufLen := BitVec.ofNat 9 frame.length, refused := false } ∧
    t.readBuffer .txbuf frame.length = some frame ∧
    ∀ i, i < 0x300 ∨ 0x300 + frame.length ≤ i → Memory.read t.mem i = Memory.read s.mem i

/-- From `s` to `t` the receiver has run: only its registers, RX_PAY and REFUSED may have changed. -/
def State.Receives (s t : State) : Prop :=
  t = { s with rx := t.rx, mem := t.mem, refused := false } ∧
    ∀ i, ¬ Buffer.rxPay.Holds i → Memory.read t.mem i = Memory.read s.mem i

/-- TXBUF[0..TXBUF_LEN-1] is this frame (10_state.md R12). -/
def State.TxHolds (s : State) (frame : List Byte) : Prop :=
  s.txbufLen = BitVec.ofNat 9 frame.length ∧ s.readBuffer .txbuf frame.length = some frame

/-- RX_PAY reads the same in both states. -/
def State.SameRxPay (s t : State) : Prop := ∀ i, Buffer.rxPay.Holds i → Memory.read t.mem i = Memory.read s.mem i

/-- TXBUF after step 4 of SELECT (42_addressing.md R148, R151): the request frame, and beyond it what the select frame
left there (10_state.md R12). -/
def State.TxAfterStep4 (s t : State) : Prop :=
  t.TxHolds (requestFrame s.cfg s.cfg.netAddr) ∧
    ∀ k, 5 ≤ k → k < 17 → Memory.read t.mem (0x300 + k) = (selectFrame s.cfg s.sel.mask)[k]?

/-- From `s` to `t` SELECT has run to its end (42_addressing.md R148): the mask, the transmit operands, TIMEOUT, OPND and
all cells outside RX_PAY and TXBUF[0..16] are as before. -/
def State.Selects (s t : State) : Prop :=
  t = { s with
    mem := t.mem, txbufLen := t.txbufLen, rx := t.rx, sel := t.sel, target := t.target, busy := t.busy,
    exResult := t.exResult, refused := false, txLog := t.txLog, rxLog := t.rxLog, sendQ := t.sendQ, recvQ := t.recvQ,
    phase := .idle } ∧
    t.sel.mask = s.sel.mask ∧
    ∀ i, ¬ Buffer.rxPay.Holds i → (i < 0x300 ∨ 0x311 ≤ i) → Memory.read t.mem i = Memory.read s.mem i

/-- From `s` to `t` AWAIT_REPLY has run to its end (43_exchange.md R170) with a result. -/
def State.Concludes (s t : State) (x : ExResult) (log : List RecvResult) (q : List RecvInput) : Prop :=
  t = { s with
    mem := t.mem, rx := t.rx, busy := false, exResult := some x, refused := false, rxLog := s.rxLog ++ log,
    recvQ := q, phase := .idle } ∧
    ∀ i, ¬ Buffer.rxPay.Holds i → Memory.read t.mem i = Memory.read s.mem i

/-- The bytes of a frame (30_encoding.md R61 to R64). -/
def Frame.bytes (cfg : Config.Params) : Frame → List Byte
  | .ack => [cfg.ackByte]
  | .short c a => shortFrame cfg c a
  | .control c a ci => longFrame cfg c a ci []
  | .long c a ci p => longFrame cfg c a ci p

/-- The address a frame echoes (42_addressing.md R147). -/
def Frame.echo : Frame → Option Addr
  | .long _ _ _ (b0 :: b1 :: b2 :: b3 :: b4 :: b5 :: b6 :: b7 :: _) => some #v[b0, b1, b2, b3, b4, b5, b6, b7]
  | .long .. | .ack | .short .. | .control .. => none

/-- A frame is the echo of an address that ends a selection (42_addressing.md R150). -/
def Frame.Answers (cfg : Config.Params) (mask : Addr) (f : Frame) (e : Addr) : Prop :=
  f.echo = some e ∧ Concrete cfg e ∧ Matches cfg mask e

/-- How a decode result maps to an exchange result: the table of 43_exchange.md R172. -/
def DecodeResult.exchange : DecodeResult → ExResult
  | .ok .ack => .ok
  | .ok (.long ..) => .ok
  | .ok (.short ..) => .malformed
  | .ok (.control ..) => .malformed
  | .err .checksumMismatch => .checksumMismatch
  | .err .malformed => .malformed
  | .err .unexpectedLength => .malformed
  | .err .truncated => .malformed

/-- The answers of a selection window that brings some chunks of bytes and then ends (42_addressing.md R149). -/
def windowAnswers (chunks : List (List Byte × Bool)) (last : RecvInput) : List RecvInput :=
  chunks.map (fun c => ⟨.bytes c.1, c.2⟩) ++ [last]

/-- The bytes of a window (42_addressing.md R149): the concatenation, in order, of all bytes received in it. -/
def windowBytes (chunks : List (List Byte × Bool)) : List Byte := (chunks.map (·.1)).flatten

/-- RX_BYTE operations in succession, the host writing OPND[0] before each (95_test_vectors.md P1). -/
def rxBytes : List Byte → State → Result
  | [], s => .next s
  | b :: bs, s =>
    match exec .rxByte { s with opnd := s.opnd.set 0 b } with
    | .next t => rxBytes bs t
    | o => o

/-- The reset state with what a run takes from outside (70_reset_and_hazards.md R232): the host's actions, in the order
the host issues them, and the environment's answers (log 6, log 13). -/
def State.reset.given (actions : List Input) (sends : List SendResult) (recvs : List RecvInput) : State :=
  { State.reset with input := actions, sendQ := sends, recvQ := recvs }

/-- The last operation has ended (R232): the host has no action left to issue and no operation is in progress. What the
environment has not been asked for may still be there. -/
def State.Ended (s : State) : Prop := s.input = [] ∧ s.phase = .idle

/-- From `s` some number of steps reaches the end of the run (R232). -/
def State.EndsIn (s t : State) : Prop := (∃ k, Sys2Proof.core.run k s = .next t) ∧ t.Ended

/-- The run of these host actions with these answers from the reset state ends in `t` (R232). -/
def RunEndsIn (actions : List Input) (sends : List SendResult) (recvs : List RecvInput) (t : State) : Prop :=
  (State.reset.given actions sends recvs).EndsIn t

/-- A run has ended cleanly (R232): it has ended, no reply is outstanding, the receiver is in IDLE. -/
def State.EndedCleanly (s : State) : Prop := s.Ended ∧ s.busy = false ∧ s.rx.state = .idle

end Sys2Proof.Machine
end

