-- ==== Sys2Proof/Certificates/Slice0/Obligations.lean ====
section
/-! DEFINITION. The statements for the provers. Each says which rule of spec/ it formalises. -/

open Sys2Proof Sys2Proof.Machine

/-! Encodings -/

/-- R61 to R65, R67, R71, R78: for every configuration and every well-formed instruction, what follows the encoded bytes
is left over and nothing of them is lost. -/
def Obligations.DecodeInvertsEncode : Prop :=
  ∀ (cfg : Config.Params) (i : Instr) (rest : List Byte), cfg.Ok → i.WellFormed →
    decodeAt cfg i.format (encode cfg i ++ rest) = .ok (i, rest)

/-- The other direction: what decodes is well formed, of the port's format, and its encoding is what was read. -/
def Obligations.EncodeInvertsDecode : Prop :=
  ∀ (cfg : Config.Params) (f : Format) (bs : List Byte) (i : Instr) (rest : List Byte),
    decodeAt cfg f bs = .ok (i, rest) → i.WellFormed ∧ i.format = f ∧ bs = encode cfg i ++ rest

/-- A few words written out from R78 and from R61 to R64. -/
def Obligations.SampleWordsDecode : Prop :=
  decodeCmd 0x00 = .ok .reset ∧ decodeCmd 0x03 = .ok .encLong ∧ decodeCmd 0x06 = .ok .send ∧
  decodeCmd 0x09 = .ok .decode ∧ decodeCmd 0x0D = .ok .select ∧ decodeCmd 0x0F = .ok .reqData ∧
  decodeWire .decided [0xE5] = .ok (.ack, []) ∧
  decodeWire .decided [0x10, 0x5B, 0x01, 0x5C, 0x16] = .ok (.short 0x5B 0x01 0x5C 0x16, []) ∧
  decodeWire .decided [0x68, 0x03, 0x03, 0x68, 0x53, 0x01, 0x51, 0xA5, 0x16] =
    .ok (.control 0x53 0x01 0x51 0xA5 0x16, []) ∧
  decodeWire .decided [0x68, 0x06, 0x06, 0x68, 0x08, 0x01, 0x72, 0x01, 0x02, 0x03, 0x81, 0x16] =
    .ok (.long 0x08 0x01 0x72 [0x01, 0x02, 0x03] 0x81 0x16, [])

/-- R67: bits 3:0 select the operation, all sixteen values are assigned; with a bit of 7:4 set no operation starts and
the write is refused with reason BadCommand, code 7. -/
def Obligations.CommandByteSelectsOrIsRefused : Prop :=
  (∀ (cfg : Config.Params) (v : Byte), v.extractLsb' 4 4 = 0 →
    ∃ i, decodeCmd v = .ok i ∧ i.format = .cmd ∧ encode cfg i = [v]) ∧
  (∀ (s : State) (v : Byte) (q : List Input), s.cfg.Ok → s.phase = .idle → s.input = .write 0 v :: q →
    v.extractLsb' 4 4 ≠ 0 →
    step s = .next { s with input := q, refused := true, refuseReason := some .badCommand }) ∧
  reasonCode (some .badCommand) = 7

/-! The step -/

/-- A step runs the decoded instruction: on a write of CMD with the write taken off the host's list, on wire bytes with
the unit taken off and the bytes after it left in front. The host's list of actions and the wire action are the model's own
(logs 6, 9 and 13); which word is which instruction is R67 and R71. -/
def Obligations.StepRunsTheDecodedInstruction : Prop :=
  ∀ (s : State) (i : Instr) (q : List Input), s.cfg.Ok → s.phase = .idle →
    (∀ v, s.input = .write 0 v :: q → decodeCmd v = .ok i → step s = exec i { s with input := q }) ∧
    (∀ b more, s.input = .wire b :: q → decodeWire s.cfg b = .ok (i, more) →
      step s = exec i { s with input := if more = [] then q else .wire more :: q })

/-- What a step does that runs no instruction: idle (R7, R205, log 14), the host's writes and reads, the operand of DECODE
(log 8), an operation in progress (log 6), a configuration that R4 excludes (log 5), wire bytes that begin no unit
(log 21). The host's list of actions is the model's own (log 13). -/
def Obligations.StepWithoutAnInstruction : Prop :=
  ∀ (s : State) (q : List Input),
    (¬ s.cfg.Ok → step s = .fault .badConfiguration) ∧
    (s.cfg.Ok → s.phase ≠ .idle → step s = resume s) ∧
    (s.cfg.Ok → s.phase = .idle →
      (s.input = [] → step s = .next s) ∧
      (∀ i v, i ≠ 0 → s.input = .write i v :: q → step s = .next (hostWrite i v { s with input := q })) ∧
      (∀ i, s.input = .read i :: q → step s = .next (hostRead i { s with input := q })) ∧
      (∀ b, s.input = .present b :: q → step s = .next { s with input := q, decodeArg := b }) ∧
      (∀ b bs e, s.input = .wire (b :: bs) :: q → decodeWire s.cfg (b :: bs) = .error e →
        step s = .next ({ s with input := if bs = [] then q else .wire bs :: q }.rxByte b)))

/-- Wire bytes given to the receiver in one action are taken by it one after the other, each as RX_BYTE takes it (R111,
R117), however they fall into units. The wire action, that it runs by units, and what is done with bytes that begin no
unit are the model's own: logs 9, 13 and 21. No rule gives such an action. -/
def Obligations.WireStreamIsFedByteByByte : Prop :=
  ∀ (b : List Byte) (s : State) (q : List Input), s.cfg.Ok → s.phase = .idle → s.input = .wire b :: q →
    ∃ k, Sys2Proof.core.run k s = .next ({ s with input := q }.feed b)

/-! The register space -/

/-- R11, R16, R21, R23: which register a host write to an index sets, at every index but CMD, where a write starts an
operation instead (R22; statements CommandByteSelectsOrIsRefused and StepRunsTheDecodedInstruction). What is written to a
read/write index is read back there and changes what no other index reads as; every other index but CMD ignores it. -/
def Obligations.RegisterWriteReadsBack : Prop :=
  ∀ (s : State) (v : Byte),
    hostWrite 0x005 v s = { s with timeout := s.timeout.extractLsb' 8 8 ++ v } ∧
    hostWrite 0x006 v s = { s with timeout := v ++ s.timeout.extractLsb' 0 8 } ∧
    hostWrite 0x007 v s = { s with target := v } ∧
    hostWrite 0x008 v s = { s with tx := { s.tx with c := v } } ∧
    hostWrite 0x009 v s = { s with tx := { s.tx with a := v } } ∧
    hostWrite 0x00A v s = { s with tx := { s.tx with ci := v } } ∧
    hostWrite 0x00B v s = { s with tx := { s.tx with len := v } } ∧
    (∀ k : Fin 8, hostWrite (0x022 + k) v s = { s with opnd := s.opnd.set k v }) ∧
    (∀ k, k < 252 →
      hostWrite (0x100 + k) v s = { s with mem := (hostWrite (0x100 + k) v s).mem } ∧
      Memory.read (hostWrite (0x100 + k) v s).mem (0x100 + k) = some v ∧
      ∀ i, i ≠ 0x100 + k → Memory.read (hostWrite (0x100 + k) v s).mem i = Memory.read s.mem i) ∧
    (∀ i, let writable := (0x005 ≤ i ∧ i ≤ 0x00B) ∨ (0x022 ≤ i ∧ i ≤ 0x029) ∨ (0x100 ≤ i ∧ i ≤ 0x1FB)
      (writable → readRegister (hostWrite i v s) i = some v ∧
        ∀ j, j ≠ i → readRegister (hostWrite i v s) j = readRegister s j) ∧
      (i ≠ 0 → ¬ writable → hostWrite i v s = s))

/-- R17 to R23, R45: which register a host read of an index gives, at every index; the read changes nothing of the block.
CMD and the reserved indices read 0. A buffer cell that nothing has written returns some value, whichever it is (U5, the
free value of log 2; the fields that record a read are the model's own, logs 2 and 16). -/
def Obligations.RegisterReadHasNoSideEffect : Prop :=
  ∀ s : State,
    readRegister s 0x001 = some (statusReg s) ∧ readRegister s 0x002 = some (resultReg s) ∧
    readRegister s 0x003 = some (exresReg s) ∧ readRegister s 0x004 = some (refuseReg s) ∧
    readRegister s 0x005 = some (s.timeout.extractLsb' 0 8) ∧ readRegister s 0x006 = some (s.timeout.extractLsb' 8 8) ∧
    readRegister s 0x007 = some s.target ∧
    readRegister s 0x008 = some s.tx.c ∧ readRegister s 0x009 = some s.tx.a ∧
    readRegister s 0x00A = some s.tx.ci ∧ readRegister s 0x00B = some s.tx.len ∧
    readRegister s 0x00C = some s.rx.c ∧ readRegister s 0x00D = some s.rx.a ∧
    readRegister s 0x00E = some s.rx.ci ∧ readRegister s 0x00F = some s.rx.len ∧
    (∀ k : Fin 8, readRegister s (0x010 + k) = some s.sel.mask[k]) ∧
    (∀ k : Fin 8, readRegister s (0x018 + k) = some s.sel.addr[k]) ∧
    readRegister s 0x020 = some (s.txbufLen.extractLsb' 0 8) ∧
    readRegister s 0x021 = some (if s.txbufLen.getLsbD 8 then 1 else 0) ∧
    (∀ k : Fin 8, readRegister s (0x022 + k) = some s.opnd[k]) ∧
    (∀ k, k < 252 → readRegister s (0x100 + k) = Memory.read s.mem (Buffer.txPay.base + k)) ∧
    (∀ k, k < 252 → readRegister s (0x200 + k) = Memory.read s.mem (Buffer.rxPay.base + k)) ∧
    (∀ k, k < 261 → readRegister s (0x300 + k) = Memory.read s.mem (Buffer.txbuf.base + k)) ∧
    (∀ i, i = 0 ∨ (0x02A ≤ i ∧ i ≤ 0x0FF) ∨ (0x1FC ≤ i ∧ i ≤ 0x1FF) ∨ (0x2FC ≤ i ∧ i ≤ 0x2FF) ∨ 0x405 ≤ i →
      readRegister s i = some 0) ∧
    (∀ i, hostRead i s = { s with lastRead := (hostRead i s).lastRead, freeCount := (hostRead i s).freeCount } ∧
      (hostRead i s).lastRead.isSome ∧ ∀ v, readRegister s i = some v → (hostRead i s).lastRead = some v)

/-- R17 to R20: the fields of the status and result registers, bit by bit, and the code of every value of a field (R18,
R19, R191 to R193, R196). -/
def Obligations.StatusRegisterFields : Prop :=
  (∀ s : State,
    (statusReg s).getLsbD 0 = s.busy ∧ (statusReg s).getLsbD 1 = s.sel.active ∧
    ((statusReg s).getLsbD 2 = true ↔ s.rx.state ≠ .idle) ∧ (statusReg s).getLsbD 3 = s.rx.csok ∧
    (statusReg s).getLsbD 4 = s.rx.evValid ∧ (statusReg s).getLsbD 5 = s.refused ∧
    (statusReg s).extractLsb' 6 2 = 0 ∧
    ((resultReg s).extractLsb' 0 3).zeroExtend 8 = kindCode s.rx.kind ∧
    ((resultReg s).extractLsb' 3 3).zeroExtend 8 = errCode s.rx.err ∧ (resultReg s).extractLsb' 6 2 = 0 ∧
    ((exresReg s).extractLsb' 0 3).zeroExtend 8 = exCode s.exResult ∧
    ((exresReg s).extractLsb' 3 3).zeroExtend 8 = outcomeCode s.sel.outcome ∧
    (exresReg s).getLsbD 6 = s.sel.addrValid ∧ (exresReg s).getLsbD 7 = false ∧
    ((refuseReg s).extractLsb' 0 3).zeroExtend 8 = reasonCode s.refuseReason ∧ (refuseReg s).extractLsb' 3 5 = 0) ∧
  kindCode none = 0 ∧ kindCode (some .ack) = 1 ∧ kindCode (some .short) = 2 ∧ kindCode (some .control) = 3 ∧
  kindCode (some .long) = 4 ∧
  errCode none = 0 ∧ errCode (some .malformed) = 1 ∧ errCode (some .checksumMismatch) = 2 ∧
  errCode (some .unexpectedLength) = 3 ∧ errCode (some .truncated) = 4 ∧
  exCode none = 0 ∧ exCode (some .ok) = 1 ∧ exCode (some .timeout) = 2 ∧ exCode (some .malformed) = 3 ∧
  exCode (some .checksumMismatch) = 4 ∧ exCode (some .transportError) = 5 ∧
  outcomeCode none = 0 ∧ outcomeCode (some .nothing) = 1 ∧ outcomeCode (some .single) = 2 ∧
  outcomeCode (some .collision) = 3 ∧ outcomeCode (some .unexpected) = 4 ∧ outcomeCode (some .transportError) = 5 ∧
  reasonCode none = 0 ∧ reasonCode (some .busy) = 1 ∧ reasonCode (some .notBusy) = 2 ∧
  reasonCode (some .badLength) = 3 ∧ reasonCode (some .badAddress) = 4 ∧ reasonCode (some .badNarrow) = 5 ∧
  reasonCode (some .noSelection) = 6 ∧ reasonCode (some .badCommand) = 7

/-! Reset -/

/-- R25: the state right after power-on reset. -/
def Obligations.ResetStateHasTheResetValues : Prop :=
  State.reset.AtReset ∧ State.reset.timeout = 10 ∧ State.reset.txLog = [] ∧ State.reset.rxLog = []

/-- R220: RESET is never refused, puts every register and flag at its reset value, calls neither `send` nor `recv()`
and does not erase the histories. -/
def Obligations.ResetOperationResets : Prop :=
  ∀ s : State, ∃ t, exec .reset s = .next t ∧ t.AtReset ∧ t.cfg = s.cfg ∧ t.txLog = s.txLog ∧ t.rxLog = s.rxLog ∧
    t.sendQ = s.sendQ ∧ t.recvQ = s.recvQ

/-- What RESET leaves of what the model holds of the host: the model's choice, log 17. No cell of a buffer keeps a value
(log 1). -/
def Obligations.ResetOperationKeepsTheHostSide : Prop :=
  ∀ s : State, ∃ t, exec .reset s = .next t ∧ t.input = s.input ∧ t.decodeArg = s.decodeArg ∧
    t.lastRead = s.lastRead ∧ t.freeCount = s.freeCount ∧ t.phase = .idle ∧
    ∀ i, Memory.read t.mem i = none

/-! Encoding operations -/

/-- R91 -/
def Obligations.EncShortBuildsTheShortFrame : Prop :=
  ∀ s : State, ∃ t, exec .encShort s = .next t ∧
    s.Builds t [s.cfg.startShort, s.tx.c, s.tx.a, s.tx.c + s.tx.a, s.cfg.stopByte]

/-- R92 -/
def Obligations.EncControlBuildsTheControlFrame : Prop :=
  ∀ s : State, ∃ t, exec .encControl s = .next t ∧
    s.Builds t [s.cfg.startLong, 3, 3, s.cfg.startLong, s.tx.c, s.tx.a, s.tx.ci, s.tx.c + s.tx.a + s.tx.ci,
      s.cfg.stopByte]

/-- R93: the three cases of ENC_LONG that end, and that with no payload it is ENC_CONTROL. -/
def Obligations.EncLongBuildsTheLongFrame : Prop :=
  ∀ s : State,
    (252 < s.tx.len.toNat → exec .encLong s = .next { s with refused := true, refuseReason := some .badLength }) ∧
    (∀ p, s.tx.len.toNat ≤ 252 → s.readBuffer .txPay s.tx.len.toNat = some p →
      ∃ t, exec .encLong s = .next t ∧
        s.Builds t ([s.cfg.startLong, s.tx.len + 3, s.tx.len + 3, s.cfg.startLong, s.tx.c, s.tx.a, s.tx.ci] ++ p ++
          [sum8 ([s.tx.c, s.tx.a, s.tx.ci] ++ p), s.cfg.stopByte])) ∧
    (s.tx.len = 0 → exec .encLong s = exec .encControl s)

/-- R94 -/
def Obligations.EncRequestBuildsTheRequestFrame : Prop :=
  ∀ s : State,
    (s.target ≤ s.cfg.primaryMax ∨ s.target = s.cfg.netAddr →
      ∃ t, exec .encRequest s = .next t ∧
        s.Builds t [s.cfg.startShort, s.cfg.cRequest, s.target, s.cfg.cRequest + s.target, s.cfg.stopByte]) ∧
    (¬ (s.target ≤ s.cfg.primaryMax ∨ s.target = s.cfg.netAddr) →
      exec .encRequest s = .next { s with refused := true, refuseReason := some .badAddress })

/-- R95 -/
def Obligations.EncSelectBuildsTheSelectFrame : Prop :=
  ∀ s : State,
    (s.sel.active = true →
      ∃ t, exec .encSelect s = .next t ∧
        s.Builds t ([s.cfg.startLong, 11, 11, s.cfg.startLong, s.cfg.cSelect, s.cfg.aSelect, s.cfg.ciSelect] ++
          s.sel.mask.toList ++
          [sum8 ([s.cfg.cSelect, s.cfg.aSelect, s.cfg.ciSelect] ++ s.sel.mask.toList), s.cfg.stopByte])) ∧
    (s.sel.active = false →
      exec .encSelect s = .next { s with refused := true, refuseReason := some .noSelection })

/-! Sending -/

/-- R96: SEND, its refusals in their order and its two ends. -/
def Obligations.SendTransmitsTheFrameOnce : Prop :=
  ∀ s : State,
    (s.busy = true → exec .send s = .next { s with refused := true, refuseReason := some .busy }) ∧
    (s.busy = false → s.txbufLen = 0 →
      exec .send s = .next { s with refused := true, refuseReason := some .badLength }) ∧
    (∀ frame q, s.busy = false → s.txbufLen ≠ 0 → s.readBuffer .txbuf s.txbufLen.toNat = some frame →
      (s.sendQ = .ok :: q →
        exec .send s = .next { s with
          txLog := s.txLog ++ [frame], busy := true, exResult := none, refused := false, sendQ := q,
          phase := .idle }) ∧
      (s.sendQ = .transportError :: q →
        exec .send s = .next { s with
          txLog := s.txLog ++ [frame], exResult := some .transportError, refused := false, sendQ := q,
          phase := .idle }))

/-- R48: while a reply is outstanding no operation sends anything, and no step does either. -/
def Obligations.NothingIsSentWhileBusy : Prop :=
  (∀ (i : Instr) (s t : State), s.busy = true → exec i s = .next t → t.txLog = s.txLog) ∧
  (∀ s t : State, s.busy = true → s.phase = .idle → step s = .next t → t.txLog = s.txLog)

/-- R47, R96, R148, R171: TXLOG only grows, only SEND, SELECT and REQ_DATA make it grow, and by one frame, SELECT by at
most two. -/
def Obligations.OnlySendersTransmit : Prop :=
  ∀ (i : Instr) (s t : State), exec i s = .next t →
    ∃ frames, t.txLog = s.txLog ++ frames ∧ frames.length ≤ 2 ∧
      (i ≠ .select → frames.length ≤ 1) ∧
      (i ≠ .select → i ≠ .send → i ≠ .reqData → frames = [])

/-- R40, R45, R47, R231: answers to `recv()` are used up in order, each joins RXLOG, only SELECT, AWAIT_REPLY and REQ_DATA
use any, and the last two at most two. -/
def Obligations.ReceiveStreamIsConsumedInOrder : Prop :=
  ∀ (i : Instr) (s t : State), exec i s = .next t →
    ∃ n, t.recvQ = s.recvQ.drop n ∧ t.rxLog = s.rxLog ++ (s.recvQ.take n).map (·.result) ∧ n ≤ s.recvQ.length ∧
      (i ≠ .select → n ≤ 2) ∧ (i ≠ .select → i ≠ .awaitReply → i ≠ .reqData → n = 0)

/-- R17, R170, R223: only AWAIT_REPLY and RESET end the time a reply is outstanding. -/
def Obligations.OnlyAwaitReplyAndResetClearBusy : Prop :=
  ∀ (i : Instr) (s t : State), s.busy = true → exec i s = .next t → t.busy = false → i = .awaitReply ∨ i = .reset

/-! The receiver -/

/-- R112: IDLE. -/
def Obligations.ReceiverDispatchesOnTheFirstByte : Prop :=
  ∀ s : State, s.rx.state = .idle →
    exec .rxByte s = .next { s with refused := false, rx :=
      if s.opnd[0] = s.cfg.ackByte then
        { s.rx with kind := some .ack, err := none, evValid := true, len := 0, state := .idle }
      else if s.opnd[0] = s.cfg.startShort then { s.rx with sum := 0, state := .shC }
      else if s.opnd[0] = s.cfg.startLong then { s.rx with sum := 0, state := .lgL1 }
      else { s.rx with kind := none, err := some .malformed, evValid := true, len := 0, state := .idle } }

/-- R113: the states of a short frame. -/
def Obligations.ReceiverTakesAShortFrame : Prop :=
  ∀ s : State,
    let b := s.opnd[0]
    (s.rx.state = .shC →
      exec .rxByte s = .next { s with refused := false, rx := { s.rx with c := b, sum := b, state := .shA } }) ∧
    (s.rx.state = .shA →
      exec .rxByte s = .next { s with refused := false, rx := { s.rx with a := b, sum := s.rx.sum + b, state := .shCs } }) ∧
    (s.rx.state = .shCs →
      exec .rxByte s = .next { s with refused := false, rx := { s.rx with csok := decide (b = s.rx.sum), state := .shStop } }) ∧
    (s.rx.state = .shStop →
      exec .rxByte s = .next { s with refused := false, rx :=
        if b ≠ s.cfg.stopByte then
          { s.rx with kind := none, err := some .malformed, evValid := true, len := 0, state := .idle }
        else if s.rx.csok = false then
          { s.rx with kind := none, err := some .checksumMismatch, evValid := true, len := 0, state := .idle }
        else { s.rx with kind := some .short, err := none, evValid := true, len := 0, state := .idle } })

/-- R114: the header states of a control or long frame. -/
def Obligations.ReceiverChecksTheHeader : Prop :=
  ∀ s : State,
    let b := s.opnd[0]
    (s.rx.state = .lgL1 →
      exec .rxByte s = .next { s with refused := false, rx := { s.rx with l := b, state := .lgL2 } }) ∧
    (s.rx.state = .lgL2 →
      exec .rxByte s = .next { s with refused := false, rx :=
        if b ≠ s.rx.l ∨ b.toNat < 3 then
          { s.rx with kind := none, err := some .unexpectedLength, evValid := true, len := 0, state := .idle }
        else { s.rx with state := .lgStart2 } }) ∧
    (s.rx.state = .lgStart2 →
      exec .rxByte s = .next { s with refused := false, rx :=
        if b ≠ s.cfg.startLong then
          { s.rx with kind := none, err := some .malformed, evValid := true, len := 0, state := .idle }
        else { s.rx with state := .lgC } })

/-- R115: the body states of a control or long frame. In LG_DATA one payload byte is stored and no other cell changes;
the premise is the invariant that holds there. -/
def Obligations.ReceiverStoresTheBody : Prop :=
  ∀ s : State,
    let b := s.opnd[0]
    (s.rx.state = .lgC →
      exec .rxByte s = .next { s with refused := false, rx := { s.rx with c := b, sum := b, state := .lgA } }) ∧
    (s.rx.state = .lgA →
      exec .rxByte s = .next { s with refused := false, rx := { s.rx with a := b, sum := s.rx.sum + b, state := .lgCi } }) ∧
    (s.rx.state = .lgCi →
      exec .rxByte s = .next { s with refused := false, rx := { s.rx with
        ci := b, sum := s.rx.sum + b, cnt := 0, state := if s.rx.l = 3 then .lgCs else .lgData } }) ∧
    (s.rx.state = .lgData → s.rx.Placed →
      ∃ t, exec .rxByte s = .next t ∧
        t = { s with refused := false, mem := t.mem, rx := { s.rx with
          sum := s.rx.sum + b, cnt := s.rx.cnt + 1,
          state := if s.rx.cnt.toNat + 1 = s.rx.l.toNat - 3 then .lgCs else .lgData } } ∧
        Memory.read t.mem (0x200 + s.rx.cnt.toNat) = some b ∧
        ∀ i, i ≠ 0x200 + s.rx.cnt.toNat → Memory.read t.mem i = Memory.read s.mem i)

/-- R116: the tail states of a control or long frame. -/
def Obligations.ReceiverJudgesTheTail : Prop :=
  ∀ s : State,
    let b := s.opnd[0]
    (s.rx.state = .lgCs →
      exec .rxByte s = .next { s with refused := false, rx := { s.rx with csok := decide (b = s.rx.sum), state := .lgStop } }) ∧
    (s.rx.state = .lgStop →
      exec .rxByte s = .next { s with refused := false, rx :=
        if b ≠ s.cfg.stopByte then
          { s.rx with kind := none, err := some .malformed, evValid := true, len := 0, state := .idle }
        else if s.rx.csok = false then
          { s.rx with kind := none, err := some .checksumMismatch, evValid := true, len := 0, state := .idle }
        else if s.rx.l = 3 then
          { s.rx with kind := some .control, err := none, evValid := true, len := 0, state := .idle }
        else { s.rx with kind := some .long, err := none, evValid := true, len := s.rx.l - 3, state := .idle } })

/-- R118 -/
def Obligations.RxEndReportsTruncation : Prop :=
  ∀ s : State,
    (s.rx.state = .idle → exec .rxEnd s = .next { s with refused := false }) ∧
    (s.rx.state ≠ .idle →
      exec .rxEnd s = .next { s with refused := false, rx :=
        { s.rx with kind := none, err := some .truncated, evValid := true, len := 0, state := .idle } })

/-- R120: DECODE, defined by the byte-serial receiver (R119), answers what the closed form says, for every buffer, from
every state. -/
def Obligations.DecodeEqualsClosedForm : Prop :=
  ∀ s : State, ∃ t, exec .decode s = .next t ∧ t.lastResult = some (closedDecode s.cfg s.decodeArg) ∧
    t.rx.state = .idle ∧ t.rx.evValid = true

/-- R119: what DECODE leaves unchanged, and that its answer depends on the buffer and the configuration alone. -/
def Obligations.DecodeChangesTheReceiverOnly : Prop :=
  ∀ s : State, ∃ t, exec .decode s = .next t ∧ s.Receives t ∧
    ∀ s' t', s'.cfg = s.cfg → s'.decodeArg = s.decodeArg → exec .decode s' = .next t' → t'.lastResult = t.lastResult

/-- R97: decoding what an encoder built gives the fields back, and what decodes to a frame is that frame's bytes. -/
def Obligations.EncodeDecodeRoundTrip : Prop :=
  (∀ s : State, s.cfg.Ok → ∃ t b u, exec .encShort s = .next t ∧
    t.readBuffer .txbuf t.txbufLen.toNat = some b ∧ exec .decode { t with decodeArg := b } = .next u ∧
    u.lastResult = some (.ok (.short s.tx.c s.tx.a))) ∧
  (∀ s : State, s.cfg.Ok → ∃ t b u, exec .encControl s = .next t ∧
    t.readBuffer .txbuf t.txbufLen.toNat = some b ∧ exec .decode { t with decodeArg := b } = .next u ∧
    u.lastResult = some (.ok (.control s.tx.c s.tx.a s.tx.ci))) ∧
  (∀ (s : State) (p : List Byte), s.cfg.Ok → s.tx.len.toNat ≤ 252 → s.readBuffer .txPay s.tx.len.toNat = some p →
    ∃ t b u, exec .encLong s = .next t ∧
      t.readBuffer .txbuf t.txbufLen.toNat = some b ∧ exec .decode { t with decodeArg := b } = .next u ∧
      u.lastResult = some (.ok (if p = [] then .control s.tx.c s.tx.a s.tx.ci
        else .long s.tx.c s.tx.a s.tx.ci p))) ∧
  (∀ (s t : State) (f : Frame), exec .decode s = .next t → t.lastResult = some (.ok f) →
    s.decodeArg = f.bytes s.cfg)

/-- R123, checksum invariant: one covered byte or the checksum byte of a good frame changed, and nothing else, is
ChecksumMismatch. -/
def Obligations.OneChangedByteIsAChecksumMismatch : Prop :=
  ∀ (s t : State) (f : Frame) (i : Nat) (v : Byte), s.cfg.Ok → exec .decode s = .next t →
    t.lastResult = some (.ok f) → f ≠ .ack →
    (if (∃ c a, f = .short c a) then 1 else 4) ≤ i → i + 1 < s.decodeArg.length → s.decodeArg[i]? ≠ some v →
    ∃ u, exec .decode { s with decodeArg := s.decodeArg.set i v } = .next u ∧
      u.lastResult = some (.err .checksumMismatch)

/-- R123, length invariant: other length bytes in a good control or long frame are always an error: Truncated when both
are the same larger value, UnexpectedLength when they differ. -/
def Obligations.WrongLengthIsNeverAFrame : Prop :=
  ∀ (s t : State) (f : Frame) (l l2 : Byte), s.cfg.Ok → exec .decode s = .next t → t.lastResult = some (.ok f) →
    f ≠ .ack → (∀ c a, f ≠ .short c a) → ¬ (l = byteAt s.decodeArg 1 ∧ l2 = byteAt s.decodeArg 1) →
    ∃ u e, exec .decode { s with decodeArg := (s.decodeArg.set 1 l).set 2 l2 } = .next u ∧
      u.lastResult = some (.err e) ∧
      (l ≠ l2 → e = .unexpectedLength) ∧
      (l = l2 → byteAt s.decodeArg 1 < l → e = .truncated)

/-- R110, R122: an event puts the receiver in IDLE, where what it does with the next byte depends on that byte and the
configuration alone. -/
def Obligations.ReceiverResynchronisesAfterAnEvent : Prop :=
  (∀ (s : State) (b : Byte) (e : Event), s.eventAt b = some e → (s.takeByte b).rx.state = .idle) ∧
  (∀ (s s' : State) (b : Byte), s.rx.state = .idle → s'.rx.state = .idle → s.cfg = s'.cfg →
    s.eventAt b = s'.eventAt b ∧ (s.takeByte b).rx.state = (s'.takeByte b).rx.state)

/-! Wire units -/

/-- R61 to R64, R112 to R116: what a unit given to an idle receiver is reported as. That a unit is an instruction with
this meaning, and that its checksum and last byte are operands, is the model's choice (logs 9 and 10). -/
def Obligations.UnitsAreJudgedByTheReceiver : Prop :=
  ∀ s : State, s.cfg.Ok → s.rx.state = .idle →
    (∃ t, exec .ack s = .next t ∧ t.lastResult = some (.ok .ack)) ∧
    (∀ c a cs stop, ∃ t, exec (.short c a cs stop) s = .next t ∧ t.lastResult = some (
      if stop ≠ s.cfg.stopByte then .err .malformed
      else if cs ≠ c + a then .err .checksumMismatch
      else .ok (.short c a))) ∧
    (∀ c a ci cs stop, ∃ t, exec (.control c a ci cs stop) s = .next t ∧ t.lastResult = some (
      if stop ≠ s.cfg.stopByte then .err .malformed
      else if cs ≠ c + a + ci then .err .checksumMismatch
      else .ok (.control c a ci))) ∧
    (∀ c a ci p cs stop, (Instr.long c a ci p cs stop).WellFormed →
      ∃ t, exec (.long c a ci p cs stop) s = .next t ∧ t.lastResult = some (
        if stop ≠ s.cfg.stopByte then .err .malformed
        else if cs ≠ sum8 ([c, a, ci] ++ p) then .err .checksumMismatch
        else .ok (.long c a ci p)))

/-- A wire unit is taken in every state; giving it to the receiver is the RX_BYTE operations for its bytes, but for
OPND[0], which the host would write; it changes nothing but the receiver, RX_PAY and REFUSED (R111, R117). What the unit
means as an instruction is the model's choice, log 9. -/
def Obligations.UnitEqualsItsRxBytes : Prop :=
  ∀ (s : State) (i : Instr), i.format = .wire →
    ∃ t u, rxBytes (encode s.cfg i) s = .next t ∧ exec i s = .next u ∧ u = { t with opnd := s.opnd } ∧ s.Receives u

/-! Addressing and selection -/

/-- R140 -/
def Obligations.ResolvePrimaryChecksTheRange : Prop :=
  ∀ s : State,
    (s.opnd[0] ≤ s.cfg.primaryMax →
      exec .resolvePrimary s = .next { s with target := s.opnd[0], refused := false }) ∧
    (s.cfg.primaryMax < s.opnd[0] →
      exec .resolvePrimary s = .next { s with refused := true, refuseReason := some .badAddress })

/-- R145 -/
def Obligations.MaskLoadBeginsASelection : Prop :=
  ∀ s : State, ∃ t, exec .maskLoad s = .next t ∧
    t = { s with sel := { s.sel with mask := t.sel.mask, active := true }, refused := false } ∧
    ∀ (i : Nat) (h : i < 8), t.sel.mask[i] = s.opnd[i]

/-- R146: the refusals, the new digit, the other fifteen, and the law: what the narrowed mask matches the old one matched,
and it has exactly one wildcard fewer. -/
def Obligations.MaskNarrowFixesOneWildcard : Prop :=
  ∀ s : State,
    (s.sel.active = false →
      exec .maskNarrow s = .next { s with refused := true, refuseReason := some .noSelection }) ∧
    (s.sel.active = true → 15 < s.opnd[0].toNat ∨ 15 < s.opnd[1].toNat ∨ s.opnd[1].toNat = s.cfg.wildcard.toNat →
      exec .maskNarrow s = .next { s with refused := true, refuseReason := some .badNarrow }) ∧
    (∀ (p : Fin 16) (d : Digit), s.sel.active = true → s.opnd[0].toNat = p.val → s.opnd[1].toNat = d.toNat →
      d ≠ s.cfg.wildcard →
      (nib s.sel.mask p ≠ s.cfg.wildcard →
        exec .maskNarrow s = .next { s with refused := true, refuseReason := some .badNarrow }) ∧
      (nib s.sel.mask p = s.cfg.wildcard →
        ∃ t, exec .maskNarrow s = .next t ∧
          t = { s with sel := { s.sel with mask := t.sel.mask }, refused := false } ∧
          nib t.sel.mask p = d ∧ (∀ q, q ≠ p → nib t.sel.mask q = nib s.sel.mask q) ∧
          (∀ x, Matches s.cfg t.sel.mask x → Matches s.cfg s.sel.mask x) ∧
          ((List.finRange 16).filter fun q => nib s.sel.mask q = s.cfg.wildcard).length =
            ((List.finRange 16).filter fun q => nib t.sel.mask q = s.cfg.wildcard).length + 1))

/-- R143: a mask of wildcards matches every address, a mask without one matches exactly itself. -/
def Obligations.MasksMatchDigitByDigit : Prop :=
  ∀ (cfg : Config.Params) (m : Addr),
    ((∀ p, nib m p = cfg.wildcard) → ∀ x, Matches cfg m x) ∧
    ((∀ p, nib m p ≠ cfg.wildcard) → ∀ x, Matches cfg m x ↔ x = m) ∧
    (cfg.wildcard = 0xF → ∀ x, Matches cfg (Vector.replicate 8 0xFF) x)

/-- R148, D15: a transport failure ends the selection with the outcome TransportError, before anything is received or in
the window; nothing received is decoded, so RX_PAY keeps what it held. TXBUF holds the select frame (R95). -/
def Obligations.SelectSurfacesTransportErrors : Prop :=
  ∀ s : State, s.busy = false → s.sel.active = true →
    (∀ q, s.sendQ = .transportError :: q →
      ∃ t, exec .select s = .next t ∧ s.Selects t ∧
        t.sel = { s.sel with outcome := some .transportError, addrValid := false } ∧ t.busy = false ∧
        t.target = s.target ∧ t.exResult = none ∧ t.rx = s.rx.clear ∧ s.SameRxPay t ∧
        t.TxHolds (selectFrame s.cfg s.sel.mask) ∧
        t.txLog = s.txLog ++ [selectFrame s.cfg s.sel.mask] ∧ t.rxLog = s.rxLog ∧ t.recvQ = s.recvQ ∧ t.sendQ = q) ∧
    (∀ q chunks tl rest, s.sendQ = .ok :: q → s.recvQ = windowAnswers chunks ⟨.transportError, tl⟩ ++ rest →
      ∃ t, exec .select s = .next t ∧ s.Selects t ∧
        t.sel = { s.sel with outcome := some .transportError, addrValid := false } ∧ t.busy = false ∧
        t.target = s.target ∧ t.exResult = none ∧ t.rx = s.rx.clear ∧ s.SameRxPay t ∧
        t.TxHolds (selectFrame s.cfg s.sel.mask) ∧
        t.txLog = s.txLog ++ [selectFrame s.cfg s.sel.mask] ∧ t.recvQ = rest ∧ t.sendQ = q)

/-- R148 to R150: a window that brings no byte, bytes that decode to an error, or one frame that is no answer: the
outcomes Nothing, Collision and Unexpected. The selection stays active, nothing more is sent, TXBUF holds the select frame
(R95). With no byte nothing is decoded: the receiver is as RX_CLEAR left it and RX_PAY keeps what it held. -/
def Obligations.SelectClassifiesTheWindow : Prop :=
  ∀ (s : State) (q : List SendResult) (chunks : List (List Byte × Bool)) (tl : Bool) (rest : List RecvInput),
    s.busy = false → s.sel.active = true → s.sendQ = .ok :: q →
    s.recvQ = windowAnswers chunks ⟨.timeout, tl⟩ ++ rest →
    ∀ o : SelOutcome,
      ((o = .nothing ∧ windowBytes chunks = []) ∨
        (o = .collision ∧ windowBytes chunks ≠ [] ∧ ∃ e, closedDecode s.cfg (windowBytes chunks) = .err e) ∨
        (o = .unexpected ∧ windowBytes chunks ≠ [] ∧
          ∃ f, closedDecode s.cfg (windowBytes chunks) = .ok f ∧ (∀ e, ¬ f.Answers s.cfg s.sel.mask e) ∧
            ¬ (f = .ack ∧ s.cfg.selAckIsSingle = true))) →
      ∃ t, exec .select s = .next t ∧ s.Selects t ∧
        t.sel = { s.sel with outcome := some o, addrValid := false } ∧ t.busy = false ∧ t.target = s.target ∧
        t.exResult = none ∧ t.txLog = s.txLog ++ [selectFrame s.cfg s.sel.mask] ∧ t.recvQ = rest ∧ t.sendQ = q ∧
        t.TxHolds (selectFrame s.cfg s.sel.mask) ∧
        t.lastResult =
          (if windowBytes chunks = [] then none else some (closedDecode s.cfg (windowBytes chunks))) ∧
        (windowBytes chunks = [] → t.rx = s.rx.clear ∧ s.SameRxPay t)

/-- R147, R150, R151: exactly one reply that echoes a fully concrete address matching the mask: Single, the address is
kept, the request to the network-layer address is built in TXBUF and sent and its reply outstanding; a failed second
`send` leaves the selection Single. -/
def Obligations.SelectIsolatesOneDevice : Prop :=
  ∀ (s : State) (r : SendResult) (q : List SendResult) (chunks : List (List Byte × Bool)) (tl : Bool)
    (rest : List RecvInput) (f : Frame) (e : Addr),
    s.busy = false → s.sel.active = true → s.sendQ = .ok :: r :: q →
    s.recvQ = windowAnswers chunks ⟨.timeout, tl⟩ ++ rest →
    closedDecode s.cfg (windowBytes chunks) = .ok f → f.Answers s.cfg s.sel.mask e →
    ∃ t, exec .select s = .next t ∧ s.Selects t ∧
      t.sel = { s.sel with outcome := some .single, active := false, addr := e, addrValid := true } ∧
      t.target = s.cfg.netAddr ∧ t.lastResult = some (.ok f) ∧
      t.txLog = s.txLog ++ [selectFrame s.cfg s.sel.mask, requestFrame s.cfg s.cfg.netAddr] ∧
      t.recvQ = rest ∧ t.sendQ = q ∧ s.TxAfterStep4 t ∧
      t.busy = decide (r = .ok) ∧ t.exResult = if r = .ok then none else some .transportError

/-- R150, D13: with SEL_ACK_IS_SINGLE a lone acknowledgement is Single without an address, and step 4 is performed. -/
def Obligations.SelectTakesALoneAckAsConfigured : Prop :=
  ∀ (s : State) (r : SendResult) (q : List SendResult) (chunks : List (List Byte × Bool)) (tl : Bool)
    (rest : List RecvInput),
    s.busy = false → s.sel.active = true → s.sendQ = .ok :: r :: q →
    s.recvQ = windowAnswers chunks ⟨.timeout, tl⟩ ++ rest → windowBytes chunks = [s.cfg.ackByte] →
    s.cfg.selAckIsSingle = true →
    ∃ t, exec .select s = .next t ∧ s.Selects t ∧
      t.sel = { s.sel with outcome := some .single, active := false, addrValid := false } ∧
      t.target = s.cfg.netAddr ∧
      t.txLog = s.txLog ++ [selectFrame s.cfg s.sel.mask, requestFrame s.cfg s.cfg.netAddr] ∧
      t.recvQ = rest ∧ t.sendQ = q ∧ s.TxAfterStep4 t ∧
      t.busy = decide (r = .ok) ∧ t.exResult = if r = .ok then none else some .transportError

/-- R150, R154 (selection collision, the case of E3 in which the replies come one after the other): two intact long
frames in one window are a Collision. -/
def Obligations.TwoRepliesAreACollision : Prop :=
  ∀ (s : State) (q : List SendResult) (chunks : List (List Byte × Bool)) (tl : Bool) (rest : List RecvInput)
    (c a ci c' a' ci' : Byte) (p p' : List Byte),
    s.cfg.Ok → s.busy = false → s.sel.active = true → s.sendQ = .ok :: q →
    s.recvQ = windowAnswers chunks ⟨.timeout, tl⟩ ++ rest → p.length ≤ 252 → p'.length ≤ 252 →
    windowBytes chunks = longFrame s.cfg c a ci p ++ longFrame s.cfg c' a' ci' p' →
    ∃ t, exec .select s = .next t ∧ s.Selects t ∧
      t.sel = { s.sel with outcome := some .collision, addrValid := false } ∧ t.rx.err = some .unexpectedLength ∧
      t.busy = false ∧ t.target = s.target ∧ t.exResult = none ∧
      t.txLog = s.txLog ++ [selectFrame s.cfg s.sel.mask] ∧ t.recvQ = rest ∧ t.sendQ = q ∧
      t.TxHolds (selectFrame s.cfg s.sel.mask)

/-- R152: the byte-serial selector, which keeps a count and a bit instead of the window, gives the same outcome. -/
def Obligations.ByteSerialSelectorAgrees : Prop :=
  ∀ (w : List Byte) (s : State), ∃ t, classify w s = .next t ∧ t.sel.outcome = some (serialOutcome w s)

/-! The exchange -/

/-- R170, R172, R195: the first `recv()` of an exchange. Timeout and TransportError are reported before any decoding, so
RX_PAY keeps what it held; bytes are decoded, and unless a continuation read follows the result is the one of the table of R172. -/
def Obligations.AwaitReplyMapsTheFirstRead : Prop :=
  ∀ (s : State) (tl : Bool) (q : List RecvInput), s.busy = true →
    (s.recvQ = ⟨.timeout, tl⟩ :: q →
      ∃ t, exec .awaitReply s = .next t ∧ s.Concludes t .timeout [.timeout] q ∧ t.rx = s.rx.clear ∧ s.SameRxPay t) ∧
    (s.recvQ = ⟨.transportError, tl⟩ :: q →
      ∃ t, exec .awaitReply s = .next t ∧ s.Concludes t .transportError [.transportError] q ∧ t.rx = s.rx.clear ∧
        s.SameRxPay t) ∧
    (∀ b, s.recvQ = ⟨.bytes b, tl⟩ :: q → (tl = true → closedDecode s.cfg b ≠ .err .truncated) →
      ∃ t, exec .awaitReply s = .next t ∧ s.Concludes t (closedDecode s.cfg b).exchange [.bytes b] q ∧
        t.lastResult = some (closedDecode s.cfg b))

/-- R170 step 4, R172, R173: the one continuation read. What it brings is decoded with the bytes of the first read; a
second Timeout is Malformed. -/
def Obligations.AwaitReplyReadsOnceMore : Prop :=
  ∀ (s : State) (b : List Byte) (tl : Bool) (q : List RecvInput), s.busy = true →
    closedDecode s.cfg b = .err .truncated →
    (s.recvQ = ⟨.bytes b, true⟩ :: ⟨.timeout, tl⟩ :: q →
      ∃ t, exec .awaitReply s = .next t ∧ s.Concludes t .malformed [.bytes b, .timeout] q ∧
        t.lastResult = some (.err .truncated)) ∧
    (s.recvQ = ⟨.bytes b, true⟩ :: ⟨.transportError, tl⟩ :: q →
      ∃ t, exec .awaitReply s = .next t ∧ s.Concludes t .transportError [.bytes b, .transportError] q ∧
        t.lastResult = some (.err .truncated)) ∧
    (∀ c, s.recvQ = ⟨.bytes b, true⟩ :: ⟨.bytes c, tl⟩ :: q →
      ∃ t, exec .awaitReply s = .next t ∧
        s.Concludes t (closedDecode s.cfg (b ++ c)).exchange [.bytes b, .bytes c] q ∧
        t.lastResult = some (closedDecode s.cfg (b ++ c)))

/-- R171: an accepted REQ_DATA is ENC_REQUEST, SEND and AWAIT_REPLY in succession; when the `send` fails it ends with
SEND. -/
def Obligations.ReqDataIsItsThreeParts : Prop :=
  ∀ (s : State) (r : SendResult) (q : List SendResult), s.busy = false →
    s.target ≤ s.cfg.primaryMax ∨ s.target = s.cfg.netAddr → s.sendQ = r :: q →
    ∃ t u, exec .encRequest s = .next t ∧ exec .send t = .next u ∧
      exec .reqData s = match r with
        | .ok => exec .awaitReply u
        | .transportError => .next u

/-- R171, R172: one request frame goes out and the reply is mapped as in AWAIT_REPLY; BUSY is 0 at the end. -/
def Obligations.ReqDataSendsOneRequest : Prop :=
  ∀ (s : State) (b : List Byte) (tl : Bool) (qs : List SendResult) (q : List RecvInput), s.busy = false →
    s.target ≤ s.cfg.primaryMax ∨ s.target = s.cfg.netAddr → s.sendQ = .ok :: qs →
    s.recvQ = ⟨.bytes b, tl⟩ :: q → (tl = true → closedDecode s.cfg b ≠ .err .truncated) →
    ∃ t, exec .reqData s = .next t ∧
      t.txLog = s.txLog ++
        [[s.cfg.startShort, s.cfg.cRequest, s.target, s.cfg.cRequest + s.target, s.cfg.stopByte]] ∧
      t.exResult = some (closedDecode s.cfg b).exchange ∧ t.lastResult = some (closedDecode s.cfg b) ∧
      t.busy = false ∧ t.refused = false ∧ t.phase = .idle ∧ t.sendQ = qs ∧ t.recvQ = q ∧
      t.rxLog = s.rxLog ++ [.bytes b] ∧ t.sel = s.sel ∧ t.target = s.target ∧ t.tx = s.tx ∧ t.opnd = s.opnd ∧
      t.timeout = s.timeout ∧ t.refuseReason = s.refuseReason ∧
      t.TxHolds [s.cfg.startShort, s.cfg.cRequest, s.target, s.cfg.cRequest + s.target, s.cfg.stopByte] ∧
      ∀ i, ¬ Buffer.rxPay.Holds i → (i < 0x300 ∨ 0x305 ≤ i) → Memory.read t.mem i = Memory.read s.mem i

/-! Refusals, waiting, whole-machine rules -/

/-- R148, R170, R171, R195: SELECT, AWAIT_REPLY and REQ_DATA test their refusals before anything is written, sent or
received, in the order of their pseudocode. -/
def Obligations.ExchangesAreRefusedBeforeTheyAct : Prop :=
  ∀ s : State,
    (s.busy = true → exec .select s = .next { s with refused := true, refuseReason := some .busy }) ∧
    (s.busy = false → s.sel.active = false →
      exec .select s = .next { s with refused := true, refuseReason := some .noSelection }) ∧
    (s.busy = false → exec .awaitReply s = .next { s with refused := true, refuseReason := some .notBusy }) ∧
    (s.busy = true → exec .reqData s = .next { s with refused := true, refuseReason := some .busy }) ∧
    (s.busy = false → ¬ (s.target ≤ s.cfg.primaryMax ∨ s.target = s.cfg.netAddr) →
      exec .reqData s = .next { s with refused := true, refuseReason := some .badAddress })

/-- R196: a refused operation has changed nothing but the refusal fields. (An operation still in progress has not been
refused.) -/
def Obligations.RefusalChangesNothingElse : Prop :=
  ∀ (i : Instr) (s t : State), s.phase = .idle → exec i s = .next t → t.phase = .idle → t.refused = true →
    ∃ r, t = { s with refused := true, refuseReason := some r }

/-- R190, R231: an operation whose answers come later does what it does when they are there from the start: going on
after a wait is the same as not having waited. The waiting state is the model's own, log 6. -/
def Obligations.LateAnswersMakeNoDifference : Prop :=
  ∀ (i : Instr) (s t : State) (qs : List SendResult) (qr : List RecvInput), s.phase = .idle → exec i s = .next t →
    t.phase ≠ .idle →
    resume { t with sendQ := t.sendQ ++ qs, recvQ := t.recvQ ++ qr } =
      exec i { s with sendQ := s.sendQ ++ qs, recvQ := s.recvQ ++ qr }

/-- R190 case 3, R231, U15: an operation whose answer does not come does not end; the state stays as it is. The waiting
state is the model's own (log 6), and so is that an unanswered `send` waits too (log 19). -/
def Obligations.WaitingChangesNothing : Prop :=
  ∀ s : State, s.cfg.Ok → s.phase ≠ .idle → s.sendQ = [] → s.recvQ = [] → step s = .next s

/-- R231, E4: with two answers to `send` and two to `recv()`, one of which is not bytes, every operation has ended after
one step. -/
def Obligations.AnsweredOperationsEnd : Prop :=
  ∀ (i : Instr) (s t : State), s.phase = .idle → 2 ≤ s.sendQ.length → 2 ≤ s.recvQ.length →
    (∃ r ∈ s.recvQ, ∀ b, r.result ≠ .bytes b) → exec i s = .next t → t.phase = .idle

/-- Every step keeps the invariant, from every state that meets it (R12, R14, R18, R54, R96, R150, R170, R196), and never
touches the configuration (R4, R10). -/
def Obligations.StepKeepsTheInvariant : Prop :=
  ∀ s t : State, s.Inv → step s = .next t → t.Inv ∧ t.cfg = s.cfg

/-- The invariant holds right after reset. -/
def Obligations.ResetMeetsTheInvariant : Prop := State.reset.Inv

/-- U5, R221, R54, R190: in a state that meets the invariant the only stop is ENC_LONG reading a cell among
TX_PAY[0..TX_LEN-1] that nothing has written, and there it does stop; no step is refused. That the read stops is the
model's choice, log 1. -/
def Obligations.OnlyAnUnwrittenPayloadStops : Prop :=
  (∀ (s : State) (f : Fault), s.Inv → step s = .fault f →
    f = .unwrittenCell .txPay ∧ ∃ q, s.input = .write 0 3 :: q) ∧
  (∀ (s : State) (i : Nat), s.tx.len.toNat ≤ 252 → i < s.tx.len.toNat → Memory.read s.mem (0x100 + i) = none →
    exec .encLong s = .fault (.unwrittenCell .txPay)) ∧
  (∀ (s : State) (r : Refusal), step s ≠ .refused r)

/-- R232: the end of a run. An ended run stays where it is; from a state a run ends in at most one state; it has ended
cleanly when in addition the host reads 0 in the bits BUSY and RX_PENDING of STATUS. That the host's actions are a list
in State, and that it is the empty list when the last operation has been issued, is the model's own (logs 6 and 13). -/
def Obligations.ARunEndsInOneState : Prop :=
  (∀ s : State, s.cfg.Ok → s.Ended → step s = .next s) ∧
  (∀ s t t' : State, s.EndsIn t → s.EndsIn t' → t = t') ∧
  (∀ s : State, s.EndedCleanly ↔ s.Ended ∧ (statusReg s).getLsbD 0 = false ∧ (statusReg s).getLsbD 2 = false)
end

