-- ==== Sys2Proof/Laws/Operands.lean ====
section
/-! SUPPORT. The laws of the checksum (40_encode.md R90) and of digits (30_encoding.md R74). -/

namespace Sys2Proof.Machine

@[simp] theorem sum8_nil : sum8 [] = 0 := rfl

@[simp] theorem sum8_cons (b : Byte) (bs : List Byte) : sum8 (b :: bs) = b + sum8 bs := rfl

@[simp] theorem sum8_append (s t : List Byte) : sum8 (s ++ t) = sum8 s + sum8 t := by
  induction s with
  | nil => simp
  | cons b s ih => simp [ih, BitVec.add_assoc]

/-- The checksum does not depend on the order of the bytes. -/
theorem sum8_perm {s t : List Byte} (h : s.Perm t) : sum8 s = sum8 t := by
  induction h with
  | nil => rfl
  | cons b _ ih => simp [ih]
  | swap a b s => simp only [sum8_cons, ← BitVec.add_assoc, BitVec.add_comm]
  | trans _ _ ih1 ih2 => exact ih1.trans ih2

/-- One byte changed changes the checksum. -/
theorem sum8_set_ne {s : List Byte} {i : Nat} {b : Byte} (h : i < s.length) (hb : b ≠ s[i]) :
    sum8 (s.set i b) ≠ sum8 s := by
  induction s generalizing i with
  | nil => exact absurd h (Nat.not_lt_zero _)
  | cons a s ih =>
    cases i with
    | zero =>
      simp only [List.set_cons_zero, sum8_cons, ne_eq, BitVec.add_left_inj]
      exact hb
    | succ i =>
      simp only [List.set_cons_succ, sum8_cons, ne_eq, BitVec.add_right_inj]
      exact ih (by simpa using h) (by simpa using hb)

theorem nib_even {x : Addr} {p : Fin 16} (h : p.val % 2 = 0) :
    nib x p = (x[p.val / 2]'(by omega)).extractLsb' 4 4 := by simp [nib, h]

theorem nib_odd {x : Addr} {p : Fin 16} (h : p.val % 2 ≠ 0) :
    nib x p = (x[p.val / 2]'(by omega)).extractLsb' 0 4 := by simp [nib, h]

theorem high_of_append (d e : Digit) : (d ++ e : Byte).extractLsb' 4 4 = d := by
  ext i hi
  simp only [BitVec.getElem_extractLsb', BitVec.getLsbD_append]
  simp [show ¬ 4 + i < 4 by omega, BitVec.getLsbD_eq_getElem hi]

theorem low_of_append (d e : Digit) : (d ++ e : Byte).extractLsb' 0 4 = e := by
  ext i hi
  simp only [BitVec.getElem_extractLsb', BitVec.getLsbD_append]
  simp [hi]

/-- The digit that was set. -/
theorem nib_setNib_same (x : Addr) (p : Fin 16) (d : Digit) : nib (setNib x p d) p = d := by
  by_cases h : p.val % 2 = 0
  · simp only [nib, setNib, h, if_true, Vector.getElem_set_self]
    exact high_of_append _ _
  · simp only [nib, setNib, h, if_false, Vector.getElem_set_self]
    exact low_of_append _ _

/-- The other digits stay. -/
theorem nib_setNib_other (x : Addr) {p q : Fin 16} (d : Digit) (h : q ≠ p) : nib (setNib x p d) q = nib x q := by
  by_cases e : p.val / 2 = q.val / 2
  · have hne : p.val ≠ q.val := fun he => h (Fin.ext he.symm)
    by_cases hp : p.val % 2 = 0
    · have hq : ¬ q.val % 2 = 0 := by omega
      simp only [nib, setNib, hp, hq, if_true, if_false, e, Vector.getElem_set_self]
      exact low_of_append _ _
    · have hq : q.val % 2 = 0 := by omega
      simp only [nib, setNib, hp, hq, if_true, if_false, e, Vector.getElem_set_self]
      exact high_of_append _ _
  · simp only [nib, setNib]
    rw [Vector.getElem_set_ne _ _ e]

/-- The bytes of an address are its digits. -/
theorem addr_ext_nib {x y : Addr} (h : ∀ p : Fin 16, nib x p = nib y p) : x = y := by
  refine Vector.ext fun i hi => ?_
  have h0 := h ⟨2 * i, by omega⟩
  have h1 := h ⟨2 * i + 1, by omega⟩
  simp only [nib, show 2 * i % 2 = 0 by omega, if_true, show 2 * i / 2 = i by omega] at h0
  simp only [nib, show ¬ (2 * i + 1) % 2 = 0 by omega, if_false, show (2 * i + 1) / 2 = i by omega] at h1
  apply BitVec.eq_of_getElem_eq
  intro k hk
  by_cases hk4 : k < 4
  · have := congrArg (fun d : Digit => d.getLsbD k) h1
    simpa [hk4, BitVec.getLsbD_eq_getElem hk] using this
  · have := congrArg (fun d : Digit => d.getLsbD (k - 4)) h0
    simpa [show k - 4 < 4 by omega, show 4 + (k - 4) = k by omega, BitVec.getLsbD_eq_getElem hk] using this

end Sys2Proof.Machine
end

