-- ==== Sys2Proof/Laws/Memory.lean ====
section
/-! SUPPORT. The laws of the byte buffers: read after write, the canonical form, blocks of cells. -/

namespace Sys2Proof.Machine

theorem Memory.read_write_same (m : List Host.Cell) (a : Nat) (b : Byte) :
    Memory.read (Memory.write m a b) a = some b := by
  induction m with
  | nil => simp [Memory.write, Memory.read]
  | cons x m ih =>
    simp only [Memory.write]
    split
    · simp [Memory.read]
    · split
      · simp [Memory.read]
      · rename_i h
        have h' : ¬ x.1 = a := fun e => h e.symm
        simp [Memory.read, h', ih]

theorem Memory.read_write_other (m : List Host.Cell) {a a' : Nat} (b : Byte) (h : a' ≠ a) :
    Memory.read (Memory.write m a b) a' = Memory.read m a' := by
  induction m with
  | nil => simp [Memory.write, Memory.read, Ne.symm h]
  | cons x m ih =>
    simp only [Memory.write]
    split
    · simp [Memory.read, Ne.symm h]
    · split
      · rename_i e
        simp [Memory.read, ← e, Ne.symm h]
      · simp [Memory.read, ih]

theorem Memory.read_write (m : List Host.Cell) (a a' : Nat) (b : Byte) :
    Memory.read (Memory.write m a b) a' = if a' = a then some b else Memory.read m a' := by
  split
  · next h => rw [h, Memory.read_write_same]
  · next h => exact Memory.read_write_other m b h

theorem Memory.mem_write {m : List Host.Cell} {a : Nat} {b : Byte} {c : Host.Cell}
    (h : c ∈ Memory.write m a b) : c = (a, b) ∨ c ∈ m := by
  induction m with
  | nil => simpa [Memory.write] using h
  | cons x m ih =>
    simp only [Memory.write] at h
    split at h
    · simpa using h
    · split at h
      · rcases List.mem_cons.1 h with h | h
        · exact .inl h
        · exact .inr (List.mem_cons_of_mem _ h)
      · rcases List.mem_cons.1 h with h | h
        · exact .inr (h ▸ List.mem_cons_self)
        · exact (ih h).imp id (List.mem_cons_of_mem _)

/-- A write keeps the canonical form. -/
theorem Memory.wf_write {m : List Host.Cell} (a : Nat) (b : Byte) (h : Memory.wf m) :
    Memory.wf (Memory.write m a b) := by
  induction m with
  | nil => simp [Memory.write]
  | cons x m ih =>
    obtain ⟨h1, h2⟩ := List.pairwise_cons.1 h
    simp only [Memory.write]
    split
    · next hlt =>
      refine List.pairwise_cons.2 ⟨fun y hy => ?_, h⟩
      rcases List.mem_cons.1 hy with hy | hy
      · simpa [hy] using hlt
      · exact Nat.lt_trans hlt (h1 y hy)
    · split
      · next heq => exact List.pairwise_cons.2 ⟨fun y hy => heq ▸ h1 y hy, h2⟩
      · next hlt hne =>
        refine List.pairwise_cons.2 ⟨fun y hy => ?_, ih h2⟩
        rcases Memory.mem_write hy with hy | hy
        · subst hy; show x.1 < a; omega
        · exact h1 y hy

theorem Memory.mem_writeAll {m : List Host.Cell} {a : Nat} {bs : List Byte} {c : Host.Cell}
    (h : c ∈ Memory.writeAll m a bs) : (a ≤ c.1 ∧ c.1 < a + bs.length) ∨ c ∈ m := by
  induction bs generalizing m a with
  | nil => exact .inr h
  | cons b bs ih =>
    rcases ih h with h | h
    · left; simp only [List.length_cons]; omega
    · rcases Memory.mem_write h with h | h
      · subst h; left; simp
      · exact .inr h

theorem Memory.wf_writeAll {m : List Host.Cell} (a : Nat) (bs : List Byte) (h : Memory.wf m) :
    Memory.wf (Memory.writeAll m a bs) := by
  induction bs generalizing m a with
  | nil => exact h
  | cons b bs ih => exact ih _ (Memory.wf_write a b h)

/-- A block of writes leaves every other cell alone. -/
theorem Memory.read_writeAll_outside (m : List Host.Cell) {a i : Nat} (bs : List Byte)
    (h : i < a ∨ a + bs.length ≤ i) : Memory.read (Memory.writeAll m a bs) i = Memory.read m i := by
  induction bs generalizing m a with
  | nil => rfl
  | cons b bs ih =>
    simp only [List.length_cons] at h
    rw [Memory.writeAll, ih _ (by omega), Memory.read_write_other _ _ (by omega)]

/-- A block of writes is there to be read. -/
theorem Memory.read_writeAll_inside (m : List Host.Cell) (a : Nat) (bs : List Byte) {k : Nat} (h : k < bs.length) :
    Memory.read (Memory.writeAll m a bs) (a + k) = some bs[k] := by
  induction bs generalizing m a k with
  | nil => exact absurd h (Nat.not_lt_zero _)
  | cons b bs ih =>
    cases k with
    | zero =>
      rw [Memory.writeAll, Memory.read_writeAll_outside _ _ (by omega), Nat.add_zero, Memory.read_write_same]
      rfl
    | succ k =>
      have := ih (Memory.write m a b) (a + 1) (k := k) (by simpa using h)
      rw [Memory.writeAll, show a + (k + 1) = a + 1 + k by omega, this]
      simp

/-- Reading a block depends on its cells only. -/
theorem Memory.readAll_congr {m m' : List Host.Cell} {a n : Nat}
    (h : ∀ i, a ≤ i → i < a + n → Memory.read m' i = Memory.read m i) :
    Memory.readAll m' a n = Memory.readAll m a n := by
  induction n generalizing a with
  | zero => rfl
  | succ n ih =>
    rw [Memory.readAll, Memory.readAll, h a (by omega) (by omega), ih fun i h1 h2 => h i (by omega) (by omega)]

/-- What a block reads as. -/
theorem Memory.readAll_eq_some {m : List Host.Cell} {a n : Nat} {bs : List Byte} :
    Memory.readAll m a n = some bs ↔
      bs.length = n ∧ ∀ k (h : k < bs.length), Memory.read m (a + k) = some bs[k] := by
  induction n generalizing a bs with
  | zero =>
    constructor
    · intro h
      cases Option.some.inj h
      exact ⟨rfl, fun k hk => absurd hk (Nat.not_lt_zero _)⟩
    · intro h
      rw [List.length_eq_zero_iff.1 h.1, Memory.readAll]
  | succ n ih =>
    rw [Memory.readAll]
    constructor
    · intro h
      split at h
      · next b bs' h1 h2 =>
        cases Option.some.inj h
        obtain ⟨e, f⟩ := ih.1 h2
        refine ⟨by simp [e], fun k hk => ?_⟩
        cases k with
        | zero => simpa using h1
        | succ k =>
          have := f k (by simpa using hk)
          simpa [Nat.add_assoc, Nat.add_comm 1 k] using this
      · exact absurd h (by simp)
    · rintro ⟨e, f⟩
      cases bs with
      | nil => simp at e
      | cons b bs' =>
        have h1 : Memory.read m a = some b := f 0 (by simp)
        have h2 : Memory.readAll m (a + 1) n = some bs' := by
          refine ih.2 ⟨by simpa using e, fun k hk => ?_⟩
          have := f (k + 1) (by simpa using hk)
          simpa [Nat.add_assoc, Nat.add_comm 1 k] using this
        rw [h1, h2]

/-- A block that was written reads back. -/
theorem Memory.readAll_writeAll (m : List Host.Cell) (a : Nat) (bs : List Byte) :
    Memory.readAll (Memory.writeAll m a bs) a bs.length = some bs :=
  Memory.readAll_eq_some.2 ⟨rfl, fun _ h => Memory.read_writeAll_inside m a bs h⟩

/-- The front of a block that was written reads back. -/
theorem Memory.readAll_writeAll_take (m : List Host.Cell) (a : Nat) (bs : List Byte) {n : Nat} (h : n ≤ bs.length) :
    Memory.readAll (Memory.writeAll m a bs) a n = some (bs.take n) := by
  refine Memory.readAll_eq_some.2 ⟨by simpa using h, fun k hk => ?_⟩
  rw [List.length_take] at hk
  rw [Memory.read_writeAll_inside m a bs (by omega), List.getElem_take]

/-- A block reads as something exactly when each of its cells has been written. -/
theorem Memory.readAll_isSome {m : List Host.Cell} {a n : Nat} :
    (Memory.readAll m a n).isSome ↔ ∀ i, i < n → (Memory.read m (a + i)).isSome := by
  induction n generalizing a with
  | zero => simp [Memory.readAll]
  | succ n ih =>
    rw [Memory.readAll]
    constructor
    · intro h i hi
      split at h
      · next b bs h1 h2 =>
        cases i with
        | zero => simp [h1]
        | succ i =>
          have := ih.1 (by rw [h2]; rfl) i (by omega)
          simpa [Nat.add_assoc, Nat.add_comm 1 i] using this
      · simp at h
    · intro h
      have h1 := h 0 (by omega)
      have h2 : (Memory.readAll m (a + 1) n).isSome := ih.2 fun i hi => by
        have := h (i + 1) (by omega)
        simpa [Nat.add_assoc, Nat.add_comm 1 i] using this
      rw [Nat.add_zero] at h1
      obtain ⟨b, hb⟩ := Option.isSome_iff_exists.1 h1
      obtain ⟨bs, hbs⟩ := Option.isSome_iff_exists.1 h2
      rw [hb, hbs]; rfl

/-- Storing a payload byte keeps the canonical form. -/
theorem wf_storeRxPay {m : List Host.Cell} (cnt b : Byte) (h : Memory.wf m) : Memory.wf (storeRxPay m cnt b) := by
  rw [storeRxPay]; split
  · exact Memory.wf_write _ _ h
  · exact h

/-- Storing a payload byte touches the cell RX_CNT of RX_PAY only. -/
theorem read_storeRxPay (m : List Host.Cell) (cnt b : Byte) (i : Nat) :
    Memory.read (storeRxPay m cnt b) i =
      if cnt.toNat < 252 ∧ i = 0x200 + cnt.toNat then some b else Memory.read m i := by
  by_cases h : cnt.toNat < 252
  · simp [storeRxPay, Buffer.size, Buffer.base, h, Memory.read_write]
  · simp [storeRxPay, Buffer.size, h]

end Sys2Proof.Machine
end

