-- ==== Sys2Proof/Laws/State.lean ====
section
/-! SUPPORT. Every named update of the state, field by field, so that no proof unfolds one. -/

namespace Sys2Proof.Machine

section
/-! declining an operation (R196) -/
variable (s : State) (r : RefuseReason)
@[simp] theorem State.refuse_cfg : (s.refuse r).cfg = s.cfg := rfl
@[simp] theorem State.refuse_tx : (s.refuse r).tx = s.tx := rfl
@[simp] theorem State.refuse_txbufLen : (s.refuse r).txbufLen = s.txbufLen := rfl
@[simp] theorem State.refuse_mem : (s.refuse r).mem = s.mem := rfl
@[simp] theorem State.refuse_rx : (s.refuse r).rx = s.rx := rfl
@[simp] theorem State.refuse_sel : (s.refuse r).sel = s.sel := rfl
@[simp] theorem State.refuse_target : (s.refuse r).target = s.target := rfl
@[simp] theorem State.refuse_busy : (s.refuse r).busy = s.busy := rfl
@[simp] theorem State.refuse_exResult : (s.refuse r).exResult = s.exResult := rfl
@[simp] theorem State.refuse_refused : (s.refuse r).refused = true := rfl
@[simp] theorem State.refuse_refuseReason : (s.refuse r).refuseReason = some r := rfl
@[simp] theorem State.refuse_timeout : (s.refuse r).timeout = s.timeout := rfl
@[simp] theorem State.refuse_opnd : (s.refuse r).opnd = s.opnd := rfl
@[simp] theorem State.refuse_txLog : (s.refuse r).txLog = s.txLog := rfl
@[simp] theorem State.refuse_rxLog : (s.refuse r).rxLog = s.rxLog := rfl
@[simp] theorem State.refuse_input : (s.refuse r).input = s.input := rfl
@[simp] theorem State.refuse_sendQ : (s.refuse r).sendQ = s.sendQ := rfl
@[simp] theorem State.refuse_recvQ : (s.refuse r).recvQ = s.recvQ := rfl
@[simp] theorem State.refuse_decodeArg : (s.refuse r).decodeArg = s.decodeArg := rfl
@[simp] theorem State.refuse_phase : (s.refuse r).phase = s.phase := rfl
@[simp] theorem State.refuse_lastRead : (s.refuse r).lastRead = s.lastRead := rfl
@[simp] theorem State.refuse_freeCount : (s.refuse r).freeCount = s.freeCount := rfl
end

section
/-! accepting an operation (R196) -/
variable (s : State)
@[simp] theorem State.accept_cfg : (s.accept).cfg = s.cfg := rfl
@[simp] theorem State.accept_tx : (s.accept).tx = s.tx := rfl
@[simp] theorem State.accept_txbufLen : (s.accept).txbufLen = s.txbufLen := rfl
@[simp] theorem State.accept_mem : (s.accept).mem = s.mem := rfl
@[simp] theorem State.accept_rx : (s.accept).rx = s.rx := rfl
@[simp] theorem State.accept_sel : (s.accept).sel = s.sel := rfl
@[simp] theorem State.accept_target : (s.accept).target = s.target := rfl
@[simp] theorem State.accept_busy : (s.accept).busy = s.busy := rfl
@[simp] theorem State.accept_exResult : (s.accept).exResult = s.exResult := rfl
@[simp] theorem State.accept_refused : (s.accept).refused = false := rfl
@[simp] theorem State.accept_refuseReason : (s.accept).refuseReason = s.refuseReason := rfl
@[simp] theorem State.accept_timeout : (s.accept).timeout = s.timeout := rfl
@[simp] theorem State.accept_opnd : (s.accept).opnd = s.opnd := rfl
@[simp] theorem State.accept_txLog : (s.accept).txLog = s.txLog := rfl
@[simp] theorem State.accept_rxLog : (s.accept).rxLog = s.rxLog := rfl
@[simp] theorem State.accept_input : (s.accept).input = s.input := rfl
@[simp] theorem State.accept_sendQ : (s.accept).sendQ = s.sendQ := rfl
@[simp] theorem State.accept_recvQ : (s.accept).recvQ = s.recvQ := rfl
@[simp] theorem State.accept_decodeArg : (s.accept).decodeArg = s.decodeArg := rfl
@[simp] theorem State.accept_phase : (s.accept).phase = s.phase := rfl
@[simp] theorem State.accept_lastRead : (s.accept).lastRead = s.lastRead := rfl
@[simp] theorem State.accept_freeCount : (s.accept).freeCount = s.freeCount := rfl
end

section
/-! RX_CLEAR (R26) -/
variable (s : State)
@[simp] theorem State.rxClear_cfg : (s.rxClear).cfg = s.cfg := rfl
@[simp] theorem State.rxClear_tx : (s.rxClear).tx = s.tx := rfl
@[simp] theorem State.rxClear_txbufLen : (s.rxClear).txbufLen = s.txbufLen := rfl
@[simp] theorem State.rxClear_mem : (s.rxClear).mem = s.mem := rfl
@[simp] theorem State.rxClear_rx : (s.rxClear).rx = s.rx.clear := rfl
@[simp] theorem State.rxClear_sel : (s.rxClear).sel = s.sel := rfl
@[simp] theorem State.rxClear_target : (s.rxClear).target = s.target := rfl
@[simp] theorem State.rxClear_busy : (s.rxClear).busy = s.busy := rfl
@[simp] theorem State.rxClear_exResult : (s.rxClear).exResult = s.exResult := rfl
@[simp] theorem State.rxClear_refused : (s.rxClear).refused = s.refused := rfl
@[simp] theorem State.rxClear_refuseReason : (s.rxClear).refuseReason = s.refuseReason := rfl
@[simp] theorem State.rxClear_timeout : (s.rxClear).timeout = s.timeout := rfl
@[simp] theorem State.rxClear_opnd : (s.rxClear).opnd = s.opnd := rfl
@[simp] theorem State.rxClear_txLog : (s.rxClear).txLog = s.txLog := rfl
@[simp] theorem State.rxClear_rxLog : (s.rxClear).rxLog = s.rxLog := rfl
@[simp] theorem State.rxClear_input : (s.rxClear).input = s.input := rfl
@[simp] theorem State.rxClear_sendQ : (s.rxClear).sendQ = s.sendQ := rfl
@[simp] theorem State.rxClear_recvQ : (s.rxClear).recvQ = s.recvQ := rfl
@[simp] theorem State.rxClear_decodeArg : (s.rxClear).decodeArg = s.decodeArg := rfl
@[simp] theorem State.rxClear_phase : (s.rxClear).phase = s.phase := rfl
@[simp] theorem State.rxClear_lastRead : (s.rxClear).lastRead = s.lastRead := rfl
@[simp] theorem State.rxClear_freeCount : (s.rxClear).freeCount = s.freeCount := rfl
end

section
/-! latching an event (R18) -/
variable (s : State) (e : Event)
@[simp] theorem State.emit_cfg : (s.emit e).cfg = s.cfg := rfl
@[simp] theorem State.emit_tx : (s.emit e).tx = s.tx := rfl
@[simp] theorem State.emit_txbufLen : (s.emit e).txbufLen = s.txbufLen := rfl
@[simp] theorem State.emit_mem : (s.emit e).mem = s.mem := rfl
@[simp] theorem State.emit_rx : (s.emit e).rx = s.rx.emit e := rfl
@[simp] theorem State.emit_sel : (s.emit e).sel = s.sel := rfl
@[simp] theorem State.emit_target : (s.emit e).target = s.target := rfl
@[simp] theorem State.emit_busy : (s.emit e).busy = s.busy := rfl
@[simp] theorem State.emit_exResult : (s.emit e).exResult = s.exResult := rfl
@[simp] theorem State.emit_refused : (s.emit e).refused = s.refused := rfl
@[simp] theorem State.emit_refuseReason : (s.emit e).refuseReason = s.refuseReason := rfl
@[simp] theorem State.emit_timeout : (s.emit e).timeout = s.timeout := rfl
@[simp] theorem State.emit_opnd : (s.emit e).opnd = s.opnd := rfl
@[simp] theorem State.emit_txLog : (s.emit e).txLog = s.txLog := rfl
@[simp] theorem State.emit_rxLog : (s.emit e).rxLog = s.rxLog := rfl
@[simp] theorem State.emit_input : (s.emit e).input = s.input := rfl
@[simp] theorem State.emit_sendQ : (s.emit e).sendQ = s.sendQ := rfl
@[simp] theorem State.emit_recvQ : (s.emit e).recvQ = s.recvQ := rfl
@[simp] theorem State.emit_decodeArg : (s.emit e).decodeArg = s.decodeArg := rfl
@[simp] theorem State.emit_phase : (s.emit e).phase = s.phase := rfl
@[simp] theorem State.emit_lastRead : (s.emit e).lastRead = s.lastRead := rfl
@[simp] theorem State.emit_freeCount : (s.emit e).freeCount = s.freeCount := rfl
end

section
/-! waiting for an answer (R190) -/
variable (s : State) (p : Phase)
@[simp] theorem State.waitIn_cfg : (s.waitIn p).cfg = s.cfg := rfl
@[simp] theorem State.waitIn_tx : (s.waitIn p).tx = s.tx := rfl
@[simp] theorem State.waitIn_txbufLen : (s.waitIn p).txbufLen = s.txbufLen := rfl
@[simp] theorem State.waitIn_mem : (s.waitIn p).mem = s.mem := rfl
@[simp] theorem State.waitIn_rx : (s.waitIn p).rx = s.rx := rfl
@[simp] theorem State.waitIn_sel : (s.waitIn p).sel = s.sel := rfl
@[simp] theorem State.waitIn_target : (s.waitIn p).target = s.target := rfl
@[simp] theorem State.waitIn_busy : (s.waitIn p).busy = s.busy := rfl
@[simp] theorem State.waitIn_exResult : (s.waitIn p).exResult = s.exResult := rfl
@[simp] theorem State.waitIn_refused : (s.waitIn p).refused = s.refused := rfl
@[simp] theorem State.waitIn_refuseReason : (s.waitIn p).refuseReason = s.refuseReason := rfl
@[simp] theorem State.waitIn_timeout : (s.waitIn p).timeout = s.timeout := rfl
@[simp] theorem State.waitIn_opnd : (s.waitIn p).opnd = s.opnd := rfl
@[simp] theorem State.waitIn_txLog : (s.waitIn p).txLog = s.txLog := rfl
@[simp] theorem State.waitIn_rxLog : (s.waitIn p).rxLog = s.rxLog := rfl
@[simp] theorem State.waitIn_input : (s.waitIn p).input = s.input := rfl
@[simp] theorem State.waitIn_sendQ : (s.waitIn p).sendQ = s.sendQ := rfl
@[simp] theorem State.waitIn_recvQ : (s.waitIn p).recvQ = s.recvQ := rfl
@[simp] theorem State.waitIn_decodeArg : (s.waitIn p).decodeArg = s.decodeArg := rfl
@[simp] theorem State.waitIn_phase : (s.waitIn p).phase = p := rfl
@[simp] theorem State.waitIn_lastRead : (s.waitIn p).lastRead = s.lastRead := rfl
@[simp] theorem State.waitIn_freeCount : (s.waitIn p).freeCount = s.freeCount := rfl
end

section
/-! handing a frame to the transport (R24) -/
variable (s : State) (f : List Byte)
@[simp] theorem State.handOver_cfg : (s.handOver f).cfg = s.cfg := rfl
@[simp] theorem State.handOver_tx : (s.handOver f).tx = s.tx := rfl
@[simp] theorem State.handOver_txbufLen : (s.handOver f).txbufLen = s.txbufLen := rfl
@[simp] theorem State.handOver_mem : (s.handOver f).mem = s.mem := rfl
@[simp] theorem State.handOver_rx : (s.handOver f).rx = s.rx := rfl
@[simp] theorem State.handOver_sel : (s.handOver f).sel = s.sel := rfl
@[simp] theorem State.handOver_target : (s.handOver f).target = s.target := rfl
@[simp] theorem State.handOver_busy : (s.handOver f).busy = s.busy := rfl
@[simp] theorem State.handOver_exResult : (s.handOver f).exResult = s.exResult := rfl
@[simp] theorem State.handOver_refused : (s.handOver f).refused = s.refused := rfl
@[simp] theorem State.handOver_refuseReason : (s.handOver f).refuseReason = s.refuseReason := rfl
@[simp] theorem State.handOver_timeout : (s.handOver f).timeout = s.timeout := rfl
@[simp] theorem State.handOver_opnd : (s.handOver f).opnd = s.opnd := rfl
@[simp] theorem State.handOver_txLog : (s.handOver f).txLog = s.txLog ++ [f] := rfl
@[simp] theorem State.handOver_rxLog : (s.handOver f).rxLog = s.rxLog := rfl
@[simp] theorem State.handOver_input : (s.handOver f).input = s.input := rfl
@[simp] theorem State.handOver_sendQ : (s.handOver f).sendQ = s.sendQ := rfl
@[simp] theorem State.handOver_recvQ : (s.handOver f).recvQ = s.recvQ := rfl
@[simp] theorem State.handOver_decodeArg : (s.handOver f).decodeArg = s.decodeArg := rfl
@[simp] theorem State.handOver_phase : (s.handOver f).phase = s.phase := rfl
@[simp] theorem State.handOver_lastRead : (s.handOver f).lastRead = s.lastRead := rfl
@[simp] theorem State.handOver_freeCount : (s.handOver f).freeCount = s.freeCount := rfl
end

section
/-! an answer to `recv()` (R24, R45) -/
variable (s : State) (r : RecvInput) (q : List RecvInput)
@[simp] theorem State.received_cfg : (s.received r q).cfg = s.cfg := rfl
@[simp] theorem State.received_tx : (s.received r q).tx = s.tx := rfl
@[simp] theorem State.received_txbufLen : (s.received r q).txbufLen = s.txbufLen := rfl
@[simp] theorem State.received_mem : (s.received r q).mem = s.mem := rfl
@[simp] theorem State.received_rx : (s.received r q).rx = s.rx := rfl
@[simp] theorem State.received_sel : (s.received r q).sel = s.sel := rfl
@[simp] theorem State.received_target : (s.received r q).target = s.target := rfl
@[simp] theorem State.received_busy : (s.received r q).busy = s.busy := rfl
@[simp] theorem State.received_exResult : (s.received r q).exResult = s.exResult := rfl
@[simp] theorem State.received_refused : (s.received r q).refused = s.refused := rfl
@[simp] theorem State.received_refuseReason : (s.received r q).refuseReason = s.refuseReason := rfl
@[simp] theorem State.received_timeout : (s.received r q).timeout = s.timeout := rfl
@[simp] theorem State.received_opnd : (s.received r q).opnd = s.opnd := rfl
@[simp] theorem State.received_txLog : (s.received r q).txLog = s.txLog := rfl
@[simp] theorem State.received_rxLog : (s.received r q).rxLog = s.rxLog ++ [r.result] := rfl
@[simp] theorem State.received_input : (s.received r q).input = s.input := rfl
@[simp] theorem State.received_sendQ : (s.received r q).sendQ = s.sendQ := rfl
@[simp] theorem State.received_recvQ : (s.received r q).recvQ = q := rfl
@[simp] theorem State.received_decodeArg : (s.received r q).decodeArg = s.decodeArg := rfl
@[simp] theorem State.received_phase : (s.received r q).phase = .idle := rfl
@[simp] theorem State.received_lastRead : (s.received r q).lastRead = s.lastRead := rfl
@[simp] theorem State.received_freeCount : (s.received r q).freeCount = s.freeCount := rfl
end

section
/-! loading TXBUF (R12) -/
variable (s : State) (f : List Byte)
@[simp] theorem State.loadTx_cfg : (s.loadTx f).cfg = s.cfg := rfl
@[simp] theorem State.loadTx_tx : (s.loadTx f).tx = s.tx := rfl
@[simp] theorem State.loadTx_txbufLen : (s.loadTx f).txbufLen = BitVec.ofNat 9 f.length := rfl
@[simp] theorem State.loadTx_mem : (s.loadTx f).mem = Memory.writeAll s.mem Buffer.txbuf.base f := rfl
@[simp] theorem State.loadTx_rx : (s.loadTx f).rx = s.rx := rfl
@[simp] theorem State.loadTx_sel : (s.loadTx f).sel = s.sel := rfl
@[simp] theorem State.loadTx_target : (s.loadTx f).target = s.target := rfl
@[simp] theorem State.loadTx_busy : (s.loadTx f).busy = s.busy := rfl
@[simp] theorem State.loadTx_exResult : (s.loadTx f).exResult = s.exResult := rfl
@[simp] theorem State.loadTx_refused : (s.loadTx f).refused = s.refused := rfl
@[simp] theorem State.loadTx_refuseReason : (s.loadTx f).refuseReason = s.refuseReason := rfl
@[simp] theorem State.loadTx_timeout : (s.loadTx f).timeout = s.timeout := rfl
@[simp] theorem State.loadTx_opnd : (s.loadTx f).opnd = s.opnd := rfl
@[simp] theorem State.loadTx_txLog : (s.loadTx f).txLog = s.txLog := rfl
@[simp] theorem State.loadTx_rxLog : (s.loadTx f).rxLog = s.rxLog := rfl
@[simp] theorem State.loadTx_input : (s.loadTx f).input = s.input := rfl
@[simp] theorem State.loadTx_sendQ : (s.loadTx f).sendQ = s.sendQ := rfl
@[simp] theorem State.loadTx_recvQ : (s.loadTx f).recvQ = s.recvQ := rfl
@[simp] theorem State.loadTx_decodeArg : (s.loadTx f).decodeArg = s.decodeArg := rfl
@[simp] theorem State.loadTx_phase : (s.loadTx f).phase = s.phase := rfl
@[simp] theorem State.loadTx_lastRead : (s.loadTx f).lastRead = s.lastRead := rfl
@[simp] theorem State.loadTx_freeCount : (s.loadTx f).freeCount = s.freeCount := rfl
end

section
/-! the receiver takes a byte (R111) -/
variable (s : State) (b : Byte)
@[simp] theorem State.takeByte_cfg : (s.takeByte b).cfg = s.cfg := rfl
@[simp] theorem State.takeByte_tx : (s.takeByte b).tx = s.tx := rfl
@[simp] theorem State.takeByte_txbufLen : (s.takeByte b).txbufLen = s.txbufLen := rfl
@[simp] theorem State.takeByte_mem : (s.takeByte b).mem = s.rx.store s.mem b := rfl
@[simp] theorem State.takeByte_rx : (s.takeByte b).rx = (s.rx.next s.cfg b).1 := rfl
@[simp] theorem State.takeByte_sel : (s.takeByte b).sel = s.sel := rfl
@[simp] theorem State.takeByte_target : (s.takeByte b).target = s.target := rfl
@[simp] theorem State.takeByte_busy : (s.takeByte b).busy = s.busy := rfl
@[simp] theorem State.takeByte_exResult : (s.takeByte b).exResult = s.exResult := rfl
@[simp] theorem State.takeByte_refused : (s.takeByte b).refused = s.refused := rfl
@[simp] theorem State.takeByte_refuseReason : (s.takeByte b).refuseReason = s.refuseReason := rfl
@[simp] theorem State.takeByte_timeout : (s.takeByte b).timeout = s.timeout := rfl
@[simp] theorem State.takeByte_opnd : (s.takeByte b).opnd = s.opnd := rfl
@[simp] theorem State.takeByte_txLog : (s.takeByte b).txLog = s.txLog := rfl
@[simp] theorem State.takeByte_rxLog : (s.takeByte b).rxLog = s.rxLog := rfl
@[simp] theorem State.takeByte_input : (s.takeByte b).input = s.input := rfl
@[simp] theorem State.takeByte_sendQ : (s.takeByte b).sendQ = s.sendQ := rfl
@[simp] theorem State.takeByte_recvQ : (s.takeByte b).recvQ = s.recvQ := rfl
@[simp] theorem State.takeByte_decodeArg : (s.takeByte b).decodeArg = s.decodeArg := rfl
@[simp] theorem State.takeByte_phase : (s.takeByte b).phase = s.phase := rfl
@[simp] theorem State.takeByte_lastRead : (s.takeByte b).lastRead = s.lastRead := rfl
@[simp] theorem State.takeByte_freeCount : (s.takeByte b).freeCount = s.freeCount := rfl
end

section
/-! a failed `send` (R96) -/
variable (s : State)
@[simp] theorem State.sendFailed_cfg : (s.sendFailed).cfg = s.cfg := rfl
@[simp] theorem State.sendFailed_tx : (s.sendFailed).tx = s.tx := rfl
@[simp] theorem State.sendFailed_txbufLen : (s.sendFailed).txbufLen = s.txbufLen := rfl
@[simp] theorem State.sendFailed_mem : (s.sendFailed).mem = s.mem := rfl
@[simp] theorem State.sendFailed_rx : (s.sendFailed).rx = s.rx := rfl
@[simp] theorem State.sendFailed_sel : (s.sendFailed).sel = s.sel := rfl
@[simp] theorem State.sendFailed_target : (s.sendFailed).target = s.target := rfl
@[simp] theorem State.sendFailed_busy : (s.sendFailed).busy = s.busy := rfl
@[simp] theorem State.sendFailed_exResult : (s.sendFailed).exResult = some .transportError := rfl
@[simp] theorem State.sendFailed_refused : (s.sendFailed).refused = s.refused := rfl
@[simp] theorem State.sendFailed_refuseReason : (s.sendFailed).refuseReason = s.refuseReason := rfl
@[simp] theorem State.sendFailed_timeout : (s.sendFailed).timeout = s.timeout := rfl
@[simp] theorem State.sendFailed_opnd : (s.sendFailed).opnd = s.opnd := rfl
@[simp] theorem State.sendFailed_txLog : (s.sendFailed).txLog = s.txLog := rfl
@[simp] theorem State.sendFailed_rxLog : (s.sendFailed).rxLog = s.rxLog := rfl
@[simp] theorem State.sendFailed_input : (s.sendFailed).input = s.input := rfl
@[simp] theorem State.sendFailed_sendQ : (s.sendFailed).sendQ = s.sendQ := rfl
@[simp] theorem State.sendFailed_recvQ : (s.sendFailed).recvQ = s.recvQ := rfl
@[simp] theorem State.sendFailed_decodeArg : (s.sendFailed).decodeArg = s.decodeArg := rfl
@[simp] theorem State.sendFailed_phase : (s.sendFailed).phase = s.phase := rfl
@[simp] theorem State.sendFailed_lastRead : (s.sendFailed).lastRead = s.lastRead := rfl
@[simp] theorem State.sendFailed_freeCount : (s.sendFailed).freeCount = s.freeCount := rfl
end

section
/-! a `send` that went out (R96) -/
variable (s : State)
@[simp] theorem State.sendDone_cfg : (s.sendDone).cfg = s.cfg := rfl
@[simp] theorem State.sendDone_tx : (s.sendDone).tx = s.tx := rfl
@[simp] theorem State.sendDone_txbufLen : (s.sendDone).txbufLen = s.txbufLen := rfl
@[simp] theorem State.sendDone_mem : (s.sendDone).mem = s.mem := rfl
@[simp] theorem State.sendDone_rx : (s.sendDone).rx = s.rx := rfl
@[simp] theorem State.sendDone_sel : (s.sendDone).sel = s.sel := rfl
@[simp] theorem State.sendDone_target : (s.sendDone).target = s.target := rfl
@[simp] theorem State.sendDone_busy : (s.sendDone).busy = true := rfl
@[simp] theorem State.sendDone_exResult : (s.sendDone).exResult = none := rfl
@[simp] theorem State.sendDone_refused : (s.sendDone).refused = s.refused := rfl
@[simp] theorem State.sendDone_refuseReason : (s.sendDone).refuseReason = s.refuseReason := rfl
@[simp] theorem State.sendDone_timeout : (s.sendDone).timeout = s.timeout := rfl
@[simp] theorem State.sendDone_opnd : (s.sendDone).opnd = s.opnd := rfl
@[simp] theorem State.sendDone_txLog : (s.sendDone).txLog = s.txLog := rfl
@[simp] theorem State.sendDone_rxLog : (s.sendDone).rxLog = s.rxLog := rfl
@[simp] theorem State.sendDone_input : (s.sendDone).input = s.input := rfl
@[simp] theorem State.sendDone_sendQ : (s.sendDone).sendQ = s.sendQ := rfl
@[simp] theorem State.sendDone_recvQ : (s.sendDone).recvQ = s.recvQ := rfl
@[simp] theorem State.sendDone_decodeArg : (s.sendDone).decodeArg = s.decodeArg := rfl
@[simp] theorem State.sendDone_phase : (s.sendDone).phase = s.phase := rfl
@[simp] theorem State.sendDone_lastRead : (s.sendDone).lastRead = s.lastRead := rfl
@[simp] theorem State.sendDone_freeCount : (s.sendDone).freeCount = s.freeCount := rfl
end

section
/-! the end of an exchange (R170) -/
variable (s : State) (x : ExResult)
@[simp] theorem State.finish_cfg : (s.finish x).cfg = s.cfg := rfl
@[simp] theorem State.finish_tx : (s.finish x).tx = s.tx := rfl
@[simp] theorem State.finish_txbufLen : (s.finish x).txbufLen = s.txbufLen := rfl
@[simp] theorem State.finish_mem : (s.finish x).mem = s.mem := rfl
@[simp] theorem State.finish_rx : (s.finish x).rx = s.rx := rfl
@[simp] theorem State.finish_sel : (s.finish x).sel = s.sel := rfl
@[simp] theorem State.finish_target : (s.finish x).target = s.target := rfl
@[simp] theorem State.finish_busy : (s.finish x).busy = false := rfl
@[simp] theorem State.finish_exResult : (s.finish x).exResult = some x := rfl
@[simp] theorem State.finish_refused : (s.finish x).refused = s.refused := rfl
@[simp] theorem State.finish_refuseReason : (s.finish x).refuseReason = s.refuseReason := rfl
@[simp] theorem State.finish_timeout : (s.finish x).timeout = s.timeout := rfl
@[simp] theorem State.finish_opnd : (s.finish x).opnd = s.opnd := rfl
@[simp] theorem State.finish_txLog : (s.finish x).txLog = s.txLog := rfl
@[simp] theorem State.finish_rxLog : (s.finish x).rxLog = s.rxLog := rfl
@[simp] theorem State.finish_input : (s.finish x).input = s.input := rfl
@[simp] theorem State.finish_sendQ : (s.finish x).sendQ = s.sendQ := rfl
@[simp] theorem State.finish_recvQ : (s.finish x).recvQ = s.recvQ := rfl
@[simp] theorem State.finish_decodeArg : (s.finish x).decodeArg = s.decodeArg := rfl
@[simp] theorem State.finish_phase : (s.finish x).phase = s.phase := rfl
@[simp] theorem State.finish_lastRead : (s.finish x).lastRead = s.lastRead := rfl
@[simp] theorem State.finish_freeCount : (s.finish x).freeCount = s.freeCount := rfl
end

section
/-! SEL_OUTCOME (R150) -/
variable (s : State) (o : SelOutcome)
@[simp] theorem State.outcome_cfg : (s.outcome o).cfg = s.cfg := rfl
@[simp] theorem State.outcome_tx : (s.outcome o).tx = s.tx := rfl
@[simp] theorem State.outcome_txbufLen : (s.outcome o).txbufLen = s.txbufLen := rfl
@[simp] theorem State.outcome_mem : (s.outcome o).mem = s.mem := rfl
@[simp] theorem State.outcome_rx : (s.outcome o).rx = s.rx := rfl
@[simp] theorem State.outcome_sel : (s.outcome o).sel = { s.sel with outcome := some o } := rfl
@[simp] theorem State.outcome_target : (s.outcome o).target = s.target := rfl
@[simp] theorem State.outcome_busy : (s.outcome o).busy = s.busy := rfl
@[simp] theorem State.outcome_exResult : (s.outcome o).exResult = s.exResult := rfl
@[simp] theorem State.outcome_refused : (s.outcome o).refused = s.refused := rfl
@[simp] theorem State.outcome_refuseReason : (s.outcome o).refuseReason = s.refuseReason := rfl
@[simp] theorem State.outcome_timeout : (s.outcome o).timeout = s.timeout := rfl
@[simp] theorem State.outcome_opnd : (s.outcome o).opnd = s.opnd := rfl
@[simp] theorem State.outcome_txLog : (s.outcome o).txLog = s.txLog := rfl
@[simp] theorem State.outcome_rxLog : (s.outcome o).rxLog = s.rxLog := rfl
@[simp] theorem State.outcome_input : (s.outcome o).input = s.input := rfl
@[simp] theorem State.outcome_sendQ : (s.outcome o).sendQ = s.sendQ := rfl
@[simp] theorem State.outcome_recvQ : (s.outcome o).recvQ = s.recvQ := rfl
@[simp] theorem State.outcome_decodeArg : (s.outcome o).decodeArg = s.decodeArg := rfl
@[simp] theorem State.outcome_phase : (s.outcome o).phase = s.phase := rfl
@[simp] theorem State.outcome_lastRead : (s.outcome o).lastRead = s.lastRead := rfl
@[simp] theorem State.outcome_freeCount : (s.outcome o).freeCount = s.freeCount := rfl
end

section
/-! the echoed address (R150) -/
variable (s : State) (e : Addr)
@[simp] theorem State.echo_cfg : (s.echo e).cfg = s.cfg := rfl
@[simp] theorem State.echo_tx : (s.echo e).tx = s.tx := rfl
@[simp] theorem State.echo_txbufLen : (s.echo e).txbufLen = s.txbufLen := rfl
@[simp] theorem State.echo_mem : (s.echo e).mem = s.mem := rfl
@[simp] theorem State.echo_rx : (s.echo e).rx = s.rx := rfl
@[simp] theorem State.echo_sel : (s.echo e).sel = { s.sel with addr := e, addrValid := true } := rfl
@[simp] theorem State.echo_target : (s.echo e).target = s.target := rfl
@[simp] theorem State.echo_busy : (s.echo e).busy = s.busy := rfl
@[simp] theorem State.echo_exResult : (s.echo e).exResult = s.exResult := rfl
@[simp] theorem State.echo_refused : (s.echo e).refused = s.refused := rfl
@[simp] theorem State.echo_refuseReason : (s.echo e).refuseReason = s.refuseReason := rfl
@[simp] theorem State.echo_timeout : (s.echo e).timeout = s.timeout := rfl
@[simp] theorem State.echo_opnd : (s.echo e).opnd = s.opnd := rfl
@[simp] theorem State.echo_txLog : (s.echo e).txLog = s.txLog := rfl
@[simp] theorem State.echo_rxLog : (s.echo e).rxLog = s.rxLog := rfl
@[simp] theorem State.echo_input : (s.echo e).input = s.input := rfl
@[simp] theorem State.echo_sendQ : (s.echo e).sendQ = s.sendQ := rfl
@[simp] theorem State.echo_recvQ : (s.echo e).recvQ = s.recvQ := rfl
@[simp] theorem State.echo_decodeArg : (s.echo e).decodeArg = s.decodeArg := rfl
@[simp] theorem State.echo_phase : (s.echo e).phase = s.phase := rfl
@[simp] theorem State.echo_lastRead : (s.echo e).lastRead = s.lastRead := rfl
@[simp] theorem State.echo_freeCount : (s.echo e).freeCount = s.freeCount := rfl
end

/-- The memory right after reset is in its canonical form. -/
theorem State.reset_mem_wf : Memory.wf State.reset.mem := List.Pairwise.nil

end Sys2Proof.Machine
end

