-- ==== Sys2Proof/Laws/Ops.lean ====
section
/-! SUPPORT. What each shared operation can do, said once. -/

namespace Sys2Proof.Machine

@[simp] theorem Rx.clear_state (r : Rx) : r.clear.state = .idle := rfl
@[simp] theorem Rx.clear_kind (r : Rx) : r.clear.kind = none := rfl
@[simp] theorem Rx.clear_err (r : Rx) : r.clear.err = none := rfl
@[simp] theorem Rx.clear_len (r : Rx) : r.clear.len = 0 := rfl
@[simp] theorem Rx.clear_evValid (r : Rx) : r.clear.evValid = false := rfl
@[simp] theorem Rx.clear_l (r : Rx) : r.clear.l = 0 := rfl
@[simp] theorem Rx.clear_cnt (r : Rx) : r.clear.cnt = 0 := rfl
@[simp] theorem Rx.clear_sum (r : Rx) : r.clear.sum = 0 := rfl
@[simp] theorem Rx.clear_csok (r : Rx) : r.clear.csok = false := rfl
@[simp] theorem Rx.clear_c (r : Rx) : r.clear.c = r.c := rfl
@[simp] theorem Rx.clear_a (r : Rx) : r.clear.a = r.a := rfl
@[simp] theorem Rx.clear_ci (r : Rx) : r.clear.ci = r.ci := rfl

@[simp] theorem Rx.emit_state (r : Rx) (e : Event) : (r.emit e).state = .idle := by
  cases e with
  | ok k => cases k <;> rfl
  | err x => rfl

@[simp] theorem Rx.emit_evValid (r : Rx) (e : Event) : (r.emit e).evValid = true := by
  cases e with
  | ok k => cases k <;> rfl
  | err x => rfl

@[simp] theorem Rx.emit_ok_kind (r : Rx) (k : FrameKind) : (r.emit (.ok k)).kind = some k := by cases k <;> rfl
@[simp] theorem Rx.emit_ok_err (r : Rx) (k : FrameKind) : (r.emit (.ok k)).err = none := by cases k <;> rfl
@[simp] theorem Rx.emit_err_kind (r : Rx) (x : DecodeError) : (r.emit (.err x)).kind = none := rfl
@[simp] theorem Rx.emit_err_err (r : Rx) (x : DecodeError) : (r.emit (.err x)).err = some x := rfl
@[simp] theorem Rx.emit_err_len (r : Rx) (x : DecodeError) : (r.emit (.err x)).len = 0 := rfl
@[simp] theorem Rx.emit_long_len (r : Rx) : (r.emit (.ok .long)).len = r.l - 3 := rfl

theorem Rx.emit_ok_len (r : Rx) {k : FrameKind} (h : k ≠ .long) : (r.emit (.ok k)).len = 0 := by
  cases k <;> first | rfl | exact absurd rfl h

/-! An event leaves the fields of the frame and the working registers alone. -/

@[simp] theorem Rx.emit_c (r : Rx) (e : Event) : (r.emit e).c = r.c := by
  unfold Rx.emit; split <;> rfl

@[simp] theorem Rx.emit_a (r : Rx) (e : Event) : (r.emit e).a = r.a := by
  unfold Rx.emit; split <;> rfl

@[simp] theorem Rx.emit_ci (r : Rx) (e : Event) : (r.emit e).ci = r.ci := by
  unfold Rx.emit; split <;> rfl

@[simp] theorem Rx.emit_l (r : Rx) (e : Event) : (r.emit e).l = r.l := by
  unfold Rx.emit; split <;> rfl

@[simp] theorem Rx.emit_cnt (r : Rx) (e : Event) : (r.emit e).cnt = r.cnt := by
  unfold Rx.emit; split <;> rfl

@[simp] theorem Rx.emit_sum (r : Rx) (e : Event) : (r.emit e).sum = r.sum := by
  unfold Rx.emit; split <;> rfl

@[simp] theorem Rx.emit_csok (r : Rx) (e : Event) : (r.emit e).csok = r.csok := by
  unfold Rx.emit; split <;> rfl

@[simp] theorem State.takeSend_nil {s : State} (h : s.sendQ = []) : s.takeSend = none := by simp [State.takeSend, h]

@[simp] theorem State.takeSend_cons {s : State} {r : SendResult} {q : List SendResult} (h : s.sendQ = r :: q) :
    s.takeSend = some (r, { s with sendQ := q, phase := .idle }) := by simp [State.takeSend, h]

/-- The answer to `send` is the first the environment has given, and only it is used up. -/
theorem State.takeSend_eq_some {s t : State} {r : SendResult} (h : s.takeSend = some (r, t)) :
    ∃ q, s.sendQ = r :: q ∧ t = { s with sendQ := q, phase := .idle } := by
  unfold State.takeSend at h
  split at h
  · cases h
  · next r' q hq => cases h; exact ⟨q, hq, rfl⟩

@[simp] theorem State.takeRecv_nil {s : State} (h : s.recvQ = []) : s.takeRecv = none := by simp [State.takeRecv, h]

@[simp] theorem State.takeRecv_cons {s : State} {r : RecvInput} {q : List RecvInput} (h : s.recvQ = r :: q) :
    s.takeRecv = some (r, s.received r q) := by simp [State.takeRecv, h]

/-- The answer to `recv()` is the first the environment has given, and only it is used up. -/
theorem State.takeRecv_eq_some {s t : State} {r : RecvInput} (h : s.takeRecv = some (r, t)) :
    ∃ q, s.recvQ = r :: q ∧ t = s.received r q := by
  unfold State.takeRecv at h
  split at h
  · cases h
  · next r' q hq => cases h; exact ⟨q, hq, rfl⟩

/-- A frame loaded into TXBUF reads back from it. -/
theorem State.readBuffer_loadTx (s : State) (f : List Byte) {n : Nat} (h : n ≤ f.length) :
    (s.loadTx f).readBuffer .txbuf n = some (f.take n) :=
  Memory.readAll_writeAll_take s.mem _ f h

/-- Loading TXBUF leaves every cell outside the frame alone. -/
theorem State.read_loadTx (s : State) (f : List Byte) {i : Nat} (h : i < 0x300 ∨ 0x300 + f.length ≤ i) :
    Memory.read (s.loadTx f).mem i = Memory.read s.mem i :=
  Memory.read_writeAll_outside s.mem f h

/-- Reading a buffer depends on the memory only. -/
theorem State.readBuffer_of_mem {s t : State} (h : s.mem = t.mem) (b : Buffer) (n : Nat) :
    s.readBuffer b n = t.readBuffer b n := by rw [State.readBuffer, State.readBuffer, h]

/-- A buffer reads as something exactly when its cells have been written. -/
theorem State.readBuffer_isSome {s : State} {b : Buffer} {n : Nat} :
    (s.readBuffer b n).isSome ↔ ∀ i, i < n → (Memory.read s.mem (b.base + i)).isSome :=
  Memory.readAll_isSome

end Sys2Proof.Machine
end

