-- ==== Sys2Proof/Laws/Receiver.lean ====
section
/-! SUPPORT. What the receiver can do, said once: a byte, a run of bytes, DECODE. -/

namespace Sys2Proof.Machine

/-- Where a byte produces an event, the registers are the latched ones and nothing else. -/
theorem Rx.next_event {cfg : Config.Params} {r : Rx} {b : Byte} {e : Event} (h : (r.next cfg b).2 = some e) :
    (r.next cfg b).1 = r.emit e := by
  unfold Rx.next at h ⊢
  cases hs : r.state <;> simp only [hs] at h ⊢ <;> grind

/-- Where a byte produces no event, the last event stays latched. -/
theorem Rx.next_quiet {cfg : Config.Params} {r : Rx} {b : Byte} (h : (r.next cfg b).2 = none) :
    (r.next cfg b).1.kind = r.kind ∧ (r.next cfg b).1.err = r.err ∧ (r.next cfg b).1.evValid = r.evValid ∧
      (r.next cfg b).1.len = r.len ∧ (r.next cfg b).1.state ≠ .idle := by
  unfold Rx.next at h ⊢
  cases hs : r.state <;> simp only [hs] at h ⊢ <;> grind

/-- The receiver touches RX_PAY only. -/
theorem Rx.read_store (r : Rx) (m : List Host.Cell) (b : Byte) {i : Nat} (h : ¬ Buffer.rxPay.Holds i) :
    Memory.read (r.store m b) i = Memory.read m i := by
  unfold Rx.store
  split <;> try rfl
  rw [read_storeRxPay, if_neg]
  rintro ⟨h1, h2⟩
  exact h ⟨by simp [Buffer.base, h2], by simp [Buffer.base, Buffer.size, h2]; omega⟩

theorem Rx.wf_store (r : Rx) {m : List Host.Cell} (b : Byte) (h : Memory.wf m) : Memory.wf (r.store m b) := by
  unfold Rx.store
  split <;> first | exact h | exact wf_storeRxPay _ _ h

/-- A cell that holds a value goes on holding one. -/
theorem Rx.isSome_store (r : Rx) (m : List Host.Cell) (b : Byte) {i : Nat} (h : (Memory.read m i).isSome) :
    (Memory.read (r.store m b) i).isSome := by
  unfold Rx.store
  split <;> try exact h
  rw [read_storeRxPay]; split
  · rfl
  · exact h

@[simp] theorem State.rxByte_eq (s : State) (b : Byte) : s.rxByte b = s.accept.takeByte b := rfl

@[simp] theorem State.feed_nil (s : State) : s.feed [] = s := rfl

@[simp] theorem State.feed_cons (s : State) (b : Byte) (bs : List Byte) : s.feed (b :: bs) = (s.rxByte b).feed bs := rfl

theorem State.feed_append (s : State) (u v : List Byte) : s.feed (u ++ v) = (s.feed u).feed v := by
  induction u generalizing s with
  | nil => rfl
  | cons b u ih => exact ih _

/-- Feeding bytes changes the receiver, RX_PAY and REFUSED only. -/
theorem State.feed_eq (s : State) (bs : List Byte) (h : bs ≠ []) :
    s.feed bs = { s with rx := (s.feed bs).rx, mem := (s.feed bs).mem, refused := false } := by
  induction bs generalizing s with
  | nil => exact absurd rfl h
  | cons b bs ih =>
    by_cases hb : bs = []
    · subst hb; rfl
    · rw [State.feed_cons]; exact ih _ hb

/-- Feeding bytes touches RX_PAY only. -/
theorem State.read_feed (s : State) (bs : List Byte) {i : Nat} (h : ¬ Buffer.rxPay.Holds i) :
    Memory.read (s.feed bs).mem i = Memory.read s.mem i := by
  induction bs generalizing s with
  | nil => rfl
  | cons b bs ih =>
    rw [State.feed_cons, ih]
    exact Rx.read_store _ _ _ h

/-- DECODE's loop changes the receiver and RX_PAY only. -/
theorem State.decodeLoop_eq (s : State) (bs : List Byte) :
    s.decodeLoop bs = { s with rx := (s.decodeLoop bs).rx, mem := (s.decodeLoop bs).mem } := by
  induction bs generalizing s with
  | nil => rfl
  | cons b bs ih =>
    rw [State.decodeLoop]
    split
    · exact ih _
    · rfl
    · split <;> rfl

/-- DECODE's loop touches RX_PAY only. -/
theorem State.read_decodeLoop (s : State) (bs : List Byte) {i : Nat} (h : ¬ Buffer.rxPay.Holds i) :
    Memory.read (s.decodeLoop bs).mem i = Memory.read s.mem i := by
  induction bs generalizing s with
  | nil => rfl
  | cons b bs ih =>
    rw [State.decodeLoop]
    have hb : Memory.read (s.takeByte b).mem i = Memory.read s.mem i := Rx.read_store _ _ _ h
    split
    · rw [ih, hb]
    · exact hb
    · split <;> exact hb

theorem State.wf_decodeLoop {s : State} (bs : List Byte) (h : Memory.wf s.mem) :
    Memory.wf (s.decodeLoop bs).mem := by
  induction bs generalizing s with
  | nil => exact h
  | cons b bs ih =>
    rw [State.decodeLoop]
    have hb : Memory.wf (s.takeByte b).mem := Rx.wf_store _ _ h
    split
    · exact ih hb
    · exact hb
    · split <;> exact hb

/-- DECODE always ends in IDLE with an event latched (R119). -/
theorem State.decodeLoop_ends (s : State) (bs : List Byte) :
    (s.decodeLoop bs).rx.state = .idle ∧ (s.decodeLoop bs).rx.evValid = true := by
  induction bs generalizing s with
  | nil => simp [State.decodeLoop]
  | cons b bs ih =>
    rw [State.decodeLoop]
    have hv {e : Event} (he : s.eventAt b = some e) : (s.takeByte b).rx = s.rx.emit e := Rx.next_event he
    split
    · exact ih _
    · next he => simp only [hv he, Rx.emit_state, Rx.emit_evValid, and_self]
    · next he =>
      split
      · simp only [hv he, Rx.emit_state, Rx.emit_evValid, and_self]
      · simp

/-- DECODE changes the receiver, RX_PAY and REFUSED only. -/
theorem State.decodeBuf_eq (s : State) (bs : List Byte) :
    s.decodeBuf bs = { s with rx := (s.decodeBuf bs).rx, mem := (s.decodeBuf bs).mem, refused := false } := by
  rw [State.decodeBuf, State.decodeLoop_eq]; rfl

theorem State.read_decodeBuf (s : State) (bs : List Byte) {i : Nat} (h : ¬ Buffer.rxPay.Holds i) :
    Memory.read (s.decodeBuf bs).mem i = Memory.read s.mem i :=
  State.read_decodeLoop _ _ h

theorem State.wf_decodeBuf {s : State} (bs : List Byte) (h : Memory.wf s.mem) : Memory.wf (s.decodeBuf bs).mem :=
  State.wf_decodeLoop bs h

end Sys2Proof.Machine
end

