-- ==== Sys2Proof/Laws/Decode.lean ====
section
/-! SUPPORT. Runs of bytes that produce no event, and what the receiver holds after the payload of a long frame. -/

namespace Sys2Proof.Machine

/-- The state after some bytes have been taken. -/
def State.takes (s : State) : List Byte → State
  | [] => s
  | b :: bs => (s.takeByte b).takes bs

/-- None of the bytes produces an event. -/
def State.Quiet (s : State) : List Byte → Prop
  | [] => True
  | b :: bs => s.eventAt b = none ∧ (s.takeByte b).Quiet bs

@[simp] theorem State.takes_nil (s : State) : s.takes [] = s := rfl
@[simp] theorem State.takes_cons (s : State) (b : Byte) (bs : List Byte) :
    s.takes (b :: bs) = (s.takeByte b).takes bs := rfl
@[simp] theorem State.quiet_nil (s : State) : s.Quiet [] := trivial
@[simp] theorem State.quiet_cons (s : State) (b : Byte) (bs : List Byte) :
    s.Quiet (b :: bs) ↔ s.eventAt b = none ∧ (s.takeByte b).Quiet bs := Iff.rfl

theorem State.takes_append (s : State) (u v : List Byte) : s.takes (u ++ v) = (s.takes u).takes v := by
  induction u generalizing s with
  | nil => rfl
  | cons b u ih => exact ih _

theorem State.quiet_append (s : State) (u v : List Byte) : s.Quiet (u ++ v) ↔ s.Quiet u ∧ (s.takes u).Quiet v := by
  induction u generalizing s with
  | nil => simp
  | cons b u ih => simp [ih, and_assoc]

/-- DECODE's loop runs through bytes that produce no event. -/
theorem State.decodeLoop_append {s : State} {u : List Byte} (v : List Byte) (h : s.Quiet u) :
    s.decodeLoop (u ++ v) = (s.takes u).decodeLoop v := by
  induction u generalizing s with
  | nil => rfl
  | cons b u ih =>
    obtain ⟨h1, h2⟩ := h
    rw [List.cons_append, State.decodeLoop, h1]
    exact ih h2

/-- DECODE's loop at a byte that produces an error. -/
theorem State.decodeLoop_error {s : State} {b : Byte} {x : DecodeError} (v : List Byte)
    (h : s.eventAt b = some (.err x)) : s.decodeLoop (b :: v) = s.takeByte b := by
  rw [State.decodeLoop, h]

/-- DECODE's loop at a byte that completes a frame. -/
theorem State.decodeLoop_frame {s : State} {b : Byte} {k : FrameKind} (v : List Byte)
    (h : s.eventAt b = some (.ok k)) :
    s.decodeLoop (b :: v) = if v = [] then s.takeByte b else (s.takeByte b).emit (.err .unexpectedLength) := by
  rw [State.decodeLoop, h]

/-- Given bytes one by one as RX_BYTE takes them is taking them, with REFUSED cleared. -/
theorem State.feed_eq_takes (s : State) (bs : List Byte) (h : bs ≠ []) : s.feed bs = (s.takes bs).accept := by
  have key : ∀ (bs : List Byte) (s : State), s.accept.takes bs = (s.takes bs).accept := by
    intro bs
    induction bs with
    | nil => intro s; rfl
    | cons b bs ih => intro s; exact ih (s.takeByte b)
  induction bs generalizing s with
  | nil => exact absurd rfl h
  | cons b bs ih =>
    by_cases hb : bs = []
    · subst hb; rfl
    · rw [State.feed_cons, ih _ hb, State.rxByte_eq, State.takes_cons]
      show ((s.takeByte b).accept.takes bs).accept = _
      rw [key]; rfl

/-- The payload of a long frame (R115): no event, the bytes are stored from RX_PAY[RX_CNT] on, summed and counted, and
LG_CS follows the last of them. -/
theorem State.takes_payload (p : List Byte) (s : State) (hs : s.rx.state = .lgData)
    (h0 : s.rx.cnt.toNat + 3 < s.rx.l.toNat) (hn : s.rx.cnt.toNat + p.length + 3 ≤ s.rx.l.toNat) :
    s.Quiet p ∧ s.takes p = { s with
      rx := { s.rx with
        sum := s.rx.sum + sum8 p, cnt := s.rx.cnt + BitVec.ofNat 8 p.length,
        state := if s.rx.cnt.toNat + p.length + 3 = s.rx.l.toNat then .lgCs else .lgData }
      mem := Memory.writeAll s.mem (0x200 + s.rx.cnt.toNat) p } := by
  induction p generalizing s with
  | nil =>
    refine ⟨trivial, ?_⟩
    have : ¬ s.rx.cnt.toNat + 3 = s.rx.l.toNat := by omega
    simp [Memory.writeAll, this, ← hs]
  | cons b p ih =>
    have hl : s.rx.l.toNat < 256 := s.rx.l.isLt
    have hcnt : (s.rx.cnt + 1).toNat = s.rx.cnt.toNat + 1 := by
      rw [BitVec.toNat_add]; simp; omega
    have hsub : (s.rx.l - 3).toNat = s.rx.l.toNat - 3 := by
      rw [BitVec.toNat_sub]; simp; omega
    have hiff : s.rx.cnt + 1#8 = s.rx.l - 3#8 ↔ s.rx.cnt.toNat + 1 + 3 = s.rx.l.toNat := by
      rw [← BitVec.toNat_inj, show (s.rx.cnt + 1#8).toNat = _ from hcnt, show (s.rx.l - 3#8).toNat = _ from hsub]
      omega
    have hmem : s.rx.store s.mem b = Memory.write s.mem (0x200 + s.rx.cnt.toNat) b := by
      simp [Rx.store, hs, storeRxPay, Buffer.size, Buffer.base, show s.rx.cnt.toNat < 252 by omega]
    have hev : s.eventAt b = none := by simp [State.eventAt, Rx.next, hs]
    simp only [List.length_cons] at hn ⊢
    cases p with
    | nil =>
      refine ⟨⟨hev, trivial⟩, ?_⟩
      simp [State.takeByte, Rx.next, hs, hmem, Memory.writeAll, hiff]
    | cons b' p' =>
      have hst : (s.takeByte b).rx.state = .lgData := by
        have : ¬ s.rx.cnt.toNat + 1 + 3 = s.rx.l.toNat := by simp only [List.length_cons] at hn; omega
        simp [State.takeByte, Rx.next, hs, hiff, this]
      have hc : (s.takeByte b).rx.cnt = s.rx.cnt + 1 := by simp [State.takeByte, Rx.next, hs]
      have hL : (s.takeByte b).rx.l = s.rx.l := by simp [State.takeByte, Rx.next, hs]
      obtain ⟨q, e⟩ := ih (s.takeByte b) hst
        (by rw [hc, hL, hcnt]; simp only [List.length_cons] at hn; omega) (by rw [hc, hL, hcnt]; omega)
      refine ⟨⟨hev, q⟩, ?_⟩
      rw [State.takes_cons, e, hc, hL, hcnt]
      simp only [State.takeByte, Rx.next, hs, hmem]
      have h1 : s.rx.cnt + 1 + BitVec.ofNat 8 (b' :: p').length =
          s.rx.cnt + BitVec.ofNat 8 ((b' :: p').length + 1) := by
        rw [BitVec.add_assoc, Nat.add_comm, BitVec.ofNat_add]; rfl
      have h2 : s.rx.sum + b + sum8 (b' :: p') = s.rx.sum + sum8 (b :: b' :: p') := by
        rw [BitVec.add_assoc]; rfl
      have h3 : s.rx.cnt.toNat + 1 + (b' :: p').length + 3 = s.rx.cnt.toNat + ((b' :: p').length + 1) + 3 := by omega
      simp only [h1, h2, h3]
      rfl

end Sys2Proof.Machine
end

