-- ==== Sys2Proof/Laws/Exchange.lean ====
section
/-! SUPPORT. What the operations with several parts come to: the frame they hand over is the one they have built, and a
selection window takes its answers one after the other. -/

namespace Sys2Proof.Machine

/-- A request that has been built reads back from TXBUF. -/
theorem State.readBuffer_buildRequest (s : State) (t : Byte) :
    (s.buildRequest t).readBuffer .txbuf 5 = some (requestFrame s.cfg t) :=
  State.readBuffer_loadTx s (requestFrame s.cfg t) (n := 5) (Nat.le_refl _)

/-- A select frame that has been built reads back from TXBUF. -/
theorem State.readBuffer_buildSelect (s : State) :
    s.buildSelect.readBuffer .txbuf 17 = some (selectFrame s.cfg s.sel.mask) := by
  have hl : (selectFrame s.cfg s.sel.mask).length = 17 := by simp [selectFrame, longFrame]
  have h := State.readBuffer_loadTx s (selectFrame s.cfg s.sel.mask) (n := 17) (by omega)
  rw [List.take_of_length_le (by omega)] at h
  exact h

/-- Step 4 always hands its request over; what is left is its answer. -/
theorem step4_eq (s : State) :
    step4 s = step4Answered
      ((({ s with sel := { s.sel with active := false }, target := s.cfg.netAddr }).buildRequest s.cfg.netAddr).handOver
        (requestFrame s.cfg s.cfg.netAddr)) := by
  simp only [step4, State.readBuffer_buildRequest]

/-- An accepted SELECT hands the select frame over; what is left is its answer. -/
theorem execSelect_accepted {s : State} (hb : s.busy = false) (ha : s.sel.active = true) :
    execSelect s = selectAnswered (s.selectStart.buildSelect.handOver (selectFrame s.cfg s.sel.mask)) := by
  have h : s.selectStart.buildSelect.readBuffer .txbuf 17 = some (selectFrame s.cfg s.sel.mask) :=
    State.readBuffer_buildSelect s.selectStart
  simp only [execSelect, hb, ha, h, Bool.false_eq_true, if_false, reduceCtorEq]

/-- An accepted REQ_DATA hands its request over; what is left is its answer. -/
theorem execReqData_accepted {s : State} (hb : s.busy = false) (ht : IsTarget s.cfg s.target) :
    execReqData s = requestAnswered ((s.buildRequest s.target).handOver (requestFrame s.cfg s.target)) := by
  simp only [execReqData, hb, if_pos ht, Bool.false_eq_true, if_false, State.readBuffer_buildRequest]

/-- A window takes chunks of bytes in their order and goes on with the answers after them. -/
theorem window_chunks (chunks : List (List Byte × Bool)) {s : State} {q : List RecvInput} (w : List Byte)
    (hp : s.phase = .idle) (h : s.recvQ = chunks.map (fun c => ⟨.bytes c.1, c.2⟩) ++ q) :
    window s.recvQ w s =
      window q (w ++ windowBytes chunks)
        { s with recvQ := q, rxLog := s.rxLog ++ chunks.map (fun c => .bytes c.1) } := by
  rw [h]
  induction chunks generalizing s w with
  | nil => cases s; simp_all [windowBytes]
  | cons c cs ih =>
    have hr : (s.received ⟨.bytes c.1, c.2⟩ (cs.map (fun c => ⟨.bytes c.1, c.2⟩) ++ q)).recvQ =
        cs.map (fun c => ⟨.bytes c.1, c.2⟩) ++ q := rfl
    simp only [List.map_cons, List.cons_append, window]
    rw [ih (w ++ c.1) rfl hr]
    simp [State.received, windowBytes, hp]

end Sys2Proof.Machine
end

