-- ==== Sys2Proof/Laws/PerInstr.lean ====
section
/-! SUPPORT. Statements for every instruction, proved one constructor at a time. -/

namespace Sys2Proof.Laws.EncodedSize

/-- The size of an instruction: an operation is one byte, written to CMD (30_encoding.md R67); a unit is at most 261
bytes (R61 to R64), and what it begins with tells which of the three kinds of unit it is (R71). -/
def Statement (i : Instr) : Prop :=
  ∀ cfg : Config.Params, i.WellFormed →
    (encode cfg i).length ≤ maxInstrBytes ∧
    (i.format = .cmd → (encode cfg i).length = 1) ∧
    (i.format = .wire → ∃ b bs, encode cfg i = b :: bs ∧
      ((b = cfg.ackByte ∧ bs = []) ∨ (b = cfg.startShort ∧ bs.length = 4) ∨
        (b = cfg.startLong ∧ ∃ l more, bs = l :: l :: cfg.startLong :: more ∧ more.length = l.toNat + 2)))

theorem cmd {i : Instr} (h : i.format = .cmd) (hl : ∀ cfg, (encode cfg i).length = 1) : Statement i :=
  fun cfg _ => ⟨by rw [hl]; decide, fun _ => hl cfg, fun hw => by rw [h] at hw; cases hw⟩

theorem reset : Statement .reset := cmd rfl fun _ => rfl
theorem encShort : Statement .encShort := cmd rfl fun _ => rfl
theorem encControl : Statement .encControl := cmd rfl fun _ => rfl
theorem encLong : Statement .encLong := cmd rfl fun _ => rfl
theorem encRequest : Statement .encRequest := cmd rfl fun _ => rfl
theorem encSelect : Statement .encSelect := cmd rfl fun _ => rfl
theorem send : Statement .send := cmd rfl fun _ => rfl
theorem rxByte : Statement .rxByte := cmd rfl fun _ => rfl
theorem rxEnd : Statement .rxEnd := cmd rfl fun _ => rfl
theorem decode : Statement .decode := cmd rfl fun _ => rfl
theorem resolvePrimary : Statement .resolvePrimary := cmd rfl fun _ => rfl
theorem maskLoad : Statement .maskLoad := cmd rfl fun _ => rfl
theorem maskNarrow : Statement .maskNarrow := cmd rfl fun _ => rfl
theorem select : Statement .select := cmd rfl fun _ => rfl
theorem awaitReply : Statement .awaitReply := cmd rfl fun _ => rfl
theorem reqData : Statement .reqData := cmd rfl fun _ => rfl

theorem ack : Statement .ack :=
  fun cfg _ => ⟨by simp [encode, maxInstrBytes], (by intro h; cases h), fun _ => ⟨cfg.ackByte, [], rfl, .inl ⟨rfl, rfl⟩⟩⟩

theorem short (c a cs stop : Byte) : Statement (.short c a cs stop) :=
  fun cfg _ => ⟨by simp [encode, maxInstrBytes], (by intro h; cases h),
    fun _ => ⟨cfg.startShort, [c, a, cs, stop], rfl, .inr (.inl ⟨rfl, rfl⟩)⟩⟩

theorem control (c a ci cs stop : Byte) : Statement (.control c a ci cs stop) :=
  fun cfg _ => ⟨by simp [encode, maxInstrBytes, longHeader], (by intro h; cases h),
    fun _ => ⟨cfg.startLong, _, rfl, .inr (.inr ⟨rfl, lengthField 0, [c, a, ci, cs, stop], rfl, rfl⟩)⟩⟩

theorem long (c a ci : Byte) (p : List Byte) (cs stop : Byte) : Statement (.long c a ci p cs stop) := by
  intro cfg h
  have hp : p.length ≤ 252 := by
    simp only [Instr.WellFormed, Instr.wf, Bool.and_eq_true, decide_eq_true_eq] at h
    exact h.2
  refine ⟨?_, (by intro h; cases h), fun _ => ⟨cfg.startLong, _, rfl, .inr (.inr ⟨rfl, lengthField p.length, _, rfl, ?_⟩)⟩⟩
  · simp [encode, maxInstrBytes, longHeader]
    omega
  · simp [lengthField, Config.lenOverhead]
    omega

end Sys2Proof.Laws.EncodedSize
end

