-- ==== Sys2Proof/Tests/Slice0.lean ====
section
/-! SUPPORT. The tests: ill-formed terms, words written out from the spec's tables, one step of each instruction with the
results of 95_test_vectors.md, and a witness for the hypotheses of every statement. -/

namespace Sys2Proof.Tests

open Sys2Proof.Machine

-- One theorem after the other: many small kernel checks at once each take a thread and its memory.
set_option Elab.async false

/-! Well-formedness (R64, R65) -/

theorem test_wf_long_without_payload : ¬ (Instr.long 8 1 0x72 [] 0x7B 0x16).WellFormed := by decide
theorem test_wf_long_of_253 : ¬ (Instr.long 8 1 0x72 (List.replicate 253 0) 0x7B 0x16).WellFormed := by decide +kernel
theorem test_wf_long_of_1_and_252 : (Instr.long 8 1 0x72 [0] 0x7B 0x16).WellFormed ∧
    (Instr.long 8 1 0x72 (List.replicate 252 0) 0x7B 0x16).WellFormed := by decide +kernel

/-! Decoding: every operation from its code (R78), every unit from its table (R61 to R64), and what R76 calls illegal -/

theorem test_decode_reset : decodeCmd 0b00000000 = .ok .reset := by decide
theorem test_decode_encShort : decodeCmd 0b00000001 = .ok .encShort := by decide
theorem test_decode_encControl : decodeCmd 0b00000010 = .ok .encControl := by decide
theorem test_decode_encLong : decodeCmd 0b00000011 = .ok .encLong := by decide
theorem test_decode_encRequest : decodeCmd 0b00000100 = .ok .encRequest := by decide
theorem test_decode_encSelect : decodeCmd 0b00000101 = .ok .encSelect := by decide
theorem test_decode_send : decodeCmd 0b00000110 = .ok .send := by decide
theorem test_decode_rxByte : decodeCmd 0b00000111 = .ok .rxByte := by decide
theorem test_decode_rxEnd : decodeCmd 0b00001000 = .ok .rxEnd := by decide
theorem test_decode_decode : decodeCmd 0b00001001 = .ok .decode := by decide
theorem test_decode_resolvePrimary : decodeCmd 0b00001010 = .ok .resolvePrimary := by decide
theorem test_decode_maskLoad : decodeCmd 0b00001011 = .ok .maskLoad := by decide
theorem test_decode_maskNarrow : decodeCmd 0b00001100 = .ok .maskNarrow := by decide
theorem test_decode_select : decodeCmd 0b00001101 = .ok .select := by decide
theorem test_decode_awaitReply : decodeCmd 0b00001110 = .ok .awaitReply := by decide
theorem test_decode_reqData : decodeCmd 0b00001111 = .ok .reqData := by decide
theorem test_decode_ack : decodeWire .decided [0b11100101] = .ok (.ack, []) := by decide
theorem test_decode_short :
    decodeWire .decided [0b00010000, 0x5B, 0x01, 0x5C, 0b00010110, 0xE5] = .ok (.short 0x5B 0x01 0x5C 0x16, [0xE5]) := by
  decide
theorem test_decode_control :
    decodeWire .decided [0b01101000, 0b00000011, 0b00000011, 0b01101000, 0x53, 0x01, 0x51, 0xA5, 0b00010110] =
      .ok (.control 0x53 0x01 0x51 0xA5 0x16, []) := by decide
theorem test_decode_long :
    decodeWire .decided [0b01101000, 0b00000101, 0b00000101, 0b01101000, 0x08, 0x05, 0x72, 0x16, 0x10, 0xA5, 0b00010110] =
      .ok (.long 0x08 0x05 0x72 [0x16, 0x10] 0xA5 0x16, []) := by decide
theorem test_decode_refuses :
    decodeCmd 0x10 = .error .badCommand ∧ decodeCmd 0xFF = .error .badCommand ∧
    decodeWire .decided [0x16] = .error .noUnit ∧ decodeWire .decided [0x68, 3, 4] = .error .lengthsDiffer ∧
    decodeWire .decided [0x68, 2, 2] = .error .lengthTooSmall ∧
    decodeWire .decided [0x68, 3, 3, 0x10] = .error .badRepeatedStart ∧
    decodeWire .decided [0x10, 0x5B] = .error .incomplete := by decide

/-- The next state, if there is one. -/
def nextOf (o : Result) : Option State :=
  match o with
  | .next t => some t
  | .fault _ | .refused _ => none

/-- The table's numbering: byte `k` of a word is bits `8k+7` to `8k`. -/
theorem test_decode_tableWord :
    decodeTableWord 8 0x0D = some .select ∧ decodeTableWord 8 0xE5 = some .ack ∧
    decodeTableWord 40 0x165C015B10 = some (.short 0x5B 0x01 0x5C 0x16) ∧
    decodeTableWord 72 0x16A551015368030368 = some (.control 0x53 0x01 0x51 0xA5 0x16) := by decide +kernel
theorem test_withFetchWord : nextOf (step (State.reset.withFetchWord 40 0x165C015B10)) =
      nextOf (exec (.short 0x5B 0x01 0x5C 0x16) { State.reset with input := [.wire (List.replicate 256 0)] }) := by decide +kernel

/-! One step of each instruction -/

def after (i : Instr) (s : State) : Option State := nextOf (exec i s)

/-- The frame in TXBUF after an instruction. -/
def built (i : Instr) (s : State) : Option (List Byte) :=
  (after i s).bind fun t => t.readBuffer .txbuf t.txbufLen.toNat

/-- STATUS, RESULT, EXRES and REFUSE after an instruction. -/
def shown (i : Instr) (s : State) : Option (Byte × Byte × Byte × Byte) :=
  (after i s).map fun t => (statusReg t, resultReg t, exresReg t, refuseReg t)

/-- The receiver is given some bytes by the host. -/
def receiving (bs : List Byte) : State := State.reset.feed bs

/-- DECODE has been given an operand. -/
def presented (bs : List Byte) : State := { State.reset with decodeArg := bs }

/-- The host has written OPND[0] and OPND[1]. -/
def operands (a b : Byte) : State := { State.reset with opnd := #v[a, b, 0, 0, 0, 0, 0, 0] }

/-- A selection is active with a mask, and the environment has answers. -/
def selecting (mask : Addr) (qs : List SendResult) (qr : List RecvInput) : State :=
  { State.reset with sel := { Sel.reset with mask := mask, active := true }, sendQ := qs, recvQ := qr }

/-- A reply is outstanding, and the environment has answers. -/
def waiting (qr : List RecvInput) : State := { State.reset with busy := true, recvQ := qr }

/-- TARGET has been written, and the environment has answers. -/
def targeting (a : Byte) (qs : List SendResult) (qr : List RecvInput) : State :=
  { State.reset with target := a, sendQ := qs, recvQ := qr }

/-- A short frame is in TXBUF (2.4). -/
def loaded : State := State.reset.loadTx [0x10, 0x40, 0x01, 0x41, 0x16]

def allF : Addr := Vector.replicate 8 0xFF
def device1 : Addr := #v[0x12, 0x34, 0x56, 0x78, 0x24, 0x23, 0x01, 0x07]

/-- The 21-byte reply R1 of 2.8. -/
def reply1 : List Byte :=
  [0x68, 0x0F, 0x0F, 0x68, 0x08, 0x01, 0x72, 0x12, 0x34, 0x56, 0x78, 0x24, 0x23, 0x01, 0x07, 0x07, 0, 0, 0, 0xE5, 0x16]

def bytes (b : List Byte) : RecvInput := ⟨.bytes b, false⟩
def bytesInTime (b : List Byte) : RecvInput := ⟨.bytes b, true⟩
def timeout : RecvInput := ⟨.timeout, false⟩
def broken : RecvInput := ⟨.transportError, false⟩

/-- 2.10, 2.11 -/
theorem test_reset : shown .reset { waiting [] with target := 5, tx := ⟨1, 2, 3, 4⟩ } = some (0, 0, 0, 0) ∧
    (after .reset { waiting [] with target := 5 }).map (·.target) = some 0 := by decide
/-- 2.2: the sum wraps to 0 -/
theorem test_encShort_wraps : built .encShort { State.reset with tx := ⟨0x80, 0x80, 0, 0⟩ } = some [0x10, 0x80, 0x80, 0, 0x16] := by
  decide
theorem test_encShort : built .encShort { State.reset with tx := ⟨0x5B, 0x01, 0, 0⟩ } = some [0x10, 0x5B, 1, 0x5C, 0x16] := by
  decide
/-- 2.3 -/
theorem test_encControl : built .encControl { State.reset with tx := ⟨0xFF, 0xFF, 0xFF, 9⟩ } =
    some [0x68, 3, 3, 0x68, 0xFF, 0xFF, 0xFF, 0xFD, 0x16] := by decide
theorem test_encLong : built .encLong { State.reset with
      tx := ⟨8, 5, 0x72, 4⟩, mem := Memory.writeAll [] 0x100 [0x68, 0x10, 0xE5, 0x16] } =
    some [0x68, 7, 7, 0x68, 8, 5, 0x72, 0x68, 0x10, 0xE5, 0x16, 0xF2, 0x16] := by decide
theorem test_encLong_of_253 : shown .encLong { State.reset with tx := ⟨8, 1, 0x72, 253⟩ } = some (0x20, 0, 0, 3) := by
  decide
/-- 2.2 -/
theorem test_encRequest : built .encRequest (targeting 0xFA [] []) = some [0x10, 0x5B, 0xFA, 0x55, 0x16] := by decide
theorem test_encRequest_refused : shown .encRequest (targeting 0xFB [] []) = some (0x20, 0, 0, 4) := by decide
/-- 2.3 -/
theorem test_encSelect : built .encSelect (selecting #v[0x12, 0x34, 0x56, 0x79, 0xFF, 0xFF, 0xFF, 0xFF] [] []) =
    some [0x68, 0x0B, 0x0B, 0x68, 0x53, 0xFD, 0x52, 0x12, 0x34, 0x56, 0x79, 0xFF, 0xFF, 0xFF, 0xFF, 0xB3, 0x16] := by decide
/-- 2.4 -/
theorem test_send : shown .send { loaded with sendQ := [.ok] } = some (1, 0, 0, 0) ∧
    (after .send { loaded with sendQ := [.ok] }).map (·.txLog) = some [[0x10, 0x40, 0x01, 0x41, 0x16]] := by decide
theorem test_send_refused : shown .send State.reset = some (0x20, 0, 0, 3) ∧
    shown .send { loaded with busy := true } = some (0x21, 0, 0, 1) := by decide
/-- 2.6: the last byte of the long frame's trace, and the stop marker of a short frame -/
theorem test_rxByte : shown .rxByte { receiving [0x68, 4, 4, 0x68, 8, 5, 0x72, 0x16, 0x95] with opnd := #v[0x16, 0, 0, 0, 0, 0, 0, 0] } =
    some (0x18, 4, 0, 0) := by decide
theorem test_rxByte_short : (after .rxByte { receiving [0x10, 0x5B, 1, 0x5C] with opnd := #v[0x16, 0, 0, 0, 0, 0, 0, 0] }).bind
    State.lastResult = some (.ok (.short 0x5B 0x01)) := by decide
/-- 2.6 -/
theorem test_rxEnd : shown .rxEnd (receiving [0x68]) = some (0x10, 0x20, 0, 0) ∧ shown .rxEnd State.reset = some (0, 0, 0, 0) := by
  decide
/-- 2.5: the register effect of DECODE -/
theorem test_decode : shown .decode (presented [0x68, 6, 6, 0x68, 8, 1, 0x72, 1, 2, 3, 0x81, 0x16]) = some (0x18, 4, 0, 0) ∧
    (after .decode (presented [0x68, 6, 6, 0x68, 8, 1, 0x72, 1, 2, 3, 0x81, 0x16])).bind State.lastResult =
      some (.ok (.long 8 1 0x72 [1, 2, 3])) := by decide
theorem test_decode_priorities :
    (after .decode (presented [0x10, 0x5B, 1, 0x5D, 0x17])).map resultReg = some 0x08 ∧
    (after .decode (presented [0x10, 0x5B, 1, 0x5D, 0x16, 0])).map resultReg = some 0x10 ∧
    (after .decode (presented [0xE5, 0xE5])).map resultReg = some 0x18 ∧
    (after .decode (presented [])).map resultReg = some 0x20 := by decide
/-- 2.7 -/
theorem test_resolvePrimary : (after .resolvePrimary (operands 0xFA 0)).map (·.target) = some 0xFA ∧
    shown .resolvePrimary (operands 0xFD 0) = some (0x20, 0, 0, 4) := by decide
theorem test_maskLoad : (after .maskLoad { State.reset with opnd := device1 }).map (fun t => (t.sel.mask, statusReg t)) =
    some (device1, 2) := by decide
theorem test_maskNarrow :
    (after .maskNarrow { selecting #v[0x12, 0xFF, 0xFF, 0xFF, 0xFF, 0xFF, 0xFF, 0xFF] [] [] with
      opnd := #v[0x02, 0x0E, 0, 0, 0, 0, 0, 0] }).map (·.sel.mask) =
      some #v[0x12, 0xEF, 0xFF, 0xFF, 0xFF, 0xFF, 0xFF, 0xFF] := by decide
theorem test_maskNarrow_refused :
    shown .maskNarrow { selecting #v[0x12, 0xFF, 0xFF, 0xFF, 0xFF, 0xFF, 0xFF, 0xFF] [] [] with
      opnd := #v[0, 3, 0, 0, 0, 0, 0, 0] } = some (0x22, 0, 0, 5) := by decide
/-- 2.8 -/
theorem test_select_single :
    shown .select (selecting allF [.ok, .ok] [bytes (reply1.take 5), bytes (reply1.drop 5), timeout]) =
      some (0x19, 4, 0x50, 0) := by decide +kernel
theorem test_select_collision :
    shown .select (selecting allF [.ok] [bytes (reply1.take 20), timeout]) = some (0x1A, 0x20, 0x18, 0) := by decide +kernel
/-- 2.9 -/
theorem test_awaitReply_continues :
    shown .awaitReply (waiting [bytesInTime (reply1.take 9), bytes (reply1.drop 9)]) = some (0x18, 4, 1, 0) := by
  decide +kernel
theorem test_awaitReply_short : shown .awaitReply (waiting [bytes [0x10, 0x5B, 1, 0x5C, 0x16]]) = some (0x18, 2, 3, 0) := by
  decide +kernel
theorem test_reqData : shown .reqData (targeting 1 [.ok] [bytes [0xE5]]) = some (0x10, 1, 1, 0) ∧
    (after .reqData (targeting 1 [.ok] [bytes [0xE5]])).map (·.txLog) = some [[0x10, 0x5B, 0x01, 0x5C, 0x16]] := by
  decide +kernel
theorem test_reqData_fails : shown .reqData (targeting 0xFD [.transportError] []) = some (0, 0, 5, 0) := by decide +kernel
/-- 2.5, 2.6: the units given to the receiver -/
theorem test_ack : shown .ack State.reset = some (0x10, 1, 0, 0) := by decide
theorem test_short : shown (.short 0x5B 0x01 0x5D 0x16) State.reset = some (0x10, 0x10, 0, 0) := by decide
theorem test_control : shown (.control 0x53 0x01 0x51 0xA5 0x16) State.reset = some (0x18, 3, 0, 0) := by decide
theorem test_long : (after (.long 8 1 0x72 [1, 2, 3] 0x81 0x16) State.reset).bind State.lastResult =
    some (.ok (.long 8 1 0x72 [1, 2, 3])) := by decide
/-- 2.10 -/
theorem test_badCommand : step { State.reset with input := [.write 0 0xFF] } = .next (State.reset.refuse .badCommand) := by
  rfl

/-! Witnesses: a concrete state and operands for the hypotheses of each statement that has any, clause by clause -/

theorem witness_DecodeInvertsEncode : Config.Params.decided.Ok ∧
    (Instr.long 0x68 0x16 0xE5 (List.replicate 252 0x68) 0 0).WellFormed ∧ Instr.reset.WellFormed := by decide +kernel
theorem witness_EncodeInvertsDecode :
    decodeAt .decided .wire [0x68, 3, 3, 0x68, 1, 2, 3, 4, 5, 0xE5] = .ok (.control 1 2 3 4 5, [0xE5]) ∧
    decodeAt .decided .cmd [0x0F, 0x10] = .ok (.reqData, [0x10]) := by decide
/-- The last byte that is an operation, the first that is refused, and the last byte. -/
theorem witness_CommandByteSelectsOrIsRefused :
    (0x0F : Byte).extractLsb' 4 4 = 0 ∧ State.reset.cfg.Ok ∧ State.reset.phase = .idle ∧
    { State.reset with input := [Input.write 0 0x10] }.input = .write 0 0x10 :: [] ∧
    (0x10 : Byte).extractLsb' 4 4 ≠ 0 ∧ (0xFF : Byte).extractLsb' 4 4 ≠ 0 := by decide
theorem witness_StepRunsTheDecodedInstruction :
    State.reset.cfg.Ok ∧ State.reset.phase = .idle ∧
    { State.reset with input := [Input.write 0 0x0F] }.input = .write 0 0x0F :: [] ∧ decodeCmd 0x0F = .ok .reqData ∧
    { State.reset with input := [Input.wire [0xE5, 0x10]] }.input = .wire [0xE5, 0x10] :: [] ∧
    decodeWire State.reset.cfg [0xE5, 0x10] = .ok (.ack, [0x10]) := by decide
theorem witness_StepWithoutAnInstruction :
    ¬ { Config.Params.decided with startShort := 0xE5 }.Ok ∧ State.reset.cfg.Ok ∧ State.reset.phase = .idle ∧
    { State.reset with phase := .sendWait }.phase ≠ .idle ∧ State.reset.input = [] ∧
    (1 ≠ 0 ∧ { State.reset with input := [Input.write 1 0] }.input = .write 1 0 :: []) ∧
    { State.reset with input := [Input.read 0] }.input = .read 0 :: [] ∧
    { State.reset with input := [Input.present []] }.input = .present [] :: [] ∧
    ({ State.reset with input := [Input.wire [0x68]] }.input = .wire (0x68 :: []) :: [] ∧
      decodeWire State.reset.cfg [0x68] = .error .incomplete) ∧
    ({ State.reset with input := [Input.wire [0, 0xE5]] }.input = .wire (0 :: [0xE5]) :: [] ∧
      decodeWire State.reset.cfg [0, 0xE5] = .error .noUnit) := by decide
theorem witness_WireStreamIsFedByteByByte : State.reset.cfg.Ok ∧ State.reset.phase = .idle ∧
    { State.reset with input := [Input.wire [0, 0xE5, 0x10, 1]] }.input = .wire [0, 0xE5, 0x10, 1] :: [] := by decide
/-- Both ends of each range of writable indices, and the indices next to them. -/
theorem witness_RegisterWriteReadsBack :
    (∀ i ∈ [0x005, 0x00B, 0x022, 0x029, 0x100, 0x1FB],
      (0x005 ≤ i ∧ i ≤ 0x00B) ∨ (0x022 ≤ i ∧ i ≤ 0x029) ∨ (0x100 ≤ i ∧ i ≤ 0x1FB)) ∧
    ∀ i ∈ [0x001, 0x004, 0x00C, 0x021, 0x02A, 0x0FF, 0x1FC, 0x200, 0x404],
      i ≠ 0 ∧ ¬ ((0x005 ≤ i ∧ i ≤ 0x00B) ∨ (0x022 ≤ i ∧ i ≤ 0x029) ∨ (0x100 ≤ i ∧ i ≤ 0x1FB)) := by decide
theorem witness_RegisterReadHasNoSideEffect :
    readRegister State.reset 0x006 = some 0 ∧ InBuffer 0x100 ∧ InBuffer 0x1FB ∧ InBuffer 0x2FB ∧ InBuffer 0x404 ∧
    ¬ InBuffer 0x0FF ∧ ¬ InBuffer 0x1FC ∧ ¬ InBuffer 0x405 ∧ readRegister State.reset 0x200 = none := by decide
/-- The host has written a payload and its length. -/
def filled (p : List Byte) : State :=
  { State.reset with tx := ⟨8, 1, 0x72, BitVec.ofNat 8 p.length⟩, mem := Memory.writeAll [] 0x100 p }
theorem filled_reads {p : List Byte} (h : p.length ≤ 252) :
    (filled p).tx.len.toNat ≤ 252 ∧ (filled p).readBuffer .txPay (filled p).tx.len.toNat = some p := by
  have e : (filled p).tx.len.toNat = p.length := by simp [filled]; omega
  rw [e]
  exact ⟨h, Memory.readAll_writeAll [] 0x100 p⟩
/-- TX_LEN at 253 and 255; at 252, 1 and 0 with the payload written. -/
theorem witness_EncLongBuildsTheLongFrame :
    (252 < (253 : Byte).toNat ∧ 252 < (255 : Byte).toNat) ∧
    (∀ p ∈ [List.replicate 252 7, [7], []],
      (filled p).tx.len.toNat ≤ 252 ∧ (filled p).readBuffer .txPay (filled p).tx.len.toNat = some p) ∧
    (filled []).tx.len = 0 := by
  refine ⟨by decide, fun p h => filled_reads ?_, rfl⟩
  simp only [List.mem_cons, List.not_mem_nil, or_false] at h
  rcases h with rfl | rfl | rfl
  · exact List.length_replicate.le
  all_goals decide
theorem witness_EncRequestBuildsTheRequestFrame :
    (∀ t ∈ [0, 250, 253], (t : Byte) ≤ State.reset.cfg.primaryMax ∨ t = State.reset.cfg.netAddr) ∧
    (∀ t ∈ [251, 252, 254, 255], ¬ ((t : Byte) ≤ State.reset.cfg.primaryMax ∨ t = State.reset.cfg.netAddr)) := by decide
theorem witness_EncSelectBuildsTheSelectFrame :
    (selecting device1 [] []).sel.active = true ∧ State.reset.sel.active = false := by decide
theorem witness_SendTransmitsTheFrameOnce :
    (waiting []).busy = true ∧ (State.reset.busy = false ∧ State.reset.txbufLen = 0) ∧
    (loaded.busy = false ∧ loaded.txbufLen ≠ 0 ∧
      loaded.readBuffer .txbuf loaded.txbufLen.toNat = some [0x10, 0x40, 0x01, 0x41, 0x16]) ∧
    { loaded with sendQ := [SendResult.ok] }.sendQ = .ok :: [] ∧
    { loaded with sendQ := [SendResult.transportError] }.sendQ = .transportError :: [] := by decide
theorem witness_NothingIsSentWhileBusy :
    (waiting []).busy = true ∧ (∃ t, exec .send (waiting []) = .next t) ∧ (waiting []).phase = .idle ∧
    ∃ t, step { waiting [] with input := [.write 0 6] } = .next t := ⟨rfl, ⟨_, rfl⟩, rfl, ⟨_, rfl⟩⟩
theorem witness_OnlySendersTransmit :
    (∃ t, exec .select (selecting device1 [.transportError] []) = .next t) ∧ ∃ t, exec .encShort State.reset = .next t :=
  ⟨⟨_, rfl⟩, ⟨_, rfl⟩⟩
theorem witness_ReceiveStreamIsConsumedInOrder :
    (∃ t, exec .awaitReply (waiting [timeout]) = .next t) ∧ ∃ t, exec .select (selecting device1 [.ok] [timeout]) = .next t :=
  ⟨⟨_, rfl⟩, ⟨_, rfl⟩⟩
theorem witness_OnlyAwaitReplyAndResetClearBusy :
    (waiting [timeout]).busy = true ∧ ∃ t, exec .awaitReply (waiting [timeout]) = .next t ∧ t.busy = false :=
  ⟨rfl, ⟨_, rfl, rfl⟩⟩
theorem witness_ReceiverDispatchesOnTheFirstByte : State.reset.rx.state = .idle := rfl
theorem witness_ReceiverTakesAShortFrame :
    (receiving [0x10]).rx.state = .shC ∧ (receiving [0x10, 1]).rx.state = .shA ∧
    (receiving [0x10, 1, 2]).rx.state = .shCs ∧ (receiving [0x10, 1, 2, 3]).rx.state = .shStop := by decide
theorem witness_ReceiverChecksTheHeader :
    (receiving [0x68]).rx.state = .lgL1 ∧ (receiving [0x68, 3]).rx.state = .lgL2 ∧
    (receiving [0x68, 3, 3]).rx.state = .lgStart2 := by decide
/-- LG_DATA with the first of one payload byte missing, and with the last of 252. -/
theorem witness_ReceiverStoresTheBody :
    (receiving [0x68, 3, 3, 0x68]).rx.state = .lgC ∧ (receiving [0x68, 3, 3, 0x68, 1]).rx.state = .lgA ∧
    (receiving [0x68, 3, 3, 0x68, 1, 2]).rx.state = .lgCi ∧
    (let s := receiving [0x68, 4, 4, 0x68, 1, 2, 3]
     s.rx.state = .lgData ∧ s.rx.Placed) ∧
    (let r : Rx := { Rx.reset with state := .lgData, l := 255, cnt := 251 }
     r.state = .lgData ∧ r.Placed) :=
  ⟨by decide, by decide, by decide, ⟨by decide, by show 0 + 3 < 4; decide⟩, ⟨rfl, by show 251 + 3 < 255; decide⟩⟩
theorem witness_ReceiverJudgesTheTail :
    (receiving [0x68, 3, 3, 0x68, 1, 2, 3]).rx.state = .lgCs ∧
    (receiving [0x68, 3, 3, 0x68, 1, 2, 3, 6]).rx.state = .lgStop := by decide
theorem witness_RxEndReportsTruncation : State.reset.rx.state = .idle ∧ (receiving [0x68]).rx.state ≠ .idle := by decide
theorem witness_DecodeChangesTheReceiverOnly :
    (receiving [0x68]).cfg = State.reset.cfg ∧ (receiving [0x68]).decodeArg = State.reset.decodeArg ∧
    ∃ t, exec .decode (receiving [0x68]) = .next t := ⟨rfl, rfl, ⟨_, rfl⟩⟩
theorem witness_EncodeDecodeRoundTrip :
    State.reset.cfg.Ok ∧
    (let s : State := { State.reset with tx := ⟨8, 1, 0x72, 1⟩, mem := [(0x100, 7)] }
     s.tx.len.toNat ≤ 252 ∧ s.readBuffer .txPay s.tx.len.toNat = some [7]) ∧
    (State.reset.tx.len.toNat ≤ 252 ∧ State.reset.readBuffer .txPay State.reset.tx.len.toNat = some []) ∧
    ∃ t, exec .decode (presented [0xE5]) = .next t ∧ t.lastResult = some (.ok .ack) :=
  ⟨by decide, by decide, by decide, ⟨_, rfl, by decide⟩⟩
/-- The first and the last byte that may be changed of a short frame, and those of a control frame. -/
theorem witness_OneChangedByteIsAChecksumMismatch :
    (∃ t, exec .decode (presented [0x10, 0x5B, 1, 0x5C, 0x16]) = .next t ∧ t.lastResult = some (.ok (.short 0x5B 1))) ∧
    (∀ i ∈ [1, 3], (1 ≤ i ∧ i + 1 < [0x10, 0x5B, 1, 0x5C, 0x16].length ∧ [0x10, 0x5B, 1, 0x5C, (0x16 : Byte)][i]? ≠ some 0)) ∧
    (∃ t, exec .decode (presented [0x68, 3, 3, 0x68, 0x53, 1, 0x51, 0xA5, 0x16]) = .next t ∧
      t.lastResult = some (.ok (.control 0x53 1 0x51))) ∧
    (∀ i ∈ [4, 7], 4 ≤ i ∧ i + 1 < [0x68, 3, 3, 0x68, 0x53, 1, 0x51, 0xA5, 0x16].length ∧
      [0x68, 3, 3, 0x68, 0x53, 1, 0x51, 0xA5, (0x16 : Byte)][i]? ≠ some 0) :=
  ⟨⟨_, rfl, by decide⟩, by decide, ⟨_, rfl, by decide⟩, by decide⟩
/-- Length bytes that differ, and equal ones just above the true length. -/
theorem witness_WrongLengthIsNeverAFrame :
    let b : List Byte := [0x68, 3, 3, 0x68, 0x53, 1, 0x51, 0xA5, 0x16]
    (presented b).cfg.Ok ∧ (∃ t, exec .decode (presented b) = .next t ∧ t.lastResult = some (.ok (.control 0x53 1 0x51))) ∧
    Frame.control 0x53 1 0x51 ≠ .ack ∧ (∀ c a, Frame.control 0x53 1 0x51 ≠ .short c a) ∧
    (¬ ((3 : Byte) = byteAt b 1 ∧ (4 : Byte) = byteAt b 1) ∧ (3 : Byte) ≠ 4) ∧
    (¬ ((4 : Byte) = byteAt b 1 ∧ (4 : Byte) = byteAt b 1) ∧ byteAt b 1 < 4) ∧
    ¬ ((2 : Byte) = byteAt b 1 ∧ (2 : Byte) = byteAt b 1) :=
  ⟨by decide, ⟨_, rfl, by decide⟩, by decide, (by intro _ _ h; cases h), by decide, by decide, by decide⟩
theorem witness_ReceiverResynchronisesAfterAnEvent :
    State.reset.eventAt 0 = some (.err .malformed) ∧ State.reset.rx.state = .idle ∧ (receiving [0xE5]).rx.state = .idle ∧
    State.reset.cfg = (receiving [0xE5]).cfg := by decide
theorem witness_UnitsAreJudgedByTheReceiver : State.reset.cfg.Ok ∧ State.reset.rx.state = .idle ∧
    (Instr.long 8 1 0x72 [0] 0x7B 0x16).WellFormed ∧
    (Instr.long 8 1 0x72 (List.replicate 252 0) 0x7B 0x16).WellFormed := by decide +kernel
theorem witness_UnitEqualsItsRxBytes : Instr.ack.format = .wire ∧ (Instr.long 8 1 0x72 [] 0 0).format = .wire := by decide
theorem witness_ResolvePrimaryChecksTheRange :
    (operands 250 0).opnd[0] ≤ (operands 250 0).cfg.primaryMax ∧
    (operands 251 0).cfg.primaryMax < (operands 251 0).opnd[0] := by decide
/-- The refusals at their boundaries (position 16, digit 16, digit 15), the last position with the largest digit, on a
concrete digit and on a wildcard. -/
theorem witness_MaskNarrowFixesOneWildcard :
    State.reset.sel.active = false ∧ (selecting allF [] []).sel.active = true ∧
    (15 < (16 : Byte).toNat ∧ (15 : Byte).toNat = State.reset.cfg.wildcard.toNat) ∧
    ((15 : Byte).toNat = (15 : Fin 16).val ∧ (14 : Byte).toNat = (14 : Digit).toNat ∧ (14 : Digit) ≠ State.reset.cfg.wildcard) ∧
    nib (selecting device1 [] []).sel.mask 15 ≠ State.reset.cfg.wildcard ∧
    nib (selecting allF [] []).sel.mask 15 = State.reset.cfg.wildcard := by decide
theorem witness_MasksMatchDigitByDigit :
    (∀ p, nib allF p = State.reset.cfg.wildcard) ∧ (∀ p, nib device1 p ≠ State.reset.cfg.wildcard) ∧
    State.reset.cfg.wildcard = 0xF := by decide +kernel

theorem witness_SelectSurfacesTransportErrors :
    (let s := selecting allF [.transportError] []
     s.busy = false ∧ s.sel.active = true ∧ s.sendQ = .transportError :: []) ∧
    (let s := selecting allF [.ok] [bytes [1], broken]
     s.busy = false ∧ s.sel.active = true ∧ s.sendQ = .ok :: [] ∧
      s.recvQ = windowAnswers [([1], false)] ⟨.transportError, false⟩ ++ []) := by decide
/-- Nothing, Collision and Unexpected, each with a window of its own. -/
theorem witness_SelectClassifiesTheWindow :
    (let s := selecting allF [.ok] [bytes [], timeout]
     s.busy = false ∧ s.sel.active = true ∧ s.sendQ = .ok :: [] ∧
      s.recvQ = windowAnswers [([], false)] ⟨.timeout, false⟩ ++ [] ∧ windowBytes [([], false)] = []) ∧
    ((selecting allF [.ok] [bytes [0], timeout]).recvQ = windowAnswers [([0], false)] ⟨.timeout, false⟩ ++ [] ∧
      windowBytes [([0], false)] ≠ [] ∧ closedDecode .decided (windowBytes [([0], false)]) = .err .malformed) ∧
    ((selecting allF [.ok] [bytes [0xE5], timeout]).recvQ = windowAnswers [([0xE5], false)] ⟨.timeout, false⟩ ++ [] ∧
      windowBytes [([0xE5], false)] ≠ [] ∧ closedDecode .decided (windowBytes [([0xE5], false)]) = .ok .ack ∧
      (∀ e, ¬ Frame.ack.Answers .decided allF e) ∧
      ¬ (Frame.ack = .ack ∧ (selecting allF [.ok] []).cfg.selAckIsSingle = true)) :=
  ⟨by decide, ⟨by decide, by decide, by decide⟩, by decide, by decide, by decide, (fun _ h => nomatch (show none = some _ from h.1)), by decide⟩
theorem witness_SelectIsolatesOneDevice :
    (let s := selecting allF [.ok, .ok] [bytes reply1, timeout]
     s.busy = false ∧ s.sel.active = true ∧ s.sendQ = .ok :: .ok :: [] ∧
      s.recvQ = windowAnswers [(reply1, false)] ⟨.timeout, false⟩ ++ []) ∧
    (let f : Frame := .long 8 1 0x72 [0x12, 0x34, 0x56, 0x78, 0x24, 0x23, 0x01, 0x07, 0x07, 0, 0, 0]
     closedDecode .decided (windowBytes [(reply1, false)]) = .ok f ∧ f.Answers .decided allF device1) :=
  ⟨by decide, by decide, rfl, by decide +kernel, by decide +kernel⟩
theorem witness_SelectTakesALoneAckAsConfigured :
    let s := { selecting allF [.ok, .transportError] [bytes [0xE5], timeout] with
      cfg := { Config.Params.decided with selAckIsSingle := true } }
    s.busy = false ∧ s.sel.active = true ∧ s.sendQ = .ok :: .transportError :: [] ∧
      s.recvQ = windowAnswers [([0xE5], false)] ⟨.timeout, false⟩ ++ [] ∧
      windowBytes [([0xE5], false)] = [s.cfg.ackByte] ∧ s.cfg.selAckIsSingle = true := by decide
theorem witness_TwoRepliesAreACollision :
    let w := longFrame .decided 8 1 0x72 [1] ++ longFrame .decided 8 2 0x72 []
    let s := selecting allF [.ok] [bytes w, timeout]
    s.cfg.Ok ∧ s.busy = false ∧ s.sel.active = true ∧ s.sendQ = .ok :: [] ∧
      s.recvQ = windowAnswers [(w, false)] ⟨.timeout, false⟩ ++ [] ∧ ([1] : List Byte).length ≤ 252 ∧
      ([] : List Byte).length ≤ 252 ∧
      windowBytes [(w, false)] = longFrame s.cfg 8 1 0x72 [1] ++ longFrame s.cfg 8 2 0x72 [] := by decide +kernel
/-- The three kinds of first answer; bytes that are truncated with no time left, and whole bytes with time left. -/
theorem witness_AwaitReplyMapsTheFirstRead :
    (waiting [timeout]).busy = true ∧ (waiting [timeout]).recvQ = ⟨.timeout, false⟩ :: [] ∧
    (waiting [broken]).recvQ = ⟨.transportError, false⟩ :: [] ∧
    ((waiting [bytes []]).recvQ = ⟨.bytes [], false⟩ :: [] ∧
      (false = true → closedDecode .decided [] ≠ .err .truncated)) ∧
    ((waiting [bytesInTime [0xE5]]).recvQ = ⟨.bytes [0xE5], true⟩ :: [] ∧
      (true = true → closedDecode .decided [0xE5] ≠ .err .truncated)) := by decide
theorem witness_AwaitReplyReadsOnceMore :
    closedDecode State.reset.cfg [0x68, 0x15] = .err .truncated ∧ (waiting []).busy = true ∧
    (waiting [bytesInTime [0x68, 0x15], timeout]).recvQ = ⟨.bytes [0x68, 0x15], true⟩ :: ⟨.timeout, false⟩ :: [] ∧
    (waiting [bytesInTime [0x68, 0x15], broken]).recvQ = ⟨.bytes [0x68, 0x15], true⟩ :: ⟨.transportError, false⟩ :: [] ∧
    (waiting [bytesInTime [0x68, 0x15], bytes []]).recvQ = ⟨.bytes [0x68, 0x15], true⟩ :: ⟨.bytes [], false⟩ :: [] := by
  decide
theorem witness_ReqDataIsItsThreeParts :
    (let s := targeting 250 [.ok] []
     s.busy = false ∧ (s.target ≤ s.cfg.primaryMax ∨ s.target = s.cfg.netAddr) ∧ s.sendQ = .ok :: []) ∧
    (let s := targeting 0xFD [.transportError] []
     s.busy = false ∧ (s.target ≤ s.cfg.primaryMax ∨ s.target = s.cfg.netAddr) ∧ s.sendQ = .transportError :: []) := by
  decide
theorem witness_ReqDataSendsOneRequest :
    let s := targeting 0xFD [.ok] [bytes [0xE5]]
    s.busy = false ∧ (s.target ≤ s.cfg.primaryMax ∨ s.target = s.cfg.netAddr) ∧ s.sendQ = .ok :: [] ∧
      s.recvQ = ⟨.bytes [0xE5], false⟩ :: [] ∧ (false = true → closedDecode s.cfg [0xE5] ≠ .err .truncated) := by decide
theorem witness_ExchangesAreRefusedBeforeTheyAct :
    (waiting []).busy = true ∧ State.reset.busy = false ∧ State.reset.sel.active = false ∧
    (let s := targeting 251 [] []
     s.busy = false ∧ ¬ (s.target ≤ s.cfg.primaryMax ∨ s.target = s.cfg.netAddr)) := by decide
theorem witness_RefusalChangesNothingElse :
    State.reset.phase = .idle ∧ ∃ t, exec .awaitReply State.reset = .next t ∧ t.phase = .idle ∧ t.refused = true :=
  ⟨rfl, _, rfl, rfl, rfl⟩
theorem witness_LateAnswersMakeNoDifference :
    loaded.phase = .idle ∧ ∃ t, exec .send loaded = .next t ∧ t.phase ≠ .idle := ⟨rfl, _, rfl, by decide⟩
theorem witness_WaitingChangesNothing :
    let s := { State.reset with phase := .window [0x68] }
    s.cfg.Ok ∧ s.phase ≠ .idle ∧ s.sendQ = [] ∧ s.recvQ = [] := by decide
theorem witness_AnsweredOperationsEnd :
    let s := selecting allF [.ok, .ok] [timeout, timeout]
    s.phase = .idle ∧ 2 ≤ s.sendQ.length ∧ 2 ≤ s.recvQ.length ∧ (∃ r ∈ s.recvQ, ∀ b, r.result ≠ .bytes b) ∧
      ∃ t, exec .select s = .next t :=
  ⟨rfl, by decide, by decide, ⟨timeout, by decide, fun _ h => by cases h⟩, _, rfl⟩

/-- A state that is not the reset state: a short frame is in TXBUF, a payload length is set, the host is about to write
a CMD byte. -/
def ready (v : Byte) : State := { loaded with tx := ⟨8, 1, 0x72, 1⟩, input := [.write 0 v] }

theorem ready_inv (v : Byte) : (ready v).Inv where
  cfg := by show Config.Params.decided.Ok; decide
  memWf := by show Memory.wf loaded.mem; decide
  memIn := by show ∀ c ∈ loaded.mem, InBuffer c.1; decide
  txbufLen := by show loaded.txbufLen.toNat ≤ 261; decide
  txbuf := by
    show ∀ i, i < 5 → (Memory.read loaded.mem (0x300 + i)).isSome
    decide
  placed := trivial
  stored := fun h => by rcases h with h | h | h <;> cases h
  latched := ⟨rfl, .inl rfl, (by intro h; cases h), (by intro _; rfl)⟩
  payload := fun i h => absurd h (Nat.not_lt_zero i)
  reason := fun h => by cases h
  echoed := fun h => by cases h
  phase := trivial

theorem witness_StepKeepsTheInvariant : (ready 6).Inv ∧ ∃ t, step (ready 6) = .next t := ⟨ready_inv 6, _, rfl⟩
theorem witness_OnlyAnUnwrittenPayloadStops :
    ((ready 3).Inv ∧ step (ready 3) = .fault (.unwrittenCell .txPay)) ∧
    ((ready 3).tx.len.toNat ≤ 252 ∧ 0 < (ready 3).tx.len.toNat ∧ Memory.read (ready 3).mem (0x100 + 0) = none) :=
  ⟨⟨ready_inv 3, rfl⟩, by decide⟩

/-- R232: with an operation still to be issued a run has not ended. -/
theorem test_pending_action_has_not_ended : ¬ (State.reset.given [.write 0 0] [] []).EndedCleanly := fun h => nomatch h.1.1
/-- 2.9, R232: two host actions, the answers used up, a clean end. -/
theorem test_request_run_ends_cleanly :
    ∃ t, RunEndsIn [.write 7 1, .write 0 0x0F] [.ok] [bytes [0xE5]] t ∧ t.EndedCleanly :=
  ⟨_, ⟨⟨2, rfl⟩, rfl, rfl⟩, ⟨rfl, rfl⟩, rfl, rfl⟩
theorem witness_ARunEndsInOneState :
    (State.reset.cfg.Ok ∧ State.reset.Ended) ∧
    (∃ t, (State.reset.given [.write 0 0x0B] [] []).EndsIn t) ∧ State.reset.EndedCleanly :=
  ⟨⟨by decide, rfl, rfl⟩, ⟨_, ⟨1, rfl⟩, rfl, rfl⟩, ⟨rfl, rfl⟩, rfl, rfl⟩

end Sys2Proof.Tests
end

