-- ==== Sys2Proof/Proofs/Codec.lean ====
section
/-! Decoding inverts encoding (30_encoding.md R61 to R68, R71, R78): one equation of the decoder per kind of unit. -/

namespace Sys2Proof

theorem toNat_lengthField {n : Nat} (h : n ≤ Config.payloadMax) : (lengthField n).toNat = n + Config.lenOverhead := by
  simp only [Config.payloadMax] at h
  simp only [lengthField, Config.lenOverhead, BitVec.toNat_ofNat]
  omega

theorem decodeWire_ack (cfg : Config.Params) (more : List Byte) :
    decodeWire cfg (cfg.ackByte :: more) = .ok (.ack, more) := by
  simp [decodeWire]

theorem decodeWire_short {cfg : Config.Params} (hcfg : cfg.Ok) (c a cs stop : Byte) (more : List Byte) :
    decodeWire cfg (cfg.startShort :: c :: a :: cs :: stop :: more) = .ok (.short c a cs stop, more) := by
  obtain ⟨ackNeShort, -, -⟩ := hcfg
  simp [decodeWire, ackNeShort.symm]

/-- After a header whose length field is legal, the body is what is left to decode (R68, R76). -/
theorem decodeWire_longHeader {cfg : Config.Params} (hcfg : cfg.Ok) {n : Nat} (hn : n ≤ Config.payloadMax)
    (body : List Byte) : decodeWire cfg (longHeader cfg n ++ body) = decodeBody (lengthField n) body := by
  obtain ⟨-, ackNeLong, shortNeLong⟩ := hcfg
  have hlen : ¬ (lengthField n).toNat < Config.lenOverhead := by rw [toNat_lengthField hn]; omega
  simp [decodeWire, longHeader, ackNeLong.symm, shortNeLong.symm, hlen]

theorem decodeBody_control (c a ci cs stop : Byte) (more : List Byte) :
    decodeBody (lengthField 0) (c :: a :: ci :: cs :: stop :: more) = .ok (.control c a ci cs stop, more) := by
  simp [decodeBody, toNat_lengthField (Nat.zero_le _)]

/-- The length field cuts the payload out of the body (R68). -/
theorem decodeBody_long {p : List Byte} (hpos : 1 ≤ p.length) (hmax : p.length ≤ Config.payloadMax)
    (c a ci cs stop : Byte) (more : List Byte) :
    decodeBody (lengthField p.length) (c :: a :: ci :: (p ++ cs :: stop :: more)) =
      .ok (.long c a ci p cs stop, more) := by
  have hne : p ≠ [] := List.ne_nil_of_length_pos hpos
  simp [decodeBody, toNat_lengthField hmax, hne]

/-- The table of R78, read back: an operation's byte is its code. -/
theorem decodeAt_cmd_encode {cfg : Config.Params} {i : Instr} (hi : i.format = .cmd) (rest : List Byte) :
    decodeAt cfg .cmd (encode cfg i ++ rest) = .ok (i, rest) := by
  cases i with
  | ack | short | control | long => cases hi
  | _ => rfl

theorem decodeWire_encode {cfg : Config.Params} {i : Instr} (hcfg : cfg.Ok) (hwf : i.WellFormed)
    (hi : i.format = .wire) (rest : List Byte) : decodeWire cfg (encode cfg i ++ rest) = .ok (i, rest) := by
  cases i with
  | ack => exact decodeWire_ack cfg rest
  | short c a cs stop => exact decodeWire_short hcfg c a cs stop rest
  | control c a ci cs stop =>
    rw [encode, List.append_assoc, decodeWire_longHeader hcfg (Nat.zero_le _)]
    exact decodeBody_control c a ci cs stop rest
  | long c a ci p cs stop =>
    obtain ⟨hpos, hmax⟩ : 1 ≤ p.length ∧ p.length ≤ Config.payloadMax := by
      simpa only [Instr.WellFormed, Instr.wf, Bool.and_eq_true, decide_eq_true_eq] using hwf
    simp only [encode, List.append_assoc]
    rw [decodeWire_longHeader hcfg hmax]
    exact decodeBody_long hpos hmax c a ci cs stop rest
  | _ => cases hi

/-- Settles O1, port by port: a CMD byte by the table of operations, a wire unit by its kind. -/
theorem decodeInvertsEncode : Obligations.DecodeInvertsEncode := by
  intro cfg i rest hcfg hwf
  cases hi : i.format with
  | cmd => exact decodeAt_cmd_encode hi rest
  | wire => exact decodeWire_encode hcfg hwf hi rest

end Sys2Proof
end

