-- ==== Sys2Proof/Proofs/Step.lean ====
section
/-! What a step does, by what it finds to do (00_scope.md R7). -/

namespace Sys2Proof.Machine

section
variable {s t : State} {i : Instr} {q : List Input}

theorem step_of_bad_configuration (hcfg : ¬ s.cfg.Ok) : step s = .fault .badConfiguration := if_neg hcfg

theorem step_in_progress (hcfg : s.cfg.Ok) (hp : s.phase ≠ .idle) : step s = resume s := by
  rw [step, if_pos hcfg, if_neg hp]

theorem step_of_fetch_instr (hcfg : s.cfg.Ok) (hp : s.phase = .idle) (hf : fetch s = .instr i t) :
    step s = exec i t := by
  rw [step, if_pos hcfg, if_pos hp, hf]

theorem step_of_fetch_done (hcfg : s.cfg.Ok) (hp : s.phase = .idle) (hf : fetch s = .done t) : step s = .next t := by
  rw [step, if_pos hcfg, if_pos hp, hf]

theorem fetch_nil (h : s.input = []) : fetch s = .done s := by rw [fetch, h]

theorem fetch_write_cmd {v : Byte} (h : s.input = .write 0 v :: q) : fetch s = fetchCmd v { s with input := q } := by
  rw [fetch, h]; rfl

theorem fetch_write {k : Nat} {v : Byte} (hk : k ≠ 0) (h : s.input = .write k v :: q) :
    fetch s = .done (hostWrite k v { s with input := q }) := by
  simp only [fetch, h, if_neg hk]

theorem fetch_read {k : Nat} (h : s.input = .read k :: q) : fetch s = .done (hostRead k { s with input := q }) := by
  rw [fetch, h]

theorem fetch_present {b : List Byte} (h : s.input = .present b :: q) :
    fetch s = .done { s with input := q, decodeArg := b } := by rw [fetch, h]

theorem fetch_wire {b : List Byte} (h : s.input = .wire b :: q) : fetch s = fetchWire b q { s with input := q } := by
  rw [fetch, h]

theorem fetchCmd_ok {v : Byte} (h : decodeCmd v = .ok i) : fetchCmd v s = .instr i s := by rw [fetchCmd, h]

theorem fetchWire_ok {b more : List Byte} (h : decodeWire s.cfg b = .ok (i, more)) :
    fetchWire b q s = .instr i { s with input := pushWire more q } := by simp only [fetchWire, h]

theorem fetchWire_no_unit {v : Byte} {more : List Byte} {e : Reject} (h : decodeWire s.cfg (v :: more) = .error e) :
    fetchWire (v :: more) q s = .done ({ s with input := pushWire more q }.rxByte v) := by simp only [fetchWire, h]

end

/-- Settles O5: both ports give `exec` what they decode. -/
theorem stepRunsTheDecodedInstruction : Obligations.StepRunsTheDecodedInstruction := by
  intro s i q hcfg hp
  constructor
  · intro v hin hdec
    exact step_of_fetch_instr hcfg hp ((fetch_write_cmd hin).trans (fetchCmd_ok hdec))
  · intro b more hin hdec
    exact step_of_fetch_instr hcfg hp ((fetch_wire hin).trans (fetchWire_ok hdec))

/-- Settles O6, one equation of the step per case. -/
theorem stepWithoutAnInstruction : Obligations.StepWithoutAnInstruction := by
  intro s q
  refine ⟨step_of_bad_configuration, step_in_progress, fun hcfg hp => ⟨?nothing, ?write, ?read, ?present, ?wire⟩⟩
  case nothing => exact fun hin => step_of_fetch_done hcfg hp (fetch_nil hin)
  case write => exact fun k v hk hin => step_of_fetch_done hcfg hp (fetch_write hk hin)
  case read => exact fun k hin => step_of_fetch_done hcfg hp (fetch_read hin)
  case present => exact fun b hin => step_of_fetch_done hcfg hp (fetch_present hin)
  case wire =>
    exact fun b bs e hin hdec => step_of_fetch_done hcfg hp ((fetch_wire hin).trans (fetchWire_no_unit hdec))

end Sys2Proof.Machine
end

