-- ==== Sys2Proof/Proofs/RunEnd.lean ====
section
/-! The end of a run (70_reset_and_hazards.md R232). -/

namespace Sys2Proof.Machine

theorem State.Ended.step_eq {s : State} (h : s.Ended) (hcfg : s.cfg.Ok) : step s = .next s := by
  obtain ⟨hinput, hphase⟩ := h
  exact step_of_fetch_done hcfg hphase (fetch_nil hinput)

/-- A run that goes on from an ended state gets nowhere else. With a configuration that R4 excludes it faults. -/
theorem State.Ended.run_eq {s t : State} (h : s.Ended) {k : Nat} (hr : Sys2Proof.core.run k s = .next t) : t = s := by
  induction k with
  | zero => cases hr; rfl
  | succ k ih =>
    by_cases hcfg : s.cfg.Ok
    · rw [run_succ_next k (h.step_eq hcfg)] at hr
      exact ih hr
    · rw [run_succ_fault k (step_of_bad_configuration hcfg)] at hr
      cases hr

/-- Of two runs from a state, the longer one passes through the end of the shorter one. -/
theorem State.Ended.eq_of_run_le {s t t' : State} {j k : Nat} (ht : t.Ended) (hjk : j ≤ k)
    (hj : Sys2Proof.core.run j s = .next t) (hk : Sys2Proof.core.run k s = .next t') : t' = t := by
  obtain ⟨d, rfl⟩ := Nat.exists_eq_add_of_le hjk
  rw [run_add d hj] at hk
  exact ht.run_eq hk

theorem State.EndsIn.unique {s t t' : State} (h : s.EndsIn t) (h' : s.EndsIn t') : t = t' := by
  obtain ⟨⟨j, hj⟩, ht⟩ := h
  obtain ⟨⟨k, hk⟩, ht'⟩ := h'
  rcases Nat.le_total j k with hjk | hkj
  · exact (ht.eq_of_run_le hjk hj hk).symm
  · exact ht'.eq_of_run_le hkj hk hj

/-- A flag is at its bit and at no other. -/
theorem getLsbD_flagAt (f : Bool) {bit i : Nat} (hi : i < 8) : (flagAt f bit).getLsbD i = (f && decide (i = bit)) := by
  cases f with
  | false => simp [flagAt]
  | true =>
    simp only [flagAt, if_true, BitVec.getLsbD_shiftLeft, BitVec.getLsbD_one]
    grind

theorem statusReg_busy (s : State) : (statusReg s).getLsbD 0 = s.busy := by
  have bit0 (f : Bool) (bit : Nat) := getLsbD_flagAt f (bit := bit) (i := 0) (by decide)
  simp only [statusReg, BitVec.getLsbD_or, bit0]
  simp

theorem statusReg_rxPending (s : State) : (statusReg s).getLsbD 2 = rxPending s := by
  have bit2 (f : Bool) (bit : Nat) := getLsbD_flagAt f (bit := bit) (i := 2) (by decide)
  simp only [statusReg, BitVec.getLsbD_or, bit2]
  simp

theorem rxPending_eq_false {s : State} : rxPending s = false ↔ s.rx.state = .idle := by simp [rxPending]

/-- Settles O60: an ended state is a fixed point of the step, so that two runs that end agree; the two bits of STATUS
are BUSY and RX_PENDING. -/
theorem aRunEndsInOneState : Obligations.ARunEndsInOneState := by
  refine ⟨fun s hcfg h => h.step_eq hcfg, fun s t t' => State.EndsIn.unique, fun s => ?_⟩
  rw [statusReg_busy, statusReg_rxPending, rxPending_eq_false, State.EndedCleanly]

end Sys2Proof.Machine
end

