-- ==== Sys2Proof/Proofs/InvParts.lean ====
section
/-! The invariant in parts, each a predicate of the registers it speaks of, so that an update of other registers keeps it
by definition. `State.inv_iff` ties them to `State.Inv`. -/

namespace Sys2Proof.Machine

/-- The first `n` cells of a buffer hold values. -/
def Memory.Filled (m : List Host.Cell) (b : Buffer) (n : Nat) : Prop :=
  ∀ i, i < n → (Memory.read m (b.base + i)).isSome

/-- Every cell that holds a value in the first memory holds one in the second. -/
def Memory.Grows (m m' : List Host.Cell) : Prop := ∀ i, (Memory.read m i).isSome → (Memory.read m' i).isSome

/-- The memory and TXBUF_LEN (10_state.md R12, 20_memory.md R54). -/
structure Memory.Ok (m : List Host.Cell) (txbufLen : BitVec 9) : Prop where
  wf : Memory.wf m
  inBuffer : ∀ c ∈ m, InBuffer c.1
  bound : txbufLen.toNat ≤ 261
  frame : Memory.Filled m .txbuf txbufLen.toNat

/-- The receiver and what it has stored (41_decode.md R114 to R116, 10_state.md R18). -/
structure Rx.Ok (r : Rx) (m : List Host.Cell) : Prop where
  placed : r.Placed
  stored : r.InBody → Memory.Filled m .rxPay r.cnt.toNat
  latched : r.Latched
  payload : Memory.Filled m .rxPay r.len.toNat

/-- SEL_ADDR_VALID goes with Single and a fully concrete address (42_addressing.md R150). -/
def Sel.Ok (cfg : Config.Params) (x : Sel) : Prop :=
  x.addrValid = true → x.outcome = some .single ∧ Concrete cfg x.addr

/-- The invariant without what it says of an operation in progress. -/
structure State.Core (s : State) : Prop where
  cfg : s.cfg.Ok
  mem : Memory.Ok s.mem s.txbufLen
  rx : s.rx.Ok s.mem
  reason : s.refused = true → s.refuseReason ≠ none
  sel : s.sel.Ok s.cfg

theorem State.inv_iff {s : State} : s.Inv ↔ s.Core ∧ s.PhaseOk := by
  constructor
  · intro h
    exact ⟨⟨h.cfg, ⟨h.memWf, h.memIn, h.txbufLen, h.txbuf⟩, ⟨h.placed, h.stored, h.latched, h.payload⟩, h.reason,
      h.echoed⟩, h.phase⟩
  · rintro ⟨⟨cfg, mem, rx, reason, sel⟩, phase⟩
    exact ⟨cfg, mem.wf, mem.inBuffer, mem.bound, mem.frame, rx.placed, rx.stored, rx.latched, rx.payload, reason, sel,
      phase⟩

theorem State.phaseOk_of_idle {s : State} (h : s.phase = .idle) : s.PhaseOk := by
  simp only [State.PhaseOk, h]

theorem State.Core.inv_of_idle {s : State} (h : s.Core) (hp : s.phase = .idle) : s.Inv :=
  State.inv_iff.2 ⟨h, State.phaseOk_of_idle hp⟩

/-- In a selection without an outcome no address is valid. -/
theorem State.Core.addrValid_of_no_outcome {s : State} (h : s.Core) (ho : s.sel.outcome = none) :
    s.sel.addrValid = false := by
  cases hv : s.sel.addrValid with
  | false => rfl
  | true =>
    obtain ⟨single, -⟩ := h.sel hv
    rw [ho] at single
    cases single

end Sys2Proof.Machine
end

