-- ==== Sys2Proof/Proofs/InvMemory.lean ====
section
/-! The memory's part of the invariant: stores of the host, of the encoder and of the receiver keep it. -/

namespace Sys2Proof.Machine

theorem Memory.Filled.grow {m m' : List Host.Cell} {b : Buffer} {n : Nat} (h : Memory.Filled m b n)
    (hg : Memory.Grows m m') : Memory.Filled m' b n := fun i hi => hg _ (h i hi)

theorem Memory.filled_zero (m : List Host.Cell) (b : Buffer) : Memory.Filled m b 0 :=
  fun _ hi => absurd hi (Nat.not_lt_zero _)

theorem Memory.Grows.refl (m : List Host.Cell) : Memory.Grows m m := fun _ h => h

theorem Memory.grows_write (m : List Host.Cell) (a : Nat) (b : Byte) : Memory.Grows m (Memory.write m a b) := by
  intro i hi
  rw [Memory.read_write]
  split
  · rfl
  · exact hi

theorem Memory.grows_writeAll (m : List Host.Cell) (a : Nat) (bs : List Byte) :
    Memory.Grows m (Memory.writeAll m a bs) := by
  induction bs generalizing m a with
  | nil => exact Memory.Grows.refl m
  | cons b bs ih => exact fun i hi => ih _ _ i (Memory.grows_write m a b i hi)

/-- A byte written after the first `n` cells makes them `n + 1`. -/
theorem Memory.Filled.push {m : List Host.Cell} {b : Buffer} {n : Nat} (h : Memory.Filled m b n) (v : Byte) :
    Memory.Filled (Memory.write m (b.base + n) v) b (n + 1) := by
  intro i hi
  rcases Nat.lt_succ_iff_lt_or_eq.1 hi with hlt | rfl
  · exact Memory.grows_write m _ v _ (h i hlt)
  · rw [Memory.read_write_same]
    rfl

theorem Memory.Ok.write {m : List Host.Cell} {n : BitVec 9} (h : Memory.Ok m n) {a : Nat} (ha : InBuffer a)
    (b : Byte) : Memory.Ok (Memory.write m a b) n where
  wf := Memory.wf_write a b h.wf
  inBuffer c hc := by
    rcases Memory.mem_write hc with rfl | hc
    · exact ha
    · exact h.inBuffer c hc
  bound := h.bound
  frame := h.frame.grow (Memory.grows_write m a b)

/-- A frame of at most 261 bytes fits TXBUF and is there (10_state.md R12). -/
theorem Memory.Ok.load {m : List Host.Cell} {n : BitVec 9} (h : Memory.Ok m n) {f : List Byte}
    (hf : f.length ≤ 261) :
    Memory.Ok (Memory.writeAll m Buffer.txbuf.base f) (BitVec.ofNat 9 f.length) := by
  have hlen : (BitVec.ofNat 9 f.length).toNat = f.length := by rw [BitVec.toNat_ofNat]; omega
  refine ⟨Memory.wf_writeAll _ _ h.wf, fun c hc => ?_, by omega, fun i hi => ?_⟩
  · rcases Memory.mem_writeAll hc with ⟨hlo, hhi⟩ | hc
    · refine .inr (.inr ⟨hlo, ?_⟩)
      simp only [Buffer.size]
      omega
    · exact h.inBuffer c hc
  · rw [hlen] at hi
    rw [Memory.read_writeAll_inside _ _ _ hi]
    rfl

theorem Memory.ok_nil : Memory.Ok [] 0 :=
  ⟨List.Pairwise.nil, fun _ hc => absurd hc List.not_mem_nil, Nat.zero_le _, Memory.filled_zero _ _⟩

/-- The receiver stores nothing, or a byte in a cell of RX_PAY (41_decode.md R115). -/
theorem Rx.store_cases (r : Rx) (m : List Host.Cell) (b : Byte) :
    r.store m b = m ∨ ∃ a, Buffer.rxPay.Holds a ∧ r.store m b = Memory.write m a b := by
  unfold Rx.store
  split
  · unfold storeRxPay
    split
    · next hlt => exact .inr ⟨_, ⟨Nat.le_add_right _ _, Nat.add_lt_add_left hlt _⟩, rfl⟩
    · exact .inl rfl
  all_goals exact .inl rfl

theorem Rx.grows_store (r : Rx) (m : List Host.Cell) (b : Byte) : Memory.Grows m (r.store m b) :=
  fun _ => Rx.isSome_store r m b

theorem Memory.Ok.store {m : List Host.Cell} {n : BitVec 9} (h : Memory.Ok m n) (r : Rx) (b : Byte) :
    Memory.Ok (r.store m b) n := by
  rcases Rx.store_cases r m b with hs | ⟨a, ha, hs⟩
  · rwa [hs]
  · rw [hs]
    exact h.write (.inr (.inl ha)) b

end Sys2Proof.Machine
end

