-- ==== Sys2Proof/Proofs/InvReceiver.lean ====
section
/-! The receiver's part of the invariant: a byte keeps it, whether it produces an event (the event is then all that
changes) or not (the last event then stays, and the place in the frame moves on). -/

namespace Sys2Proof.Machine

theorem Rx.Ok.grow {r : Rx} {m m' : List Host.Cell} (h : r.Ok m) (hg : Memory.Grows m m') : r.Ok m' :=
  ⟨h.placed, fun hb => (h.stored hb).grow hg, h.latched, h.payload.grow hg⟩

theorem Rx.placed_of_idle {r : Rx} (h : r.state = .idle) : r.Placed := by simp only [Rx.Placed, h]

theorem Rx.not_inBody_of_idle {r : Rx} (h : r.state = .idle) : ¬ r.InBody := by simp [Rx.InBody, h]

/-- A cleared receiver is good with any memory (10_state.md R26). -/
theorem Rx.clear_ok (r : Rx) (m : List Host.Cell) : r.clear.Ok m where
  placed := Rx.placed_of_idle rfl
  stored hb := absurd hb (Rx.not_inBody_of_idle rfl)
  latched := ⟨rfl, .inl rfl, nofun, fun _ => rfl⟩
  payload := Memory.filled_zero m _

/-- A long frame ends at LG_STOP of a frame whose length field is not 3 (41_decode.md R116). -/
theorem Rx.next_long {cfg : Config.Params} {r : Rx} {b : Byte} (h : (r.next cfg b).2 = some (.ok .long)) :
    r.state = .lgStop ∧ r.l ≠ 3 := by
  unfold Rx.next at h
  cases hs : r.state <;> simp only [hs] at h <;> grind

/-- RX_LEN of a long frame is the number of payload bytes that have been stored (10_state.md R18). -/
theorem Rx.Placed.long_len {r : Rx} (h : r.Placed) (hs : r.state = .lgStop) :
    (r.emit (.ok .long)).len.toNat = r.cnt.toNat := by
  have hplace : r.cnt.toNat + 3 = r.l.toNat := by simpa only [Rx.Placed, hs] using h
  rw [Rx.emit_long_len]
  bv_omega

theorem Rx.Placed.long_len_bounds {r : Rx} (h : r.Placed) (hs : r.state = .lgStop) (hl : r.l ≠ 3) :
    1 ≤ (r.emit (.ok .long)).len.toNat ∧ (r.emit (.ok .long)).len.toNat ≤ 252 := by
  have hplace : r.cnt.toNat + 3 = r.l.toNat := by simpa only [Rx.Placed, hs] using h
  rw [h.long_len hs]
  constructor <;> bv_omega

/-- Latching an event keeps the receiver good; a long frame must have come to its end. -/
theorem Rx.Ok.emit {r : Rx} {m : List Host.Cell} (h : r.Ok m) {e : Event}
    (he : e = .ok .long → r.state = .lgStop ∧ r.l ≠ 3) : (r.emit e).Ok m := by
  refine ⟨Rx.placed_of_idle (Rx.emit_state r e), fun hb => absurd hb (Rx.not_inBody_of_idle (Rx.emit_state r e)), ?_, ?_⟩
  · cases e with
    | err x => exact ⟨rfl, .inl rfl, nofun, fun _ => rfl⟩
    | ok k =>
      cases k with
      | long =>
        obtain ⟨hs, hl⟩ := he rfl
        exact ⟨rfl, .inr rfl, fun _ => h.placed.long_len_bounds hs hl, fun hk => absurd rfl hk⟩
      | ack | short | control => exact ⟨rfl, .inr rfl, nofun, fun _ => rfl⟩
  · cases e with
    | err x => exact Memory.filled_zero m _
    | ok k =>
      cases k with
      | long =>
        obtain ⟨hs, -⟩ := he rfl
        rw [h.placed.long_len hs]
        exact h.stored (.inr (.inr hs))
      | ack | short | control => exact Memory.filled_zero m _

theorem Rx.Ok.emit_err {r : Rx} {m : List Host.Cell} (h : r.Ok m) (x : DecodeError) : (r.emit (.err x)).Ok m :=
  h.emit nofun

/-- In LG_DATA the counter is below the size of RX_PAY and does not wrap. -/
theorem Rx.Placed.cnt_succ {r : Rx} (h : r.Placed) (hs : r.state = .lgData) :
    r.cnt.toNat < 252 ∧ (r.cnt + 1).toNat = r.cnt.toNat + 1 := by
  have hplace : r.cnt.toNat + 3 < r.l.toNat := by simpa only [Rx.Placed, hs] using h
  constructor <;> bv_omega

/-- The place in the frame after a byte that produces no event (41_decode.md R112 to R116). -/
theorem Rx.Placed.next {cfg : Config.Params} {r : Rx} {b : Byte} (h : r.Placed) (hq : (r.next cfg b).2 = none) :
    (r.next cfg b).1.Placed := by
  cases hs : r.state with
  | shC | shA | shCs | lgL1 => simp [Rx.next, hs, Rx.Placed]
  | lgC | lgA => simpa [Rx.next, hs, Rx.Placed] using h
  | lgCs => simpa [Rx.next, hs, Rx.Placed] using h
  | idle =>
    simp only [Rx.next, hs] at hq ⊢
    split_ifs at hq ⊢ <;> trivial
  | shStop | lgStop =>
    simp only [Rx.next, hs] at hq
    split_ifs at hq 
  | lgL2 =>
    simp only [Rx.next, hs] at hq ⊢
    split_ifs at hq ⊢ with hbad
    simp only [Rx.Placed]
    bv_omega
  | lgStart2 =>
    have hlen : 3 ≤ r.l.toNat := by simpa only [Rx.Placed, hs] using h
    simp only [Rx.next, hs] at hq ⊢
    split_ifs at hq ⊢
    exact hlen
  | lgCi =>
    have hlen : 3 ≤ r.l.toNat := by simpa only [Rx.Placed, hs] using h
    simp only [Rx.next, hs]
    by_cases hl : r.l = 3
    · simp [hl, Rx.Placed]
    · simp only [if_neg hl, Rx.Placed]
      bv_omega
  | lgData =>
    have hplace : r.cnt.toNat + 3 < r.l.toNat := by simpa only [Rx.Placed, hs] using h
    simp only [Rx.next, hs]
    by_cases hlast : r.cnt + 1 = r.l - 3
    · simp only [if_pos hlast, Rx.Placed]
      bv_omega
    · simp only [if_neg hlast, Rx.Placed]
      bv_omega

/-- A byte after which RX_CNT counts stored payload came in LG_CI, LG_DATA or LG_CS. -/
theorem Rx.inBody_of_next {cfg : Config.Params} {r : Rx} {b : Byte} (h : (r.next cfg b).1.InBody) :
    r.state = .lgCi ∨ r.state = .lgData ∨ r.state = .lgCs := by
  cases hs : r.state with
  | lgCi => exact .inl rfl
  | lgData => exact .inr (.inl rfl)
  | lgCs => exact .inr (.inr rfl)
  | _ =>
    simp only [Rx.next, hs, Rx.InBody] at h
    grind [Rx.emit_state]

/-- The payload bytes counted after a byte have been stored (41_decode.md R115). -/
theorem Rx.Ok.stored_next {cfg : Config.Params} {r : Rx} {m : List Host.Cell} {b : Byte} (h : r.Ok m)
    (hb : (r.next cfg b).1.InBody) : Memory.Filled (r.store m b) .rxPay (r.next cfg b).1.cnt.toNat := by
  rcases Rx.inBody_of_next hb with hs | hs | hs
  · have hcnt : (r.next cfg b).1.cnt = 0 := by simp only [Rx.next, hs]
    rw [hcnt]
    exact Memory.filled_zero _ _
  · obtain ⟨hlt, hsucc⟩ := h.placed.cnt_succ hs
    have hcnt : (r.next cfg b).1.cnt = r.cnt + 1 := by simp only [Rx.next, hs]
    have hstore : r.store m b = Memory.write m (Buffer.rxPay.base + r.cnt.toNat) b := by
      simp only [Rx.store, hs, storeRxPay]
      exact if_pos hlt
    rw [hcnt, hsucc, hstore]
    exact (h.stored (.inl hs)).push b
  · have hcnt : (r.next cfg b).1.cnt = r.cnt := by simp only [Rx.next, hs]
    have hstore : r.store m b = m := by simp only [Rx.store, hs]
    rw [hcnt, hstore]
    exact h.stored (.inr (.inl hs))

/-- The receiver takes a byte (41_decode.md R111). -/
theorem Rx.Ok.next {r : Rx} {m : List Host.Cell} (h : r.Ok m) (cfg : Config.Params) (b : Byte) :
    (r.next cfg b).1.Ok (r.store m b) := by
  have hgrown : r.Ok (r.store m b) := h.grow (Rx.grows_store r m b)
  cases he : (r.next cfg b).2 with
  | some e =>
    rw [Rx.next_event he]
    exact hgrown.emit fun hlong => Rx.next_long (hlong ▸ he)
  | none =>
    obtain ⟨hkind, herr, hvalid, hlen, -⟩ := Rx.next_quiet he
    refine ⟨h.placed.next he, h.stored_next, ⟨?_, ?_, ?_, ?_⟩, hlen ▸ hgrown.payload⟩
    · rw [hkind, herr, hvalid]; exact h.latched.valid
    · rw [hkind, herr]; exact h.latched.one
    · rw [hkind, hlen]; exact h.latched.long
    · rw [hkind, hlen]; exact h.latched.short

end Sys2Proof.Machine
end

