-- ==== Sys2Proof/Proofs/InvState.lean ====
section
/-! Every named update of the state keeps the invariant's parts. -/

namespace Sys2Proof.Machine

section
/-! Updates of registers that no part speaks of, and of REFUSED and the receiver -/
variable {s : State} (h : s.Core)
include h

theorem State.Core.refuse (r : RefuseReason) : (s.refuse r).Core := ⟨h.cfg, h.mem, h.rx, nofun, h.sel⟩
theorem State.Core.accept : s.accept.Core := ⟨h.cfg, h.mem, h.rx, nofun, h.sel⟩
theorem State.Core.waitIn (p : Phase) : (s.waitIn p).Core := ⟨h.cfg, h.mem, h.rx, h.reason, h.sel⟩
theorem State.Core.handOver (f : List Byte) : (s.handOver f).Core := ⟨h.cfg, h.mem, h.rx, h.reason, h.sel⟩
theorem State.Core.received (r : RecvInput) (q : List RecvInput) : (s.received r q).Core :=
  ⟨h.cfg, h.mem, h.rx, h.reason, h.sel⟩
theorem State.Core.sendFailed : s.sendFailed.Core := ⟨h.cfg, h.mem, h.rx, h.reason, h.sel⟩
theorem State.Core.sendDone : s.sendDone.Core := ⟨h.cfg, h.mem, h.rx, h.reason, h.sel⟩
theorem State.Core.finish (x : ExResult) : (s.finish x).Core := ⟨h.cfg, h.mem, h.rx, h.reason, h.sel⟩
theorem State.Core.setInput (q : List Input) : ({ s with input := q } : State).Core :=
  ⟨h.cfg, h.mem, h.rx, h.reason, h.sel⟩
theorem State.Core.setBusy (b : Bool) : ({ s with busy := b } : State).Core :=
  ⟨h.cfg, h.mem, h.rx, h.reason, h.sel⟩
theorem State.Core.answered (q : List SendResult) : ({ s with sendQ := q, phase := .idle } : State).Core :=
  ⟨h.cfg, h.mem, h.rx, h.reason, h.sel⟩

theorem State.Core.rxClear : s.rxClear.Core := ⟨h.cfg, h.mem, Rx.clear_ok _ _, h.reason, h.sel⟩
theorem State.Core.emit_err (x : DecodeError) : (s.emit (.err x)).Core :=
  ⟨h.cfg, h.mem, h.rx.emit_err x, h.reason, h.sel⟩
theorem State.Core.takeByte (b : Byte) : (s.takeByte b).Core :=
  ⟨h.cfg, h.mem.store _ b, h.rx.next s.cfg b, h.reason, h.sel⟩

theorem State.Core.loadTx {f : List Byte} (hf : f.length ≤ 261) : (s.loadTx f).Core :=
  ⟨h.cfg, h.mem.load hf, h.rx.grow (Memory.grows_writeAll _ _ _), h.reason, h.sel⟩

/-- An outcome without an address (42_addressing.md R150). -/
theorem State.Core.outcome (hv : s.sel.addrValid = false) (o : SelOutcome) : (s.outcome o).Core :=
  ⟨h.cfg, h.mem, h.rx, h.reason, fun hv' => absurd (hv.symm.trans hv') Bool.false_ne_true⟩

/-- Single with the address a device has echoed (42_addressing.md R150). -/
theorem State.Core.echo_single {e : Addr} (he : Concrete s.cfg e) : ((s.echo e).outcome .single).Core :=
  ⟨h.cfg, h.mem, h.rx, h.reason, fun _ => ⟨rfl, he⟩⟩

end

section
/-! Frames fit TXBUF (R12) -/

theorem length_shortFrame (cfg : Config.Params) (c a : Byte) : (shortFrame cfg c a).length = 5 := rfl

theorem length_longFrame (cfg : Config.Params) (c a ci : Byte) (p : List Byte) :
    (longFrame cfg c a ci p).length = p.length + 9 := by
  simp [longFrame]

theorem length_selectFrame (cfg : Config.Params) (m : Addr) : (selectFrame cfg m).length = 17 := by
  simp [selectFrame, length_longFrame]

variable {s : State} (h : s.Core)
include h

theorem State.Core.loadShort (c a : Byte) : (s.loadTx (shortFrame s.cfg c a)).Core :=
  h.loadTx (by rw [length_shortFrame]; decide)

theorem State.Core.loadLong (c a ci : Byte) {p : List Byte} (hp : p.length ≤ Config.payloadMax) :
    (s.loadTx (longFrame s.cfg c a ci p)).Core :=
  h.loadTx (by rw [length_longFrame]; exact Nat.add_le_add_right hp 9)

theorem State.Core.buildRequest (t : Byte) : (s.buildRequest t).Core := (h.loadShort _ t).accept

theorem State.Core.buildSelect : s.buildSelect.Core :=
  (h.loadTx (by rw [length_selectFrame]; decide)).accept

end

section
/-! Runs of bytes -/
variable {s : State} (h : s.Core)
include h

theorem State.Core.feed (bs : List Byte) : (s.feed bs).Core := by
  induction bs generalizing s with
  | nil => exact h
  | cons b bs ih => exact ih (h.accept.takeByte b)

theorem State.Core.rxEnd : s.rxEnd.Core := by
  unfold State.rxEnd
  split
  · exact h.accept
  all_goals exact h.accept.emit_err _

theorem State.Core.decodeLoop (bs : List Byte) : (s.decodeLoop bs).Core := by
  induction bs generalizing s with
  | nil => exact h.emit_err _
  | cons b bs ih =>
    have hb := h.takeByte b
    rw [State.decodeLoop]
    split
    · exact ih hb
    · exact hb
    · split
      · exact hb
      · exact hb.emit_err _

theorem State.Core.decodeBuf (bs : List Byte) : (s.decodeBuf bs).Core := h.rxClear.accept.decodeLoop bs

end

section
/-! DECODE and the wire leave the rest alone (41_decode.md R119). -/
variable (s : State) (bs : List Byte)

@[simp] theorem State.decodeBuf_cfg : (s.decodeBuf bs).cfg = s.cfg := by rw [State.decodeBuf_eq]
@[simp] theorem State.decodeBuf_phase : (s.decodeBuf bs).phase = s.phase := by rw [State.decodeBuf_eq]
@[simp] theorem State.decodeBuf_busy : (s.decodeBuf bs).busy = s.busy := by rw [State.decodeBuf_eq]
@[simp] theorem State.decodeBuf_sel : (s.decodeBuf bs).sel = s.sel := by rw [State.decodeBuf_eq]

@[simp] theorem State.feed_cfg : (s.feed bs).cfg = s.cfg := by
  induction bs generalizing s with
  | nil => rfl
  | cons b bs ih => exact ih _

@[simp] theorem State.feed_phase : (s.feed bs).phase = s.phase := by
  induction bs generalizing s with
  | nil => rfl
  | cons b bs ih => exact ih _

@[simp] theorem State.rxEnd_cfg : s.rxEnd.cfg = s.cfg := by unfold State.rxEnd; split <;> rfl
@[simp] theorem State.rxEnd_phase : s.rxEnd.phase = s.phase := by unfold State.rxEnd; split <;> rfl

end

end Sys2Proof.Machine
end

