-- ==== Sys2Proof/Proofs/InvOperations.lean ====
section
/-! Every operation keeps the invariant. An operation that waits for an answer has one lemma for what follows the wait:
its hypothesis is what the waiting state's phase promises, so that it serves the operation's start and its
resumption. -/

namespace Sys2Proof.Machine

/-- Where an operation ends in a next state, that state meets the invariant and has this configuration. -/
def KeepsInv (cfg : Config.Params) : Result → Prop
  | .next t => t.Inv ∧ t.cfg = cfg
  | .fault _ | .refused _ => True

theorem KeepsInv.of_next {cfg : Config.Params} {o : Result} {t : State} (h : KeepsInv cfg o) (ho : o = .next t) :
    t.Inv ∧ t.cfg = cfg := by subst ho; exact h

section
variable {s : State}

/-- An operation that has ended. -/
theorem State.Core.keeps_idle {cfg : Config.Params} (h : s.Core) (hp : s.phase = .idle) (hc : s.cfg = cfg) :
    KeepsInv cfg (.next s) := ⟨h.inv_of_idle hp, hc⟩

/-- An operation that waits. -/
theorem State.Core.keeps_wait (h : s.Core) {p : Phase} (hw : (s.waitIn p).PhaseOk) :
    KeepsInv s.cfg (.next (s.waitIn p)) := ⟨State.inv_iff.2 ⟨h.waitIn p, hw⟩, rfl⟩

theorem State.PhaseOk.waitIn {p : Phase} (h : s.PhaseOk) (hp : s.phase = p) : (s.waitIn p).PhaseOk := by
  subst hp
  exact h

/-! SEND (R96) -/

theorem sendAnswered_keeps (h : s.Core) (hw : (s.waitIn .sendWait).PhaseOk) : KeepsInv s.cfg (sendAnswered s) := by
  unfold sendAnswered
  split
  · exact h.keeps_wait hw
  · next ht =>
    obtain ⟨q, -, rfl⟩ := State.takeSend_eq_some ht
    exact (h.answered q).sendFailed.accept.keeps_idle rfl rfl
  · next ht =>
    obtain ⟨q, -, rfl⟩ := State.takeSend_eq_some ht
    exact (h.answered q).sendDone.accept.keeps_idle rfl rfl

theorem execSend_keeps (h : s.Core) (hp : s.phase = .idle) : KeepsInv s.cfg (execSend s) := by
  unfold execSend
  split_ifs with hbusy hlen
  · exact (h.refuse _).keeps_idle hp rfl
  · exact (h.refuse _).keeps_idle hp rfl
  · split
    · exact sendAnswered_keeps (h.handOver _) (Bool.eq_false_iff.2 hbusy)
    · trivial

/-! AWAIT_REPLY (R170) -/

theorem awaitMore_keeps (h : s.Core) {b : List Byte} (hw : (s.waitIn (.awaitMore b)).PhaseOk) :
    KeepsInv s.cfg (awaitMore b s) := by
  unfold awaitMore
  split
  · exact h.keeps_wait hw
  · next r t ht =>
    obtain ⟨q, -, rfl⟩ := State.takeRecv_eq_some ht
    have hr := h.received r q
    split
    · exact (hr.finish _).keeps_idle rfl rfl
    · exact (hr.finish _).keeps_idle rfl rfl
    · exact ((hr.decodeBuf _).finish _).keeps_idle (by simp) (by simp)

theorem awaitFirst_keeps (h : s.Core) (hw : (s.waitIn .awaitFirst).PhaseOk) : KeepsInv s.cfg (awaitFirst s) := by
  have hbusy : s.busy = true := hw
  unfold awaitFirst
  split
  · exact h.keeps_wait hw
  · next r t ht =>
    obtain ⟨q, -, rfl⟩ := State.takeRecv_eq_some ht
    have hr := h.received r q
    split
    · exact (hr.finish _).keeps_idle rfl rfl
    · exact (hr.finish _).keeps_idle rfl rfl
    · next b _ =>
      have hd := hr.decodeBuf b
      dsimp only
      split_ifs with hmore
      · obtain ⟨htruncated, -⟩ := hmore
        simpa using awaitMore_keeps hd (b := b) ⟨by simpa using hbusy, htruncated⟩
      · exact (hd.finish _).keeps_idle (by simp) (by simp)

theorem awaitStart_keeps (h : s.Core) (hbusy : s.busy = true) : KeepsInv s.cfg (awaitStart s) := by
  have hcleared : ({ s.accept with exResult := none } : State).Core :=
    ⟨h.cfg, h.mem, h.rx, nofun, h.sel⟩
  exact awaitFirst_keeps hcleared.rxClear hbusy

theorem execAwaitReply_keeps (h : s.Core) (hp : s.phase = .idle) : KeepsInv s.cfg (execAwaitReply s) := by
  unfold execAwaitReply
  split_ifs with hbusy
  · exact (h.refuse _).keeps_idle hp rfl
  · exact awaitStart_keeps h (Bool.not_eq_false _ ▸ hbusy)

/-! REQ_DATA (R171) -/

theorem requestAnswered_keeps (h : s.Core) (hw : (s.waitIn .requestWait).PhaseOk) :
    KeepsInv s.cfg (requestAnswered s) := by
  unfold requestAnswered
  split
  · exact h.keeps_wait hw
  · next ht =>
    obtain ⟨q, -, rfl⟩ := State.takeSend_eq_some ht
    exact (h.answered q).sendFailed.accept.keeps_idle rfl rfl
  · next ht =>
    obtain ⟨q, -, rfl⟩ := State.takeSend_eq_some ht
    exact awaitStart_keeps (h.answered q).sendDone rfl

theorem execReqData_keeps (h : s.Core) (hp : s.phase = .idle) : KeepsInv s.cfg (execReqData s) := by
  by_cases hbusy : s.busy = true
  · rw [execReqData, if_pos hbusy]
    exact (h.refuse _).keeps_idle hp rfl
  · by_cases ht : IsTarget s.cfg s.target
    · have hfree : s.busy = false := Bool.eq_false_iff.2 hbusy
      rw [execReqData_accepted hfree ht]
      exact requestAnswered_keeps ((h.buildRequest _).handOver _) hfree
    · rw [execReqData, if_neg hbusy, if_neg ht]
      exact (h.refuse _).keeps_idle hp rfl

/-! SELECT (R148 to R151) -/

theorem step4Answered_keeps (h : s.Core) (hw : (s.waitIn .step4Wait).PhaseOk) :
    KeepsInv s.cfg (step4Answered s) := by
  unfold step4Answered
  split
  · exact h.keeps_wait hw
  · next ht =>
    obtain ⟨q, -, rfl⟩ := State.takeSend_eq_some ht
    exact (h.answered q).sendFailed.keeps_idle rfl rfl
  · next ht =>
    obtain ⟨q, -, rfl⟩ := State.takeSend_eq_some ht
    exact ((h.answered q).setBusy true).keeps_idle rfl rfl

theorem step4_keeps (h : s.Core) (hbusy : s.busy = false) (ho : s.sel.outcome = some .single) :
    KeepsInv s.cfg (step4 s) := by
  have hclosed : ({ s with sel := { s.sel with active := false }, target := s.cfg.netAddr } : State).Core :=
    ⟨h.cfg, h.mem, h.rx, h.reason, h.sel⟩
  rw [step4_eq]
  exact step4Answered_keeps ((hclosed.buildRequest _).handOver _) ⟨hbusy, rfl, ho, rfl⟩

theorem classifyFrame_keeps (h : s.Core) (hp : s.phase = .idle) (hbusy : s.busy = false)
    (hv : s.sel.addrValid = false) : KeepsInv s.cfg (classifyFrame s) := by
  have hunexpected : KeepsInv s.cfg (.next (s.outcome .unexpected)) := (h.outcome hv _).keeps_idle hp rfl
  unfold classifyFrame
  split
  · split_ifs
    · split
      · next e _ =>
        split_ifs with hmatch
        · obtain ⟨hconcrete, -⟩ := hmatch
          exact step4_keeps (h.echo_single hconcrete) hbusy rfl
        · exact hunexpected
      · trivial
    · exact hunexpected
  · split_ifs
    · exact step4_keeps (h.outcome hv _) hbusy rfl
    · exact hunexpected
  all_goals exact hunexpected

theorem classify_keeps (h : s.Core) (hp : s.phase = .idle) (hbusy : s.busy = false) (ho : s.sel.outcome = none)
    (w : List Byte) : KeepsInv s.cfg (classify w s) := by
  have hv := h.addrValid_of_no_outcome ho
  unfold classify
  split_ifs
  · exact (h.outcome hv _).keeps_idle hp rfl
  · have hd := h.decodeBuf w
    have hdv : (s.decodeBuf w).sel.addrValid = false := by simpa using hv
    dsimp only
    split
    · exact (hd.outcome hdv _).keeps_idle (by simpa using hp) (by simp)
    · simpa using classifyFrame_keeps hd (by simpa using hp) (by simpa using hbusy) hdv

/-- The window: what its phase promises is kept by each answer that brings bytes (R149). -/
theorem window_keeps (q : List RecvInput) (w : List Byte) (h : s.Core) (hw : (s.waitIn (.window w)).PhaseOk) :
    KeepsInv s.cfg (window q w s) := by
  induction q generalizing s w with
  | nil => exact h.keeps_wait hw
  | cons r q ih =>
    have hr := h.received r q
    have ⟨_, _, ho⟩ := hw
    rw [window]
    split
    · exact ih _ hr hw
    · exact classify_keeps (hr.setBusy false) rfl rfl ho w
    · exact ((hr.setBusy false).outcome (h.addrValid_of_no_outcome ho) _).keeps_idle rfl rfl

theorem selectAnswered_keeps (h : s.Core) (hw : (s.waitIn .selectWait).PhaseOk) :
    KeepsInv s.cfg (selectAnswered s) := by
  have ⟨_, hactive, ho⟩ := hw
  unfold selectAnswered
  split
  · exact h.keeps_wait hw
  · next ht =>
    obtain ⟨q, -, rfl⟩ := State.takeSend_eq_some ht
    exact ((h.answered q).outcome (h.addrValid_of_no_outcome ho) _).keeps_idle rfl rfl
  · next ht =>
    obtain ⟨q, -, rfl⟩ := State.takeSend_eq_some ht
    exact window_keeps _ _ ((h.answered q).setBusy true) ⟨rfl, hactive, ho⟩

theorem State.Core.selectStart (h : s.Core) : s.selectStart.Core :=
  ⟨h.cfg, h.mem, Rx.clear_ok _ _, nofun, nofun⟩

theorem execSelect_keeps (h : s.Core) (hp : s.phase = .idle) : KeepsInv s.cfg (execSelect s) := by
  by_cases hbusy : s.busy = true
  · rw [execSelect, if_pos hbusy]
    exact (h.refuse _).keeps_idle hp rfl
  · by_cases hactive : s.sel.active = false
    · rw [execSelect, if_neg hbusy, if_pos hactive]
      exact (h.refuse _).keeps_idle hp rfl
    · have hfree : s.busy = false := Bool.eq_false_iff.2 hbusy
      have hopen : s.sel.active = true := Bool.eq_true_of_not_eq_false hactive
      rw [execSelect_accepted hfree hopen]
      exact selectAnswered_keeps (h.selectStart.buildSelect.handOver _) ⟨hfree, hopen, rfl⟩

/-! Encoding (R91 to R95) -/

theorem execEncLong_keeps (h : s.Core) (hp : s.phase = .idle) : KeepsInv s.cfg (execEncLong s) := by
  unfold execEncLong
  split_ifs with hlen
  · exact (h.refuse _).keeps_idle hp rfl
  · split
    · next p hread =>
      obtain ⟨hplen, -⟩ := Memory.readAll_eq_some.1 hread
      exact (h.loadLong _ _ _ (by omega)).accept.keeps_idle hp rfl
    · trivial

theorem execEncRequest_keeps (h : s.Core) (hp : s.phase = .idle) : KeepsInv s.cfg (execEncRequest s) := by
  unfold execEncRequest
  split_ifs
  · exact (h.buildRequest _).keeps_idle hp rfl
  · exact (h.refuse _).keeps_idle hp rfl

theorem execEncSelect_keeps (h : s.Core) (hp : s.phase = .idle) : KeepsInv s.cfg (execEncSelect s) := by
  unfold execEncSelect
  split_ifs
  · exact (h.refuse _).keeps_idle hp rfl
  · exact h.buildSelect.keeps_idle hp rfl

/-! Addressing (R140, R145, R146) and RESET (R220) -/

theorem execResolvePrimary_keeps (h : s.Core) (hp : s.phase = .idle) : KeepsInv s.cfg (execResolvePrimary s) := by
  unfold execResolvePrimary
  split_ifs
  · exact State.Core.keeps_idle ⟨h.cfg, h.mem, h.rx, nofun, h.sel⟩ hp rfl
  · exact (h.refuse _).keeps_idle hp rfl

theorem execMaskLoad_keeps (h : s.Core) (hp : s.phase = .idle) : KeepsInv s.cfg (execMaskLoad s) :=
  State.Core.keeps_idle ⟨h.cfg, h.mem, h.rx, nofun, h.sel⟩ hp rfl

theorem execMaskNarrow_keeps (h : s.Core) (hp : s.phase = .idle) : KeepsInv s.cfg (execMaskNarrow s) := by
  have hrefused (r : RefuseReason) : KeepsInv s.cfg (.next (s.refuse r)) := (h.refuse r).keeps_idle hp rfl
  unfold execMaskNarrow
  dsimp only
  split_ifs
  · exact hrefused _
  · exact hrefused _
  · exact hrefused _
  · exact State.Core.keeps_idle ⟨h.cfg, h.mem, h.rx, nofun, h.sel⟩ hp rfl
  · exact hrefused _

theorem execReset_keeps (h : s.Core) : KeepsInv s.cfg (execReset s) :=
  State.Core.keeps_idle ⟨h.cfg, Memory.ok_nil, Rx.clear_ok .reset [], nofun, nofun⟩ rfl rfl

/-- Every instruction. -/
theorem exec_keeps (i : Instr) (h : s.Core) (hp : s.phase = .idle) : KeepsInv s.cfg (exec i s) := by
  cases i with
  | reset => exact execReset_keeps h
  | encShort => exact (h.loadShort _ _).accept.keeps_idle hp rfl
  | encControl => exact (h.loadLong _ _ _ (Nat.zero_le _)).accept.keeps_idle hp rfl
  | encLong => exact execEncLong_keeps h hp
  | encRequest => exact execEncRequest_keeps h hp
  | encSelect => exact execEncSelect_keeps h hp
  | send => exact execSend_keeps h hp
  | rxByte => exact (h.accept.takeByte _).keeps_idle hp rfl
  | rxEnd => exact h.rxEnd.keeps_idle (by simpa using hp) (by simp)
  | decode => exact (h.decodeBuf _).keeps_idle (by simpa using hp) (by simp)
  | resolvePrimary => exact execResolvePrimary_keeps h hp
  | maskLoad => exact execMaskLoad_keeps h hp
  | maskNarrow => exact execMaskNarrow_keeps h hp
  | select => exact execSelect_keeps h hp
  | awaitReply => exact execAwaitReply_keeps h hp
  | reqData => exact execReqData_keeps h hp
  | ack | short | control | long => exact (h.feed _).keeps_idle (by simpa using hp) (by simp)

/-- An operation in progress goes on. -/
theorem resume_keeps (h : s.Inv) : KeepsInv s.cfg (resume s) := by
  obtain ⟨hcore, hphase⟩ := State.inv_iff.1 h
  unfold resume
  split
  · exact ⟨h, rfl⟩
  · next hp => exact sendAnswered_keeps hcore (hphase.waitIn hp)
  · next hp => exact requestAnswered_keeps hcore (hphase.waitIn hp)
  · next hp => exact selectAnswered_keeps hcore (hphase.waitIn hp)
  · next hp => exact step4Answered_keeps hcore (hphase.waitIn hp)
  · next hp => exact awaitFirst_keeps hcore (hphase.waitIn hp)
  · next hp => exact awaitMore_keeps hcore (hphase.waitIn hp)
  · next hp => exact window_keeps _ _ hcore (hphase.waitIn hp)

end

end Sys2Proof.Machine
end

