-- ==== Sys2Proof/Proofs/InvStep.lean ====
section
/-! The host's actions, and the step. -/

namespace Sys2Proof.Machine

section
variable {s t : State}

/-- A host write sets operand registers and cells of TX_PAY only (10_state.md R23). -/
theorem hostWrite_cases (k : Nat) (v : Byte) (s : State) :
    (Buffer.txPay.Holds k ∧ hostWrite k v s = { s with mem := Memory.write s.mem k v }) ∨
      hostWrite k v s = { s with
        opnd := (hostWrite k v s).opnd, timeout := (hostWrite k v s).timeout, target := (hostWrite k v s).target,
        tx := (hostWrite k v s).tx } := by
  by_cases hpay : Buffer.txPay.Holds k
  · exact .inl ⟨hpay, if_pos hpay⟩
  · right
    unfold hostWrite
    rw [if_neg hpay]
    split
    · rfl
    · split <;> rfl

/-- A host read sets the model's own record of it only (20_memory.md R45). -/
theorem hostRead_eq (k : Nat) (s : State) :
    hostRead k s = { s with lastRead := (hostRead k s).lastRead, freeCount := (hostRead k s).freeCount } := by
  unfold hostRead
  split <;> rfl

theorem hostWrite_keeps (h : s.Core) (hp : s.phase = .idle) (k : Nat) (v : Byte) :
    KeepsInv s.cfg (.next (hostWrite k v s)) := by
  rcases hostWrite_cases k v s with ⟨hpay, hw⟩ | hw
  · rw [hw]
    exact State.Core.keeps_idle
      ⟨h.cfg, h.mem.write (.inl hpay) v, h.rx.grow (Memory.grows_write _ _ _), h.reason, h.sel⟩ hp rfl
  · rw [hw]
    exact State.Core.keeps_idle ⟨h.cfg, h.mem, h.rx, h.reason, h.sel⟩ hp rfl

theorem hostRead_keeps (h : s.Core) (hp : s.phase = .idle) (k : Nat) : KeepsInv s.cfg (.next (hostRead k s)) := by
  rw [hostRead_eq]
  exact State.Core.keeps_idle ⟨h.cfg, h.mem, h.rx, h.reason, h.sel⟩ hp rfl

/-- What a fetch has found, done, keeps the invariant. -/
def Fetched.Keeps (cfg : Config.Params) : Fetched → Prop
  | .instr i t => KeepsInv cfg (exec i t)
  | .done t => KeepsInv cfg (.next t)

theorem fetchCmd_keeps (h : s.Core) (hp : s.phase = .idle) (v : Byte) : (fetchCmd v s).Keeps s.cfg := by
  unfold fetchCmd
  split
  · exact exec_keeps _ h hp
  · exact (h.refuse _).keeps_idle hp rfl

theorem fetchWire_keeps (h : s.Core) (hp : s.phase = .idle) (b : List Byte) (q : List Input) :
    (fetchWire b q s).Keeps s.cfg := by
  unfold fetchWire
  split
  · exact exec_keeps _ (h.setInput _) hp
  · split
    · exact (h.setInput q).keeps_idle hp rfl
    · exact ((h.setInput _).accept.takeByte _).keeps_idle hp rfl

theorem fetch_keeps (h : s.Core) (hp : s.phase = .idle) : (fetch s).Keeps s.cfg := by
  unfold fetch
  split
  · exact h.keeps_idle hp rfl
  · next q _ =>
    split_ifs
    · exact fetchCmd_keeps (h.setInput q) hp _
    · exact hostWrite_keeps (h.setInput q) hp _ _
  · next q _ => exact hostRead_keeps (h.setInput q) hp _
  · exact State.Core.keeps_idle ⟨h.cfg, h.mem, h.rx, h.reason, h.sel⟩ hp rfl
  · next q _ => exact fetchWire_keeps (h.setInput q) hp _ q

theorem step_keeps (h : s.Inv) : KeepsInv s.cfg (step s) := by
  obtain ⟨hcore, -⟩ := State.inv_iff.1 h
  by_cases hp : s.phase = .idle
  · have hf := fetch_keeps hcore hp
    cases hfetch : fetch s with
    | instr i t =>
      rw [step_of_fetch_instr h.cfg hp hfetch]
      rwa [hfetch] at hf
    | done t =>
      rw [step_of_fetch_done h.cfg hp hfetch]
      rwa [hfetch] at hf
  · rw [step_in_progress h.cfg hp]
    exact resume_keeps h

end

/-- Settles O57, by what a step finds to do: the host's next action, or the operation in progress. -/
theorem stepKeepsTheInvariant : Obligations.StepKeepsTheInvariant :=
  fun _ _ h hs => (step_keeps h).of_next hs

end Sys2Proof.Machine
end

