-- ==== Sys2Proof/Proofs/Reset.lean ====
section
/-! Reset (70_reset_and_hazards.md R220): the reset state, what RESET keeps, and the invariant's base case. -/

namespace Sys2Proof.Machine

theorem State.atReset_reset : State.reset.AtReset where
  tx := ⟨rfl, rfl, rfl, rfl⟩
  txbufLen := rfl
  rx := ⟨rfl, rfl, rfl, rfl⟩
  rxState := rfl
  rxWork := ⟨rfl, rfl, rfl, rfl⟩
  mask := rfl
  active := rfl
  addr := rfl
  addrValid := rfl
  target := rfl
  flags := ⟨rfl, rfl, rfl⟩
  event := ⟨rfl, rfl⟩
  results := ⟨rfl, rfl⟩
  reason := rfl
  timeout := rfl
  opnd := rfl

/-- Settles O11, register by register of the table of R25. -/
theorem resetStateHasTheResetValues : Obligations.ResetStateHasTheResetValues :=
  ⟨State.atReset_reset, rfl, rfl, rfl⟩

/-- Settles O13: RESET takes the host's side from the state before it, and the empty memory holds no cell. -/
theorem resetOperationKeepsTheHostSide : Obligations.ResetOperationKeepsTheHostSide :=
  fun _ => ⟨_, rfl, rfl, rfl, rfl, rfl, rfl, fun _ => rfl⟩

theorem State.core_reset : State.reset.Core where
  cfg := by decide
  mem := Memory.ok_nil
  rx := Rx.clear_ok .reset []
  reason := nofun
  sel := nofun

/-- Settles O58: no operation is in progress, and the parts are those of a cleared receiver and an empty memory. -/
theorem resetMeetsTheInvariant : Obligations.ResetMeetsTheInvariant := State.core_reset.inv_of_idle rfl

end Sys2Proof.Machine
end

