-- ==== Sys2Proof/Proofs/StatusFields.lean ====
section
/-! The fields of the status and result registers (10_state.md R17 to R20). -/

namespace Sys2Proof.Machine

section
/-! STATUS (R17): one flag per bit -/
variable (s : State)

/-- The bits of STATUS. -/
theorem getLsbD_statusReg {i : Nat} (hi : i < 8) :
    (statusReg s).getLsbD i =
      ((s.busy && decide (i = 0)) || (s.sel.active && decide (i = 1)) || (rxPending s && decide (i = 2)) ||
        (s.rx.csok && decide (i = 3)) || (s.rx.evValid && decide (i = 4)) || (s.refused && decide (i = 5))) := by
  simp only [statusReg, BitVec.getLsbD_or, getLsbD_flagAt _ hi]

theorem statusReg_selActive : (statusReg s).getLsbD 1 = s.sel.active := by
  rw [getLsbD_statusReg s (by decide)]; simp

theorem statusReg_csok : (statusReg s).getLsbD 3 = s.rx.csok := by
  rw [getLsbD_statusReg s (by decide)]; simp

theorem statusReg_evValid : (statusReg s).getLsbD 4 = s.rx.evValid := by
  rw [getLsbD_statusReg s (by decide)]; simp

theorem statusReg_refused : (statusReg s).getLsbD 5 = s.refused := by
  rw [getLsbD_statusReg s (by decide)]; simp

theorem rxPending_iff : rxPending s = true ↔ s.rx.state ≠ .idle := by simp [rxPending]

theorem statusReg_high : (statusReg s).extractLsb' 6 2 = 0 := by
  ext i hi
  rw [BitVec.getElem_extractLsb', getLsbD_statusReg s (by omega)]
  simp [show 6 + i ≠ 0 ∧ 6 + i ≠ 1 ∧ 6 + i ≠ 2 ∧ 6 + i ≠ 3 ∧ 6 + i ≠ 4 ∧ 6 + i ≠ 5 by omega]

end

/-- Two codes in three bits each and a flag above them: the layout of RESULT (with no flag) and of EXRES (R18, R19). -/
def packFields (lo hi : Byte) (f : Bool) : Byte := lo ||| hi <<< 3 ||| flagAt f 6

theorem resultReg_eq_packFields (s : State) :
    resultReg s = packFields (kindCode s.rx.kind) (errCode s.rx.err) false := by
  simp [resultReg, packFields, flagAt]

theorem exresReg_eq_packFields (s : State) :
    exresReg s = packFields (exCode s.exResult) (outcomeCode s.sel.outcome) s.sel.addrValid := rfl

/-- A code of three bits has no bit above them. -/
theorem getLsbD_of_lt_eight {b : Byte} (h : b < 8) {i : Nat} (hi : 3 ≤ i) : b.getLsbD i = false := by
  rw [BitVec.getLsbD]
  exact Nat.testBit_lt_two_pow (Nat.lt_of_lt_of_le (show b.toNat < 2 ^ 3 from h) (Nat.pow_le_pow_right (by decide) hi))

section
variable {lo hi : Byte} (hlo : lo < 8) (hhi : hi < 8) (f : Bool)

/-- Which field a bit of the packed register belongs to. -/
theorem getLsbD_packFields {i : Nat} (h : i < 8) :
    (packFields lo hi f).getLsbD i =
      (lo.getLsbD i || (decide (3 ≤ i) && hi.getLsbD (i - 3)) || (f && decide (i = 6))) := by
  simp only [packFields, BitVec.getLsbD_or, BitVec.getLsbD_shiftLeft, getLsbD_flagAt f h, h, decide_true,
    Bool.true_and, ← Nat.not_lt, decide_not]

include hlo

theorem packFields_low : ((packFields lo hi f).extractLsb' 0 3).zeroExtend 8 = lo := by
  ext i hi8
  by_cases h3 : i < 3
  · simp [getLsbD_packFields f (by omega : i < 8), h3, show ¬ 3 ≤ i by omega, show i ≠ 6 by omega,
      BitVec.getLsbD_eq_getElem hi8]
  · simp [h3, ← BitVec.getLsbD_eq_getElem hi8, getLsbD_of_lt_eight hlo (by omega : 3 ≤ i)]

include hhi

theorem packFields_mid : ((packFields lo hi f).extractLsb' 3 3).zeroExtend 8 = hi := by
  ext i hi8
  by_cases h3 : i < 3
  · simp [getLsbD_packFields f (by omega : 3 + i < 8), h3, show 3 + i ≠ 6 by omega,
      getLsbD_of_lt_eight hlo (by omega : 3 ≤ 3 + i), BitVec.getLsbD_eq_getElem hi8]
  · simp [h3, ← BitVec.getLsbD_eq_getElem hi8, getLsbD_of_lt_eight hhi (by omega : 3 ≤ i)]

theorem packFields_bit6 : (packFields lo hi f).getLsbD 6 = f := by
  rw [getLsbD_packFields f (by decide), getLsbD_of_lt_eight hlo (by decide), getLsbD_of_lt_eight hhi (by decide)]
  simp

theorem packFields_bit7 : (packFields lo hi f).getLsbD 7 = false := by
  rw [getLsbD_packFields f (by decide), getLsbD_of_lt_eight hlo (by decide), getLsbD_of_lt_eight hhi (by decide)]
  simp

theorem packFields_high : (packFields lo hi false).extractLsb' 6 2 = 0 := by
  ext i h
  rw [BitVec.getElem_extractLsb', getLsbD_packFields _ (by omega)]
  simp [getLsbD_of_lt_eight hlo (by omega : 3 ≤ 6 + i), getLsbD_of_lt_eight hhi (by omega : 3 ≤ 6 + i - 3)]

end

/-! Every code takes three bits (R18 to R20). -/

theorem kindCode_lt (k : Option FrameKind) : kindCode k < 8 := by
  rcases k with _ | k
  · decide
  · cases k <;> decide

theorem errCode_lt (e : Option DecodeError) : errCode e < 8 := by
  rcases e with _ | e
  · decide
  · cases e <;> decide

theorem exCode_lt (x : Option ExResult) : exCode x < 8 := by
  rcases x with _ | x
  · decide
  · cases x <;> decide

theorem outcomeCode_lt (o : Option SelOutcome) : outcomeCode o < 8 := by
  rcases o with _ | o
  · decide
  · cases o <;> decide

theorem reasonCode_fits (r : Option RefuseReason) :
    ((reasonCode r).extractLsb' 0 3).zeroExtend 8 = reasonCode r ∧ (reasonCode r).extractLsb' 3 5 = 0 := by
  rcases r with _ | r
  · decide
  · cases r <;> decide

/-- Settles O10: STATUS bit by bit, RESULT and EXRES as packed fields; the codes are the tables' entries. -/
theorem statusRegisterFields : Obligations.StatusRegisterFields := by
  refine ⟨fun s => ?_, by decide⟩
  have hkind := kindCode_lt s.rx.kind
  have herr := errCode_lt s.rx.err
  have hex := exCode_lt s.exResult
  have hout := outcomeCode_lt s.sel.outcome
  rw [resultReg_eq_packFields, exresReg_eq_packFields]
  refine ⟨statusReg_busy s, statusReg_selActive s, ?_, statusReg_csok s, statusReg_evValid s, statusReg_refused s,
    statusReg_high s, packFields_low hkind _, packFields_mid hkind herr _, packFields_high hkind herr,
    packFields_low hex _, packFields_mid hex hout _, packFields_bit6 hex hout _, packFields_bit7 hex hout _,
    reasonCode_fits s.refuseReason⟩
  rw [statusReg_rxPending, rxPending_iff]

end Sys2Proof.Machine
end

