-- ==== Sys2Proof/Proofs/RegisterSpace.lean ====
section
/-! The register space as the host reads and writes it (10_state.md R22, R23). -/

namespace Sys2Proof.Machine

section
/-! Reading: which of the parts of the space an index lies in -/
variable {s : State} {i : Nat}

theorem not_inBuffer_of_lt (h : i < 0x100) : ¬ InBuffer i := by
  simp only [InBuffer, Buffer.Holds, Buffer.base, Buffer.size]
  omega

theorem readRegister_low (h : i < 0x100) : readRegister s i = some (readLow s i) :=
  if_neg (not_inBuffer_of_lt h)

theorem readRegister_cell (h : InBuffer i) : readRegister s i = Memory.read s.mem i := if_pos h

theorem readLow_mask (k : Fin 8) : readLow s (0x010 + k) = s.sel.mask[k] := by
  rw [readLow, dif_pos (by omega)]
  simp

theorem readLow_addr (k : Fin 8) : readLow s (0x018 + k) = s.sel.addr[k] := by
  rw [readLow, dif_neg (by omega), dif_pos (by omega)]
  simp

theorem readLow_opnd (k : Fin 8) : readLow s (0x022 + k) = s.opnd[k] := by
  rw [readLow, dif_neg (by omega), dif_neg (by omega), dif_pos (by omega)]
  simp

/-- CMD and every index above OPND below the buffers (R23). -/
theorem readLow_reserved (h : i = 0 ∨ 0x02A ≤ i) : readLow s i = 0 := by
  unfold readLow
  rw [dif_neg (by omega), dif_neg (by omega), dif_neg (by omega)]
  split <;> first | rfl | omega

theorem readRegister_reserved
    (h : i = 0 ∨ (0x02A ≤ i ∧ i ≤ 0x0FF) ∨ (0x1FC ≤ i ∧ i ≤ 0x1FF) ∨ (0x2FC ≤ i ∧ i ≤ 0x2FF) ∨ 0x405 ≤ i) :
    readRegister s i = some 0 := by
  have hout : ¬ InBuffer i := by
    simp only [InBuffer, Buffer.Holds, Buffer.base, Buffer.size]
    omega
  rw [readRegister, if_neg hout, readLow_reserved (by omega)]

/-- Bit 8 of a 9-bit register as its high byte (R12). -/
theorem high_byte_of_nine (x : BitVec 9) :
    (x.extractLsb' 8 1).zeroExtend 8 = if x.getLsbD 8 then (1 : Byte) else 0 := by
  ext i hi
  by_cases h0 : i = 0
  · subst h0
    cases h : x.getLsbD 8 <;> simpa using h
  · cases x.getLsbD 8 <;> simp [h0, BitVec.getElem_one]

/-- What a host read leaves for the host: a byte, the register's value where it has one (R45; U5). -/
theorem lastRead_hostRead (s : State) (i : Nat) :
    (hostRead i s).lastRead.isSome ∧ ∀ v, readRegister s i = some v → (hostRead i s).lastRead = some v := by
  unfold hostRead
  cases readRegister s i with
  | none => exact ⟨rfl, nofun⟩
  | some v => exact ⟨rfl, fun _ h => h⟩

end

/-- Settles O9, by the part of the register space the index lies in. -/
theorem registerReadHasNoSideEffect : Obligations.RegisterReadHasNoSideEffect := by
  intro s
  refine ⟨rfl, rfl, rfl, rfl, rfl, rfl, rfl, rfl, rfl, rfl, rfl, rfl, rfl, rfl, rfl, fun k => ?mask, fun k => ?addr,
    rfl, ?txbufLenHigh, fun k => ?opnd, fun k hk => ?txPay, fun k hk => ?rxPay, fun k hk => ?txbuf,
    fun i => readRegister_reserved, fun i => ⟨hostRead_eq i s, lastRead_hostRead s i⟩⟩
  case mask => rw [readRegister_low (by omega), readLow_mask]
  case addr => rw [readRegister_low (by omega), readLow_addr]
  case opnd => rw [readRegister_low (by omega), readLow_opnd]
  case txbufLenHigh => rw [← high_byte_of_nine]; rfl
  case txPay => exact readRegister_cell (.inl ⟨Nat.le_add_right _ _, Nat.add_lt_add_left hk _⟩)
  case rxPay => exact readRegister_cell (.inr (.inl ⟨Nat.le_add_right _ _, Nat.add_lt_add_left hk _⟩))
  case txbuf => exact readRegister_cell (.inr (.inr ⟨Nat.le_add_right _ _, Nat.add_lt_add_left hk _⟩))

section
/-! Writing: the operand registers below the buffers (R11, R16, R21) -/
variable {s : State} {i j : Nat} {v : Byte}

theorem hostWrite_opnd (k : Fin 8) : hostWrite (0x022 + k) v s = { s with opnd := s.opnd.set k v } := by
  have hout : ¬ Buffer.txPay.Holds (0x022 + k) := fun h => not_inBuffer_of_lt (by omega) (.inl h)
  rw [hostWrite, if_neg hout, dif_pos (by omega)]
  simp

theorem hostWrite_txPay (h : Buffer.txPay.Holds i) : hostWrite i v s = { s with mem := Memory.write s.mem i v } :=
  if_pos h

theorem hostWrite_ignored
    (h : i ≠ 0 ∧ ¬ ((0x005 ≤ i ∧ i ≤ 0x00B) ∨ (0x022 ≤ i ∧ i ≤ 0x029) ∨ (0x100 ≤ i ∧ i ≤ 0x1FB))) :
    hostWrite i v s = s := by
  have hout : ¬ Buffer.txPay.Holds i := by
    simp only [Buffer.Holds, Buffer.base, Buffer.size]
    omega
  unfold hostWrite
  rw [if_neg hout, dif_neg (by omega)]
  split <;> first | rfl | omega

/-- No index below 0x005 or above 0x00B shows TIMEOUT, TARGET or a transmit operand (R23). -/
theorem readLow_of_not_operand (hj : ¬ (0x005 ≤ j ∧ j ≤ 0x00B)) (tx : TxRegs) (target : Byte) (timeout : BitVec 16) :
    readLow { s with tx := tx, target := target, timeout := timeout } j = readLow s j := by
  unfold readLow
  split_ifs <;> try rfl
  split <;> first | rfl | omega

/-- TIMEOUT is shown in two bytes, the low one first (R21). -/
theorem readLow_timeout (s : State) (hi lo : Byte) (j : Nat) :
    readLow { s with timeout := hi ++ lo } j = if j = 0x005 then lo else if j = 0x006 then hi else readLow s j := by
  by_cases hj : 0x005 ≤ j ∧ j ≤ 0x00B
  · obtain ⟨hjlo, hjhi⟩ := hj
    interval_cases j
    · exact BitVec.extractLsb'_append_eq_right
    · exact BitVec.extractLsb'_append_eq_left
    all_goals rfl
  · rw [if_neg (by omega), if_neg (by omega)]
    exact readLow_of_not_operand hj _ _ _

/-- A register of one byte: the other six show what they did. -/
theorem readLow_hostWrite_byte (hi : 0x007 ≤ i ∧ i ≤ 0x00B) :
    readLow (hostWrite i v s) j = if j = i then v else readLow s j := by
  obtain ⟨hlo, hhi⟩ := hi
  by_cases hj : 0x005 ≤ j ∧ j ≤ 0x00B
  · obtain ⟨hjlo, hjhi⟩ := hj
    interval_cases i <;> interval_cases j <;> rfl
  · rw [if_neg (by omega)]
    interval_cases i <;> exact readLow_of_not_operand hj _ _ _

theorem readLow_hostWrite_operand (hi : 0x005 ≤ i ∧ i ≤ 0x00B) :
    readLow (hostWrite i v s) j = if j = i then v else readLow s j := by
  obtain rfl | rfl | hbyte : i = 0x005 ∨ i = 0x006 ∨ (0x007 ≤ i ∧ i ≤ 0x00B) := by omega
  · have h := readLow_timeout s (s.timeout.extractLsb' 8 8) v j
    by_cases hj : j = 0x006
    · subst hj
      exact h
    · rwa [if_neg hj] at h
  · have h := readLow_timeout s v (s.timeout.extractLsb' 0 8) j
    by_cases hj : j = 0x005
    · subst hj
      exact h
    · rwa [if_neg hj] at h
  · exact readLow_hostWrite_byte hbyte

theorem readLow_hostWrite_opnd (k : Fin 8) :
    readLow (hostWrite (0x022 + k) v s) j = if j = 0x022 + k then v else readLow s j := by
  rw [hostWrite_opnd]
  by_cases hj : 0x022 ≤ j ∧ j ≤ 0x029
  · obtain ⟨l, rfl⟩ : ∃ l : Fin 8, j = 0x022 + l := ⟨⟨j - 0x022, by omega⟩, by simp; omega⟩
    rw [readLow_opnd, readLow_opnd]
    simp only [Fin.getElem_fin, Vector.getElem_set, Nat.add_left_cancel_iff, @eq_comm _ (l : Nat)]
  · rw [if_neg (by omega)]
    unfold readLow
    split_ifs <;> rfl

/-- A write below the buffers leaves them alone. -/
theorem hostWrite_mem_of_lt (hi : i < 0x100) : (hostWrite i v s).mem = s.mem := by
  rcases hostWrite_cases i v s with ⟨hpay, -⟩ | hw
  · exact absurd (.inl hpay) (not_inBuffer_of_lt hi)
  · rw [hw]

/-- Below the buffers a write is seen there and nowhere else. -/
theorem readRegister_hostWrite_low (hi : (0x005 ≤ i ∧ i ≤ 0x00B) ∨ (0x022 ≤ i ∧ i ≤ 0x029)) :
    readRegister (hostWrite i v s) j = if j = i then some v else readRegister s j := by
  have hread : readLow (hostWrite i v s) j = if j = i then v else readLow s j := by
    rcases hi with hi | hi
    · exact readLow_hostWrite_operand hi
    · obtain ⟨k, rfl⟩ : ∃ k : Fin 8, i = 0x022 + k := ⟨⟨i - 0x022, by omega⟩, by simp; omega⟩
      exact readLow_hostWrite_opnd k
  unfold readRegister
  rw [hread, hostWrite_mem_of_lt (by omega)]
  by_cases hj : j = i
  · rw [if_pos hj, if_pos hj, if_neg (not_inBuffer_of_lt (by omega))]
  · rw [if_neg hj, if_neg hj]

/-- A write to TX_PAY is seen in that cell and nowhere else. -/
theorem readRegister_hostWrite_txPay (hi : Buffer.txPay.Holds i) :
    readRegister (hostWrite i v s) j = if j = i then some v else readRegister s j := by
  rw [hostWrite_txPay hi]
  by_cases hj : InBuffer j
  · rw [readRegister_cell hj, readRegister_cell hj, Memory.read_write]
  · have hne : j ≠ i := fun h => hj (h ▸ .inl hi)
    rw [if_neg hne, readRegister, readRegister, if_neg hj, if_neg hj]
    rfl

end

/-- Settles O8: one equation of the write per part of the space, and what is then read there and elsewhere. -/
theorem registerWriteReadsBack : Obligations.RegisterWriteReadsBack := by
  intro s v
  refine ⟨rfl, rfl, rfl, rfl, rfl, rfl, rfl, fun k => hostWrite_opnd k, fun k hk => ?txPay, fun i => ⟨fun hi => ?_, ?_⟩⟩
  case txPay =>
    have hcell : Buffer.txPay.Holds (0x100 + k) := ⟨Nat.le_add_right _ _, Nat.add_lt_add_left hk _⟩
    rw [hostWrite_txPay hcell]
    exact ⟨rfl, Memory.read_write_same _ _ _, fun i hi => Memory.read_write_other _ _ hi⟩
  · have hread (j : Nat) : readRegister (hostWrite i v s) j = if j = i then some v else readRegister s j := by
      rcases hi with hi | hi | ⟨hlo, hhi⟩
      · exact readRegister_hostWrite_low (.inl hi)
      · exact readRegister_hostWrite_low (.inr hi)
      · exact readRegister_hostWrite_txPay ⟨hlo, Nat.lt_succ_of_le hhi⟩
    exact ⟨(hread i).trans (if_pos rfl), fun j hj => (hread j).trans (if_neg hj)⟩
  · exact fun h0 hi => hostWrite_ignored ⟨h0, hi⟩

end Sys2Proof.Machine
end

