-- ==== Sys2Proof/Proofs/Traffic.lean ====
section
/-! What an operation hands to `send` and takes from `recv()` (10_state.md R24; 20_memory.md R40, R45, R47): said once
for each operation with parts, and composed along them. -/

namespace Sys2Proof.Machine

/-- From `s` to `t` at most `sends` frames have joined TXLOG, and at most `recvs` answers have been taken from the front
of the receive stream and have joined RXLOG. -/
structure State.Traffic (s t : State) (sends recvs : Nat) : Prop where
  sent : ∃ frames, t.txLog = s.txLog ++ frames ∧ frames.length ≤ sends
  taken : ∃ n, t.recvQ = s.recvQ.drop n ∧ t.rxLog = s.rxLog ++ (s.recvQ.take n).map (·.result) ∧
    n ≤ s.recvQ.length ∧ n ≤ recvs

section
variable {s t u : State} {a b c d : Nat}

theorem State.Traffic.of_same (htx : t.txLog = s.txLog) (hrx : t.rxLog = s.rxLog) (hq : t.recvQ = s.recvQ) :
    s.Traffic t a b :=
  ⟨⟨[], by simp [htx], Nat.zero_le _⟩, ⟨0, by simp [hq], by simp [hrx], Nat.zero_le _, Nat.zero_le _⟩⟩

theorem State.Traffic.trans (h : s.Traffic t a b) (h' : t.Traffic u c d) : s.Traffic u (a + c) (b + d) := by
  obtain ⟨⟨f, hf, hfa⟩, n, hq, hlog, hn, hnb⟩ := h
  obtain ⟨⟨g, hg, hgc⟩, m, hq', hlog', hm, hmd⟩ := h'
  rw [hq, List.length_drop] at hm
  refine ⟨⟨f ++ g, by simp [hg, hf], by simp; omega⟩, n + m, ?_, ?_, by omega, by omega⟩
  · rw [hq', hq, List.drop_drop]
  · rw [hlog', hlog, hq, List.take_add, List.map_append, List.append_assoc]

theorem State.Traffic.mono (h : s.Traffic t a b) (hac : a ≤ c) (hbd : b ≤ d) : s.Traffic t c d := by
  obtain ⟨⟨f, hf, hfa⟩, n, hq, hlog, hn, hnb⟩ := h
  exact ⟨⟨f, hf, hfa.trans hac⟩, n, hq, hlog, hn, hnb.trans hbd⟩

theorem State.traffic_handOver (s : State) (f : List Byte) : s.Traffic (s.handOver f) 1 0 :=
  ⟨⟨[f], rfl, Nat.le_refl _⟩, ⟨0, rfl, by simp, Nat.zero_le _, Nat.le_refl _⟩⟩

theorem State.traffic_received {r : RecvInput} {q : List RecvInput} (h : s.recvQ = r :: q) :
    s.Traffic (s.received r q) 0 1 :=
  ⟨⟨[], by simp [State.received], Nat.le_refl _⟩,
    ⟨1, by simp [State.received, h], by simp [State.received, h], by simp [h], Nat.le_refl _⟩⟩

/-- DECODE hands nothing over and takes nothing. -/
theorem State.traffic_decodeBuf (s : State) (w : List Byte) : s.Traffic (s.decodeBuf w) 0 0 := by
  rw [State.decodeBuf_eq]
  exact .of_same rfl rfl rfl

end

/-- Where an operation from `s` ends in a next state, this is its traffic. -/
def TrafficTo (s : State) (sends recvs : Nat) : Result → Prop
  | .next t => s.Traffic t sends recvs
  | .fault _ | .refused _ => True

section
variable {s t : State} {o : Result} {a b c d : Nat}

theorem TrafficTo.of_next (h : TrafficTo s a b o) (ho : o = .next t) : s.Traffic t a b := by subst ho; exact h

theorem TrafficTo.mono (h : TrafficTo s a b o) (hac : a ≤ c) (hbd : b ≤ d) : TrafficTo s c d o := by
  cases o with
  | next t => exact State.Traffic.mono h hac hbd
  | fault _ | refused _ => trivial

theorem TrafficTo.of_same (htx : t.txLog = s.txLog) (hrx : t.rxLog = s.rxLog) (hq : t.recvQ = s.recvQ) :
    TrafficTo s a b (.next t) := State.Traffic.of_same htx hrx hq

/-- An operation that ends in `u` after what has led to `t`. -/
theorem State.Traffic.ends {u : State} (h : s.Traffic t a b) (htx : u.txLog = t.txLog) (hrx : u.rxLog = t.rxLog)
    (hq : u.recvQ = t.recvQ) (hac : a ≤ c := by omega) (hbd : b ≤ d := by omega) : TrafficTo s c d (.next u) :=
  (h.trans (.of_same (a := 0) (b := 0) htx hrx hq)).mono hac hbd

/-- What comes before an operation adds to its traffic. -/
theorem State.Traffic.andThen (h : s.Traffic t a b) (ho : TrafficTo t c d o) : TrafficTo s (a + c) (b + d) o := by
  cases o with
  | next u => exact h.trans ho
  | fault _ | refused _ => trivial

/-- An update of other registers before an operation adds nothing. -/
theorem TrafficTo.after_same (ho : TrafficTo t a b o) (htx : t.txLog = s.txLog) (hrx : t.rxLog = s.rxLog)
    (hq : t.recvQ = s.recvQ) : TrafficTo s a b o := by
  have h := (State.Traffic.of_same (a := 0) (b := 0) htx hrx hq).andThen ho
  rwa [Nat.zero_add, Nat.zero_add] at h

/-! SEND (R96) -/

theorem sendAnswered_traffic (s : State) : TrafficTo s 0 0 (sendAnswered s) := by
  unfold sendAnswered
  split
  · exact .of_same rfl rfl rfl
  all_goals
    next ht =>
      obtain ⟨q, -, rfl⟩ := State.takeSend_eq_some ht
      exact .of_same rfl rfl rfl

theorem execSend_traffic (s : State) : TrafficTo s 1 0 (execSend s) := by
  unfold execSend
  split_ifs
  · exact .of_same rfl rfl rfl
  · exact .of_same rfl rfl rfl
  · split
    · next frame _ => exact (s.traffic_handOver frame).andThen (sendAnswered_traffic _)
    · trivial

/-! AWAIT_REPLY (R170) -/

theorem awaitMore_traffic (s : State) (w : List Byte) : TrafficTo s 0 1 (awaitMore w s) := by
  unfold awaitMore
  split
  · exact .of_same rfl rfl rfl
  · next r t ht =>
    obtain ⟨q, hq, rfl⟩ := State.takeRecv_eq_some ht
    have hr := State.traffic_received hq
    split
    · exact hr.ends rfl rfl rfl
    · exact hr.ends rfl rfl rfl
    · exact (hr.trans (State.traffic_decodeBuf _ _)).ends rfl rfl rfl

theorem awaitFirst_traffic (s : State) : TrafficTo s 0 2 (awaitFirst s) := by
  unfold awaitFirst
  split
  · exact .of_same rfl rfl rfl
  · next r t ht =>
    obtain ⟨q, hq, rfl⟩ := State.takeRecv_eq_some ht
    have hr := State.traffic_received hq
    split
    · exact hr.ends rfl rfl rfl
    · exact hr.ends rfl rfl rfl
    · next w _ =>
      have hd := hr.trans (State.traffic_decodeBuf _ w)
      dsimp only
      split_ifs
      · exact hd.andThen (awaitMore_traffic _ w)
      · exact hd.ends rfl rfl rfl

theorem awaitStart_traffic (s : State) : TrafficTo s 0 2 (awaitStart s) :=
  (awaitFirst_traffic _).after_same rfl rfl rfl

theorem execAwaitReply_traffic (s : State) : TrafficTo s 0 2 (execAwaitReply s) := by
  unfold execAwaitReply
  split_ifs
  · exact .of_same rfl rfl rfl
  · exact awaitStart_traffic s

/-! REQ_DATA (R171) -/

theorem requestAnswered_traffic (s : State) : TrafficTo s 0 2 (requestAnswered s) := by
  unfold requestAnswered
  split
  · exact .of_same rfl rfl rfl
  · next ht =>
    obtain ⟨q, -, rfl⟩ := State.takeSend_eq_some ht
    exact .of_same rfl rfl rfl
  · next ht =>
    obtain ⟨q, -, rfl⟩ := State.takeSend_eq_some ht
    exact (awaitStart_traffic _).after_same rfl rfl rfl

theorem execReqData_traffic (s : State) : TrafficTo s 1 2 (execReqData s) := by
  unfold execReqData
  split_ifs
  · exact .of_same rfl rfl rfl
  · dsimp only
    split
    · next frame _ =>
      exact ((State.traffic_handOver _ frame).andThen (requestAnswered_traffic _)).after_same rfl rfl rfl
    · trivial
  · exact .of_same rfl rfl rfl

/-! SELECT (R148 to R151) -/

theorem step4Answered_traffic (s : State) : TrafficTo s 0 0 (step4Answered s) := by
  unfold step4Answered
  split
  · exact .of_same rfl rfl rfl
  all_goals
    next ht =>
      obtain ⟨q, -, rfl⟩ := State.takeSend_eq_some ht
      exact .of_same rfl rfl rfl

theorem step4_traffic (s : State) : TrafficTo s 1 0 (step4 s) := by
  rw [step4_eq]
  exact ((State.traffic_handOver _ _).andThen (step4Answered_traffic _)).after_same rfl rfl rfl

theorem classifyFrame_traffic (s : State) : TrafficTo s 1 0 (classifyFrame s) := by
  have hunexpected : TrafficTo s 1 0 (.next (s.outcome .unexpected)) := .of_same rfl rfl rfl
  unfold classifyFrame
  split
  · split_ifs
    · split
      · split_ifs
        · exact (step4_traffic _).after_same rfl rfl rfl
        · exact hunexpected
      · trivial
    · exact hunexpected
  · split_ifs
    · exact (step4_traffic _).after_same rfl rfl rfl
    · exact hunexpected
  all_goals exact hunexpected

theorem classify_traffic (w : List Byte) (s : State) : TrafficTo s 1 0 (classify w s) := by
  have hd := s.traffic_decodeBuf w
  unfold classify
  split_ifs
  · exact .of_same rfl rfl rfl
  · dsimp only
    split
    · exact hd.ends rfl rfl rfl
    · exact hd.andThen (classifyFrame_traffic _)

/-- The window takes what is there, up to the answer that ends it (R149). -/
theorem window_traffic (q : List RecvInput) (w : List Byte) (s : State) (h : s.recvQ = q) :
    TrafficTo s 1 q.length (window q w s) := by
  induction q generalizing w s with
  | nil => exact .of_same rfl rfl rfl
  | cons r q ih =>
    have hr := State.traffic_received h
    rw [window, List.length_cons, Nat.add_comm]
    split
    · exact hr.andThen (ih _ _ rfl)
    · have hc : TrafficTo (s.received r q) 1 0 (classify w { s.received r q with busy := false }) :=
        (classify_traffic w _).after_same rfl rfl rfl
      exact (hr.andThen hc).mono (Nat.le_refl _) (Nat.le_add_right _ _)
    · exact hr.ends rfl rfl rfl

theorem selectAnswered_traffic (s : State) : TrafficTo s 1 s.recvQ.length (selectAnswered s) := by
  unfold selectAnswered
  split
  · exact .of_same rfl rfl rfl
  · next ht =>
    obtain ⟨q, -, rfl⟩ := State.takeSend_eq_some ht
    exact .of_same rfl rfl rfl
  · next ht =>
    obtain ⟨q, -, rfl⟩ := State.takeSend_eq_some ht
    have hw := window_traffic s.recvQ [] { s with sendQ := q, phase := .idle, busy := true } rfl
    exact hw.after_same rfl rfl rfl

theorem execSelect_traffic (s : State) : TrafficTo s 2 s.recvQ.length (execSelect s) := by
  unfold execSelect
  split_ifs
  · exact .of_same rfl rfl rfl
  · exact .of_same rfl rfl rfl
  · dsimp only
    split
    · next frame _ =>
      have hsent : TrafficTo s.selectStart.buildSelect 2 (0 + s.recvQ.length) _ :=
        (State.traffic_handOver _ frame).andThen (selectAnswered_traffic _)
      rw [Nat.zero_add] at hsent
      exact hsent.after_same rfl rfl rfl
    · trivial

end

/-! The other operations have nothing to do with the environment. -/

/-- From `s` to `t` neither the environment's side nor BUSY has changed. -/
structure State.Local (s t : State) : Prop where
  txLog : t.txLog = s.txLog
  rxLog : t.rxLog = s.rxLog
  recvQ : t.recvQ = s.recvQ
  busy : t.busy = s.busy

/-- Where an operation from `s` ends in a next state, that state is `Local` to `s`. -/
def LocalTo (s : State) : Result → Prop
  | .next t => s.Local t
  | .fault _ | .refused _ => True

section
variable {s t : State} {o : Result}

theorem LocalTo.of_next (h : LocalTo s o) (ho : o = .next t) : s.Local t := by subst ho; exact h

theorem LocalTo.traffic (h : LocalTo s o) : TrafficTo s 0 0 o := by
  cases o with
  | next t => exact .of_same h.txLog h.rxLog h.recvQ
  | fault _ | refused _ => trivial

theorem State.local_refuse (s : State) (r : RefuseReason) : s.Local (s.refuse r) := ⟨rfl, rfl, rfl, rfl⟩

theorem execEncLong_local (s : State) : LocalTo s (execEncLong s) := by
  unfold execEncLong
  split_ifs
  · exact s.local_refuse _
  · split
    · exact ⟨rfl, rfl, rfl, rfl⟩
    · trivial

theorem execEncRequest_local (s : State) : LocalTo s (execEncRequest s) := by
  unfold execEncRequest
  split_ifs
  · exact ⟨rfl, rfl, rfl, rfl⟩
  · exact s.local_refuse _

theorem execEncSelect_local (s : State) : LocalTo s (execEncSelect s) := by
  unfold execEncSelect
  split_ifs
  · exact s.local_refuse _
  · exact ⟨rfl, rfl, rfl, rfl⟩

theorem execRxEnd_local (s : State) : LocalTo s (execRxEnd s) := by
  unfold execRxEnd State.rxEnd
  split <;> exact ⟨rfl, rfl, rfl, rfl⟩

theorem State.local_decodeBuf (s : State) (w : List Byte) : s.Local (s.decodeBuf w) := by
  rw [State.decodeBuf_eq]
  exact ⟨rfl, rfl, rfl, rfl⟩

theorem State.local_feed (s : State) (bs : List Byte) : s.Local (s.feed bs) := by
  by_cases h : bs = []
  · subst h
    exact ⟨rfl, rfl, rfl, rfl⟩
  · rw [State.feed_eq s bs h]
    exact ⟨rfl, rfl, rfl, rfl⟩

theorem execResolvePrimary_local (s : State) : LocalTo s (execResolvePrimary s) := by
  unfold execResolvePrimary
  split_ifs
  · exact ⟨rfl, rfl, rfl, rfl⟩
  · exact s.local_refuse _

theorem execMaskNarrow_local (s : State) : LocalTo s (execMaskNarrow s) := by
  unfold execMaskNarrow
  dsimp only
  split_ifs
  · exact s.local_refuse _
  · exact s.local_refuse _
  · exact s.local_refuse _
  · exact ⟨rfl, rfl, rfl, rfl⟩
  · exact s.local_refuse _

end

/-- All instructions but those that ask the environment for something (20_memory.md R40) and RESET, which clears
BUSY. -/
def isLocal : Instr → Bool
  | .reset | .send | .select | .awaitReply | .reqData => false
  | _ => true

theorem exec_local (i : Instr) (s : State) (hi : isLocal i = true) : LocalTo s (exec i s) := by
  cases i with
  | reset | send | select | awaitReply | reqData => exact absurd hi Bool.false_ne_true
  | encShort | encControl | rxByte | maskLoad => exact ⟨rfl, rfl, rfl, rfl⟩
  | encLong => exact execEncLong_local s
  | encRequest => exact execEncRequest_local s
  | encSelect => exact execEncSelect_local s
  | rxEnd => exact execRxEnd_local s
  | decode => exact s.local_decodeBuf _
  | resolvePrimary => exact execResolvePrimary_local s
  | maskNarrow => exact execMaskNarrow_local s
  | ack | short | control | long => exact s.local_feed _

/-- The most frames an instruction hands to `send` (20_memory.md R47). -/
def maxSends : Instr → Nat
  | .select => 2
  | .send | .reqData => 1
  | _ => 0

/-- The most answers to `recv()` an instruction takes when `n` are there (43_exchange.md R170;
42_addressing.md R149). -/
def maxRecvs (n : Nat) : Instr → Nat
  | .select => n
  | .awaitReply | .reqData => 2
  | _ => 0

/-- Every instruction. -/
theorem exec_traffic (i : Instr) (s : State) : TrafficTo s (maxSends i) (maxRecvs s.recvQ.length i) (exec i s) := by
  cases i with
  | reset => exact .of_same rfl rfl rfl
  | send => exact execSend_traffic s
  | select => exact execSelect_traffic s
  | awaitReply => exact execAwaitReply_traffic s
  | reqData => exact execReqData_traffic s
  | _ => exact (exec_local _ s rfl).traffic

theorem maxSends_le (i : Instr) : maxSends i ≤ 2 := by
  cases i <;> simp [maxSends]

theorem maxSends_le_one {i : Instr} (h : i ≠ .select) : maxSends i ≤ 1 := by
  cases i with
  | select => exact absurd rfl h
  | _ => simp [maxSends]

theorem maxSends_eq_zero {i : Instr} (hsel : i ≠ .select) (hsend : i ≠ .send) (hreq : i ≠ .reqData) :
    maxSends i = 0 := by
  cases i with
  | select => exact absurd rfl hsel
  | send => exact absurd rfl hsend
  | reqData => exact absurd rfl hreq
  | _ => rfl

theorem maxRecvs_le_two {i : Instr} (n : Nat) (h : i ≠ .select) : maxRecvs n i ≤ 2 := by
  cases i with
  | select => exact absurd rfl h
  | _ => simp [maxRecvs]

theorem maxRecvs_eq_zero {i : Instr} (n : Nat) (hsel : i ≠ .select) (hawait : i ≠ .awaitReply) (hreq : i ≠ .reqData) :
    maxRecvs n i = 0 := by
  cases i with
  | select => exact absurd rfl hsel
  | awaitReply => exact absurd rfl hawait
  | reqData => exact absurd rfl hreq
  | _ => rfl

/-- Settles O21, from the bound of each instruction. -/
theorem onlySendersTransmit : Obligations.OnlySendersTransmit := by
  intro i s t h
  obtain ⟨frames, hlog, hle⟩ := ((exec_traffic i s).of_next h).sent
  refine ⟨frames, hlog, hle.trans (maxSends_le i), fun hsel => hle.trans (maxSends_le_one hsel),
    fun hsel hsend hreq => ?_⟩
  rw [maxSends_eq_zero hsel hsend hreq] at hle
  exact List.eq_nil_of_length_eq_zero (Nat.le_zero.1 hle)

/-- Settles O22, from the bound of each instruction. -/
theorem receiveStreamIsConsumedInOrder : Obligations.ReceiveStreamIsConsumedInOrder := by
  intro i s t h
  obtain ⟨n, hq, hlog, hn, hle⟩ := ((exec_traffic i s).of_next h).taken
  refine ⟨n, hq, hlog, hn, fun hsel => hle.trans (maxRecvs_le_two _ hsel), fun hsel hawait hreq => ?_⟩
  rw [maxRecvs_eq_zero _ hsel hawait hreq] at hle
  exact Nat.le_zero.1 hle

end Sys2Proof.Machine
end

