-- ==== Sys2Proof/Proofs/Busy.lean ====
section
/-! While a reply is outstanding (10_state.md R17, 20_memory.md R48, 70_reset_and_hazards.md R223): nothing is sent, and
only AWAIT_REPLY and RESET end that time. -/

namespace Sys2Proof.Machine

/-- The operations that would send are declined (R96, R148, R171). -/
theorem exec_sender_of_busy {i : Instr} {s : State} (hb : s.busy = true) (hi : i = .send ∨ i = .select ∨ i = .reqData) :
    exec i s = .next (s.refuse .busy) := by
  rcases hi with rfl | rfl | rfl <;> exact if_pos hb

/-- Settles O23: a sender is declined, and what neither sends nor receives leaves BUSY alone. -/
theorem onlyAwaitReplyAndResetClearBusy : Obligations.OnlyAwaitReplyAndResetClearBusy := by
  intro i s t hb ht hfree
  have hchanged : t.busy ≠ s.busy := by rw [hb, hfree]; exact Bool.false_ne_true
  cases i with
  | awaitReply => exact .inl rfl
  | reset => exact .inr rfl
  | send | select | reqData =>
    rw [exec_sender_of_busy hb (by simp)] at ht
    cases ht
    exact absurd rfl hchanged
  | _ => exact absurd ((exec_local _ s rfl).of_next ht).busy hchanged

theorem exec_txLog_of_busy {i : Instr} {s t : State} (hb : s.busy = true) (ht : exec i s = .next t) :
    t.txLog = s.txLog := by
  by_cases hi : i = .send ∨ i = .select ∨ i = .reqData
  · rw [exec_sender_of_busy hb hi] at ht
    cases ht
    rfl
  · obtain ⟨hsend, hsel, hreq⟩ : i ≠ .send ∧ i ≠ .select ∧ i ≠ .reqData := by simpa only [not_or] using hi
    obtain ⟨frames, hlog, -, -, hnone⟩ := onlySendersTransmit i s t ht
    rw [hlog, hnone hsel hsend hreq, List.append_nil]

/-- The instruction a step finds is one of the CMD port or of the wire, and only the host's list has changed. -/
theorem fetch_instr {s t : State} {i : Instr} (h : fetch s = .instr i t) :
    t = { s with input := t.input } ∧
      ((∃ v q, s.input = .write 0 v :: q ∧ decodeCmd v = .ok i) ∨ ∃ b more, decodeWire s.cfg b = .ok (i, more)) := by
  unfold fetch at h
  split at h
  · cases h
  · next k v q hin =>
    split_ifs at h with hk
    subst hk
    unfold fetchCmd at h
    split at h
    · next hdec => cases h; exact ⟨rfl, .inl ⟨v, q, hin, hdec⟩⟩
    · cases h
  · cases h
  · cases h
  · next b q hin =>
    unfold fetchWire at h
    split at h
    · next more hdec => cases h; exact ⟨rfl, .inr ⟨b, more, hdec⟩⟩
    · split at h <;> cases h

/-- What a step does without an instruction sends nothing. -/
theorem fetch_done_txLog {s t : State} (h : fetch s = .done t) : t.txLog = s.txLog := by
  unfold fetch at h
  split at h
  · cases h; rfl
  · next k v q _ =>
    split_ifs at h
    · unfold fetchCmd at h
      split at h <;> cases h
      rfl
    · cases h
      rcases hostWrite_cases k v { s with input := q } with ⟨-, hw⟩ | hw <;> rw [hw]
  · next k q _ =>
    cases h
    rw [hostRead_eq]
  · cases h; rfl
  · unfold fetchWire at h
    split at h
    · cases h
    · split at h <;> cases h <;> rfl

/-- Settles O20: an instruction's traffic, and a step that finds no instruction sends nothing. -/
theorem nothingIsSentWhileBusy : Obligations.NothingIsSentWhileBusy := by
  refine ⟨fun i s t => exec_txLog_of_busy, fun s t hb hp ht => ?_⟩
  by_cases hcfg : s.cfg.Ok
  · cases hf : fetch s with
    | instr i u =>
      rw [step_of_fetch_instr hcfg hp hf] at ht
      obtain ⟨hu, -⟩ := fetch_instr hf
      have hub : u.busy = true := by rw [hu]; exact hb
      have hulog : u.txLog = s.txLog := by rw [hu]
      exact (exec_txLog_of_busy hub ht).trans hulog
    | done u =>
      rw [step_of_fetch_done hcfg hp hf] at ht
      cases ht
      exact fetch_done_txLog hf
  · rw [step_of_bad_configuration hcfg] at ht
    cases ht

end Sys2Proof.Machine
end

