-- ==== Sys2Proof/Proofs/Stops.lean ====
section
/-! Where the machine stops (60_exceptions.md R190, 70_reset_and_hazards.md R221): no operation answers `refused`, and
in a state that meets the invariant every cell the block reads has been written, but for the payload of ENC_LONG. -/

namespace Sys2Proof.Machine

/-- An operation answers a next state, or stops with a fault where `good` does not hold. -/
def Answers (good : Prop) : Result → Prop
  | .next _ => True
  | .fault _ => ¬ good
  | .refused _ => False

section
variable {good better : Prop} {o : Result}

theorem Answers.not_refused (h : Answers good o) (r : Refusal) : o ≠ .refused r := by
  rintro rfl
  exact h

theorem Answers.not_fault (h : Answers good o) (hg : good) (f : Fault) : o ≠ .fault f := by
  rintro rfl
  exact h hg

theorem Answers.imp (h : Answers good o) (hi : better → good) : Answers better o := by
  cases o with
  | next _ => trivial
  | fault _ => exact fun hb => h (hi hb)
  | refused _ => exact h

end

section
/-! The cells an operation reads -/
variable {s : State}

/-- The frame in TXBUF is there (10_state.md R12). -/
theorem State.Core.readBuffer_txbuf (h : s.Core) : (s.readBuffer .txbuf s.txbufLen.toNat).isSome :=
  State.readBuffer_isSome.2 h.mem.frame

theorem State.echoed_isSome (h : Memory.Filled s.mem .rxPay 8) : s.echoed.isSome := by
  obtain ⟨bs, hbs⟩ := Option.isSome_iff_exists.1 (Memory.readAll_isSome.2 h)
  obtain ⟨hlen, -⟩ := Memory.readAll_eq_some.1 hbs
  match bs, hlen with
  | [b0, b1, b2, b3, b4, b5, b6, b7], _ => rw [State.echoed, hbs]; rfl

/-- A long frame of eight payload bytes or more echoes an address that is there (42_addressing.md R147). -/
theorem State.Core.echoed_isSome (h : s.Core) (hlen : 8 ≤ s.rx.len) : s.echoed.isSome :=
  State.echoed_isSome fun i hi => h.rx.payload i (Nat.lt_of_lt_of_le hi hlen)

end

section
variable (s : State)

theorem sendAnswered_answers (good : Prop) : Answers good (sendAnswered s) := by
  unfold sendAnswered
  split <;> trivial

theorem execSend_answers : Answers s.Core (execSend s) := by
  unfold execSend
  split_ifs
  · trivial
  · trivial
  · split
    · exact sendAnswered_answers _ _
    · next hnone =>
      intro h
      have hsome := h.readBuffer_txbuf
      rw [hnone] at hsome
      cases hsome

theorem awaitMore_answers (good : Prop) (b : List Byte) : Answers good (awaitMore b s) := by
  unfold awaitMore
  split
  · trivial
  · split <;> trivial

theorem awaitFirst_answers (good : Prop) : Answers good (awaitFirst s) := by
  unfold awaitFirst
  split
  · trivial
  · split
    · trivial
    · trivial
    · dsimp only
      split_ifs
      · exact awaitMore_answers _ _ _
      · trivial

theorem execAwaitReply_answers (good : Prop) : Answers good (execAwaitReply s) := by
  unfold execAwaitReply
  split_ifs
  · trivial
  · exact awaitFirst_answers _ _

theorem requestAnswered_answers (good : Prop) : Answers good (requestAnswered s) := by
  unfold requestAnswered
  split
  · trivial
  · trivial
  · exact awaitFirst_answers _ _

theorem execReqData_answers (good : Prop) : Answers good (execReqData s) := by
  unfold execReqData
  split_ifs
  · trivial
  · simp only [State.readBuffer_buildRequest]
    exact requestAnswered_answers _ _
  · trivial

theorem step4Answered_answers (good : Prop) : Answers good (step4Answered s) := by
  unfold step4Answered
  split <;> trivial

theorem step4_answers (good : Prop) : Answers good (step4 s) := by
  rw [step4_eq]
  exact step4Answered_answers _ _

theorem classifyFrame_answers : Answers s.Core (classifyFrame s) := by
  unfold classifyFrame
  split
  · split_ifs with hlen
    · split
      · split_ifs
        · exact step4_answers _ _
        · trivial
      · next hnone =>
        intro h
        have hsome := h.echoed_isSome hlen
        rw [hnone] at hsome
        cases hsome
    · trivial
  · split_ifs
    · exact step4_answers _ _
    · trivial
  all_goals trivial

theorem classify_answers (w : List Byte) : Answers s.Core (classify w s) := by
  unfold classify
  split_ifs
  · trivial
  · dsimp only
    split
    · trivial
    · exact (classifyFrame_answers _).imp fun h => h.decodeBuf w

theorem window_answers (q : List RecvInput) (w : List Byte) : Answers s.Core (window q w s) := by
  induction q generalizing s w with
  | nil => trivial
  | cons r q ih =>
    rw [window]
    split
    · exact (ih _ _).imp fun h => h.received r q
    · exact (classify_answers _ w).imp fun h => (h.received r q).setBusy false
    · trivial

theorem selectAnswered_answers : Answers s.Core (selectAnswered s) := by
  unfold selectAnswered
  split
  · trivial
  · trivial
  · next ht =>
    obtain ⟨q, -, rfl⟩ := State.takeSend_eq_some ht
    exact (window_answers _ _ _).imp fun h => (h.answered q).setBusy true

theorem execSelect_answers : Answers s.Core (execSelect s) := by
  unfold execSelect
  split_ifs
  · trivial
  · trivial
  · simp only [State.readBuffer_buildSelect]
    exact (selectAnswered_answers _).imp fun h => h.selectStart.buildSelect.handOver _

/-- An operation in progress. -/
theorem resume_answers : Answers s.Core (resume s) := by
  unfold resume
  split
  · trivial
  · exact sendAnswered_answers _ _
  · exact requestAnswered_answers _ _
  · exact selectAnswered_answers _
  · exact step4Answered_answers _ _
  · exact awaitFirst_answers _ _
  · exact awaitMore_answers _ _ _
  · exact window_answers _ _ _

/-- The one operation that can stop in a good state (R221). -/
theorem execEncLong_cases : (∃ t, execEncLong s = .next t) ∨
    (execEncLong s = .fault (.unwrittenCell .txPay) ∧ s.readBuffer .txPay s.tx.len.toNat = none) := by
  unfold execEncLong
  split_ifs
  · exact .inl ⟨_, rfl⟩
  · split
    · exact .inl ⟨_, rfl⟩
    · next hnone => exact .inr ⟨rfl, hnone⟩

theorem exec_answers {i : Instr} (hi : i ≠ .encLong) : Answers s.Core (exec i s) := by
  cases i with
  | encLong => exact absurd rfl hi
  | encRequest =>
    show Answers _ (execEncRequest s)
    unfold execEncRequest
    split_ifs <;> trivial
  | encSelect =>
    show Answers _ (execEncSelect s)
    unfold execEncSelect
    split_ifs <;> trivial
  | resolvePrimary =>
    show Answers _ (execResolvePrimary s)
    unfold execResolvePrimary
    split_ifs <;> trivial
  | maskNarrow =>
    show Answers _ (execMaskNarrow s)
    unfold execMaskNarrow
    dsimp only
    split_ifs <;> trivial
  | send => exact execSend_answers s
  | select => exact execSelect_answers s
  | awaitReply => exact execAwaitReply_answers _ _
  | reqData => exact execReqData_answers _ _
  | _ => trivial

end

section
/-! The step -/
variable {s t : State} {i : Instr}

/-- ENC_LONG has one code (30_encoding.md R78). -/
theorem decodeCmd_encLong {v : Byte} (h : decodeCmd v = .ok .encLong) : v = 3 := by
  have hall : ∀ v : Byte, decodeCmd v = .ok .encLong → v = 3 := by decide
  exact hall v h

theorem decodeBody_format {l : Byte} {b more : List Byte} (h : decodeBody l b = .ok (i, more)) : i.format = .wire := by
  unfold decodeBody at h
  grind [Instr.format]

/-- What the wire brings is a unit (30_encoding.md R71). -/
theorem decodeWire_format {cfg : Config.Params} {b more : List Byte} (h : decodeWire cfg b = .ok (i, more)) :
    i.format = .wire := by
  unfold decodeWire at h
  grind [Instr.format, decodeBody_format]

theorem fetch_encLong (h : fetch s = .instr .encLong t) : ∃ q, s.input = .write 0 3 :: q := by
  obtain ⟨-, ⟨v, q, hin, hdec⟩ | ⟨b, more, hdec⟩⟩ := fetch_instr h
  · exact ⟨q, decodeCmd_encLong hdec ▸ hin⟩
  · cases decodeWire_format hdec

theorem step_not_refused (r : Refusal) : step s ≠ .refused r := by
  by_cases hcfg : s.cfg.Ok
  · by_cases hp : s.phase = .idle
    · cases hf : fetch s with
      | done t => rw [step_of_fetch_done hcfg hp hf]; nofun
      | instr i t =>
        rw [step_of_fetch_instr hcfg hp hf]
        by_cases hi : i = .encLong
        · subst hi
          show execEncLong t ≠ _
          rcases execEncLong_cases t with ⟨u, hu⟩ | ⟨hu, -⟩ <;> rw [hu] <;> nofun
        · exact (exec_answers t hi).not_refused r
    · rw [step_in_progress hcfg hp]
      exact (resume_answers s).not_refused r
  · rw [step_of_bad_configuration hcfg]
    nofun

theorem step_fault {f : Fault} (h : s.Inv) (hf : step s = .fault f) :
    f = .unwrittenCell .txPay ∧ ∃ q, s.input = .write 0 3 :: q := by
  obtain ⟨hcore, -⟩ := State.inv_iff.1 h
  by_cases hp : s.phase = .idle
  · cases hfetch : fetch s with
    | done t => rw [step_of_fetch_done h.cfg hp hfetch] at hf; cases hf
    | instr i t =>
      rw [step_of_fetch_instr h.cfg hp hfetch] at hf
      by_cases hi : i = .encLong
      · subst hi
        refine ⟨?_, fetch_encLong hfetch⟩
        change execEncLong t = _ at hf
        rcases execEncLong_cases t with ⟨u, hu⟩ | ⟨hu, -⟩
        · rw [hu] at hf; cases hf
        · rw [hu] at hf; cases hf; rfl
      · obtain ⟨ht, -⟩ := fetch_instr hfetch
        have htcore : t.Core := ht ▸ hcore.setInput t.input
        exact absurd hf ((exec_answers t hi).not_fault htcore f)
  · rw [step_in_progress h.cfg hp] at hf
    exact absurd hf ((resume_answers s).not_fault hcore f)

theorem execEncLong_fault {k : Nat} (hmax : s.tx.len.toNat ≤ 252) (hk : k < s.tx.len.toNat)
    (hnone : Memory.read s.mem (0x100 + k) = none) : execEncLong s = .fault (.unwrittenCell .txPay) := by
  have hread : s.readBuffer .txPay s.tx.len.toNat = none := by
    rw [← Option.not_isSome_iff_eq_none, State.readBuffer_isSome]
    intro hall
    have hsome := hall k hk
    rw [Buffer.base, hnone] at hsome
    cases hsome
  have hfits : ¬ s.tx.len.toNat > Config.payloadMax := Nat.not_lt.2 hmax
  rw [execEncLong, if_neg hfits, hread]

end

/-- Settles O59: in a good state only ENC_LONG faults, and only the byte 3 at CMD is ENC_LONG. -/
theorem onlyAnUnwrittenPayloadStops : Obligations.OnlyAnUnwrittenPayloadStops :=
  ⟨fun _ _ => step_fault, fun _ _ => execEncLong_fault, fun _ => step_not_refused⟩

end Sys2Proof.Machine
end

