-- ==== Sys2Proof/Proofs/ClosedForm.lean ====
section
/-! DECODE answers what its closed form says (41_decode.md R119, R120): the loop is followed along the parts of a
frame, and where the buffer ends or a byte is wrong both forms give the same error. -/

namespace Sys2Proof.Machine

section
/-! The frame the receive registers hold -/
variable {s t : State}

@[simp] theorem State.lastResult_emit_err (s : State) (e : DecodeError) :
    (s.emit (.err e)).lastResult = some (.err e) := rfl

theorem State.lastResult_of_err {e : DecodeError} (h : s.rx.err = some e) : s.lastResult = some (.err e) := by
  simp only [State.lastResult, h]

/-- The frame of a kind, when its event is latched (R18). -/
def State.frameOf (s : State) : FrameKind → Option Frame
  | .ack => some .ack
  | .short => some (.short s.rx.c s.rx.a)
  | .control => some (.control s.rx.c s.rx.a s.rx.ci)
  | .long => (s.readBuffer .rxPay s.rx.len.toNat).map (.long s.rx.c s.rx.a s.rx.ci)

theorem State.lastResult_of_kind {k : FrameKind} (he : s.rx.err = none) (hk : s.rx.kind = some k) :
    s.lastResult = (s.frameOf k).map .ok := by
  cases k with
  | long =>
    simp only [State.lastResult, he, hk, State.frameOf]
    cases s.readBuffer .rxPay s.rx.len.toNat <;> rfl
  | _ => simp only [State.lastResult, he, hk, State.frameOf, Option.map_some]

end

section
/-! The loop at one byte -/
variable {s : State} {b : Byte}

theorem State.decodeLoop_quiet (h : s.eventAt b = none) (v : List Byte) :
    s.decodeLoop (b :: v) = (s.takeByte b).decodeLoop v := by
  rw [State.decodeLoop, h]

/-- A buffer that ends before an event is Truncated. -/
theorem State.lastResult_of_quiet {u : List Byte} (h : s.Quiet u) :
    (s.decodeLoop u).lastResult = some (.err .truncated) := by
  have hloop := State.decodeLoop_append [] h
  rw [List.append_nil] at hloop
  rw [hloop, State.decodeLoop, State.lastResult_emit_err]

/-- A byte that produces an error ends the loop with it. -/
theorem State.lastResult_error {e : DecodeError} (h : s.eventAt b = some (.err e)) (v : List Byte) :
    (s.decodeLoop (b :: v)).lastResult = some (.err e) := by
  rw [State.decodeLoop_error v h]
  have hrx : (s.takeByte b).rx = s.rx.emit (.err e) := Rx.next_event h
  exact State.lastResult_of_err (by rw [hrx]; rfl)

/-- A byte that completes a frame ends the loop with the frame, if it is the last. -/
theorem State.lastResult_frame {k : FrameKind} (h : s.eventAt b = some (.ok k)) (v : List Byte) :
    (s.decodeLoop (b :: v)).lastResult =
      if v = [] then ((s.takeByte b).frameOf k).map .ok else some (.err .unexpectedLength) := by
  rw [State.decodeLoop_frame v h]
  have hrx : (s.takeByte b).rx = s.rx.emit (.ok k) := Rx.next_event h
  split
  · exact State.lastResult_of_kind (by rw [hrx, Rx.emit_ok_err]) (by rw [hrx, Rx.emit_ok_kind])
  · rfl

end

section
/-! The end of a frame (R113, R116) -/
variable {s : State} {stop : Byte} {more : List Byte}

/-- What a short frame comes to at its last byte. -/
theorem State.lastResult_shStop (hs : s.rx.state = .shStop) :
    (s.decodeLoop (stop :: more)).lastResult = some (
      if stop ≠ s.cfg.stopByte then .err .malformed
      else if s.rx.csok = false then .err .checksumMismatch
      else if more ≠ [] then .err .unexpectedLength
      else .ok (.short s.rx.c s.rx.a)) := by
  have hev : s.eventAt stop = some (if stop ≠ s.cfg.stopByte then .err .malformed
      else if s.rx.csok = false then .err .checksumMismatch else .ok .short) := by
    simp only [State.eventAt, Rx.next, hs]
    split_ifs <;> rfl
  split_ifs at hev ⊢ with hstop hcs hmore
  · exact State.lastResult_error hev more
  · exact State.lastResult_error hev more
  · rw [State.lastResult_frame hev, if_neg hmore]
  · have hrx : (s.takeByte stop).rx = s.rx.emit (.ok .short) := Rx.next_event hev
    rw [State.lastResult_frame hev, if_pos (not_not.1 hmore), State.frameOf, hrx]
    rfl

/-- What a control or long frame comes to at its last byte. -/
theorem State.lastResult_lgStop {p : List Byte} (hs : s.rx.state = .lgStop) (hl : s.rx.l.toNat = p.length + 3)
    (hp : s.readBuffer .rxPay p.length = some p) :
    (s.decodeLoop (stop :: more)).lastResult = some (
      if stop ≠ s.cfg.stopByte then .err .malformed
      else if s.rx.csok = false then .err .checksumMismatch
      else if more ≠ [] then .err .unexpectedLength
      else if p = [] then .ok (.control s.rx.c s.rx.a s.rx.ci)
      else .ok (.long s.rx.c s.rx.a s.rx.ci p)) := by
  have hl3 : s.rx.l = 3 ↔ p = [] := by
    rw [← BitVec.toNat_inj, hl, ← List.length_eq_zero_iff]
    show p.length + 3 = 3 ↔ _
    omega
  have hev : s.eventAt stop = some (if stop ≠ s.cfg.stopByte then .err .malformed
      else if s.rx.csok = false then .err .checksumMismatch
      else if p = [] then .ok .control else .ok .long) := by
    simp only [State.eventAt, Rx.next, hs, hl3]
    split_ifs <;> rfl
  by_cases hstop : stop ≠ s.cfg.stopByte
  · rw [if_pos hstop] at hev ⊢
    exact State.lastResult_error hev more
  rw [if_neg hstop] at hev ⊢
  by_cases hcs : s.rx.csok = false
  · rw [if_pos hcs] at hev ⊢
    exact State.lastResult_error hev more
  rw [if_neg hcs] at hev ⊢
  have hmem : (s.takeByte stop).mem = s.mem := by simp only [State.takeByte, Rx.store, hs]
  split_ifs at hev ⊢ with hmore hnil hnil
  · rw [State.lastResult_frame hev, if_neg hmore]
  · rw [State.lastResult_frame hev, if_neg hmore]
  · have hrx : (s.takeByte stop).rx = s.rx.emit (.ok .control) := Rx.next_event hev
    rw [State.lastResult_frame hev, if_pos (not_not.1 hmore), State.frameOf, hrx]
    rfl
  · have hrx : (s.takeByte stop).rx = s.rx.emit (.ok .long) := Rx.next_event hev
    have hlen : (s.rx.l - 3).toNat = p.length := by bv_omega
    rw [State.lastResult_frame hev, if_pos (not_not.1 hmore), State.frameOf, State.readBuffer_of_mem hmem, hrx,
      Rx.emit_long_len, hlen, hp]
    rfl

end

section
/-! The body of a control or long frame (R115, R116), from LG_C on -/
variable {s : State} {c a ci : Byte} {p : List Byte}

/-- The receiver's registers after the header fields and the payload of a body, and the payload stored. -/
def State.afterPayload (s : State) (c a ci : Byte) (p : List Byte) : State :=
  { s with
    rx := { s.rx with
      c := c, a := a, ci := ci, sum := c + a + ci + sum8 p, cnt := BitVec.ofNat 8 p.length, state := .lgCs }
    mem := Memory.writeAll s.mem 0x200 p }

theorem State.takes_fields (hs : s.rx.state = .lgC) :
    s.Quiet [c, a, ci] ∧ s.takes [c, a, ci] = { s with
      rx := { s.rx with
        c := c, a := a, ci := ci, sum := c + a + ci, cnt := 0,
        state := if s.rx.l = 3 then .lgCs else .lgData } } := by
  simp [State.takeByte, State.eventAt, Rx.next, Rx.store, hs]

/-- No byte of a body up to its payload's end produces an event. -/
theorem State.takes_body (hs : s.rx.state = .lgC) (hp : p.length + 3 ≤ s.rx.l.toNat) :
    s.Quiet (c :: a :: ci :: p) ∧
      (p.length + 3 = s.rx.l.toNat → s.takes (c :: a :: ci :: p) = s.afterPayload c a ci p) := by
  obtain ⟨hquiet, htakes⟩ := s.takes_fields (c := c) (a := a) (ci := ci) hs
  rw [show c :: a :: ci :: p = [c, a, ci] ++ p from rfl, State.quiet_append, State.takes_append, htakes]
  by_cases hl : s.rx.l = 3
  · have hnil : p = [] := by
      rw [hl] at hp
      exact List.length_eq_zero_iff.1 (Nat.le_zero.1 (Nat.le_of_add_le_add_right hp))
    subst hnil
    refine ⟨⟨hquiet, trivial⟩, fun _ => ?_⟩
    simp [State.afterPayload, hl, Memory.writeAll]
  · have hlong : 3 < s.rx.l.toNat := by bv_omega
    obtain ⟨hqp, htp⟩ := State.takes_payload p
      { s with rx := { s.rx with c := c, a := a, ci := ci, sum := c + a + ci, cnt := 0, state := .lgData } } rfl
      (by simpa using hlong) (by simpa using hp)
    simp only [if_neg hl]
    refine ⟨⟨hquiet, hqp⟩, fun hlen => ?_⟩
    rw [htp]
    simp [State.afterPayload, hlen]

/-- A body that ends before its last byte is Truncated. -/
theorem State.lastResult_body_short {bs : List Byte} (hs : s.rx.state = .lgC) (hl : 3 ≤ s.rx.l.toNat)
    (hlen : bs.length < s.rx.l.toNat + 2) : (s.decodeLoop bs).lastResult = some (.err .truncated) := by
  refine State.lastResult_of_quiet ?_
  match bs, hlen with
  | [], _ => trivial
  | [c], _ => simp [State.eventAt, Rx.next, hs]
  | [c, a], _ => simp [State.takeByte, State.eventAt, Rx.next, hs]
  | c :: a :: ci :: more, hlen =>
    simp only [List.length_cons] at hlen
    by_cases hmore : more.length + 3 ≤ s.rx.l.toNat
    · exact (State.takes_body hs hmore).1
    · obtain ⟨p, cs, rfl⟩ : ∃ p cs, more = p ++ [cs] :=
        ⟨more.dropLast, more.getLast (by rintro rfl; simp at hmore; omega), (List.dropLast_append_getLast _).symm⟩
      simp only [List.length_append, List.length_singleton] at hlen hmore
      obtain ⟨hquiet, htakes⟩ := State.takes_body (c := c) (a := a) (ci := ci) (p := p) hs (by omega)
      rw [show c :: a :: ci :: (p ++ [cs]) = (c :: a :: ci :: p) ++ [cs] from rfl, State.quiet_append,
        htakes (by omega)]
      exact ⟨hquiet, rfl, trivial⟩

/-- What a whole body comes to. -/
theorem State.lastResult_body {cs stop : Byte} {more : List Byte} (hs : s.rx.state = .lgC)
    (hp : p.length + 3 = s.rx.l.toNat) :
    (s.decodeLoop (c :: a :: ci :: (p ++ cs :: stop :: more))).lastResult = some (
      if stop ≠ s.cfg.stopByte then .err .malformed
      else if cs ≠ c + a + ci + sum8 p then .err .checksumMismatch
      else if more ≠ [] then .err .unexpectedLength
      else if p = [] then .ok (.control c a ci)
      else .ok (.long c a ci p)) := by
  obtain ⟨hquiet, htakes⟩ := State.takes_body (c := c) (a := a) (ci := ci) (p := p) hs (by omega)
  rw [show c :: a :: ci :: (p ++ cs :: stop :: more) = (c :: a :: ci :: p) ++ cs :: stop :: more from rfl,
    State.decodeLoop_append _ hquiet, htakes hp, State.decodeLoop_quiet rfl,
    State.lastResult_lgStop (s := (s.afterPayload c a ci p).takeByte cs) rfl hp.symm
      (Memory.readAll_writeAll s.mem 0x200 p)]
  simp [State.afterPayload, State.takeByte, Rx.next]

end

section
/-! The closed form of a control or long frame (R120), along the same parts -/
variable {cfg : Config.Params} {l : Byte} {bs : List Byte}

/-- The closed form after a good header, told from the bytes after it. -/
theorem closedLong_header (hl : 3 ≤ l.toNat) :
    closedLong cfg (cfg.startLong :: l :: l :: cfg.startLong :: bs) =
      if bs.length < l.toNat + 2 then .err .truncated
      else if byteAt bs (l.toNat + 1) ≠ cfg.stopByte then .err .malformed
      else if byteAt bs l.toNat ≠ sum8 (bs.take l.toNat) then .err .checksumMismatch
      else if l.toNat + 2 < bs.length then .err .unexpectedLength
      else if l.toNat = 3 then .ok (.control (byteAt bs 0) (byteAt bs 1) (byteAt bs 2))
      else .ok (.long (byteAt bs 0) (byteAt bs 1) (byteAt bs 2) ((bs.drop 3).take (l.toNat - 3))) := by
  have hstop : byteAt (cfg.startLong :: l :: l :: cfg.startLong :: bs) (l.toNat + 5) = byteAt bs (l.toNat + 1) := rfl
  have hcs : byteAt (cfg.startLong :: l :: l :: cfg.startLong :: bs) (l.toNat + 4) = byteAt bs l.toNat := rfl
  have hlen : (cfg.startLong :: l :: l :: cfg.startLong :: bs).length = bs.length + 4 := rfl
  have h1 : byteAt (cfg.startLong :: l :: l :: cfg.startLong :: bs) 1 = l := rfl
  have h2 : byteAt (cfg.startLong :: l :: l :: cfg.startLong :: bs) 2 = l := rfl
  have h3 : byteAt (cfg.startLong :: l :: l :: cfg.startLong :: bs) 3 = cfg.startLong := rfl
  simp only [closedLong, h1, h2, h3, hstop, hcs, hlen, ne_eq, not_true_eq_false, if_false,
    if_neg (show ¬ bs.length + 4 < 3 by omega), if_neg (show ¬ bs.length + 4 < 4 by omega),
    if_neg (show ¬ l.toNat < 3 by omega), gt_iff_lt, show l.toNat + 6 = l.toNat + 2 + 4 from rfl,
    Nat.add_lt_add_iff_right]
  rfl

theorem closedLong_short (hl : 3 ≤ l.toNat) (hlen : bs.length < l.toNat + 2) :
    closedLong cfg (cfg.startLong :: l :: l :: cfg.startLong :: bs) = .err .truncated := by
  rw [closedLong_header hl, if_pos hlen]

theorem byteAt_append_length (p q : List Byte) (k : Nat) : byteAt (p ++ q) (p.length + k) = byteAt q k := by
  simp [byteAt, List.getElem?_append_right]

theorem closedLong_body {c a ci cs stop : Byte} {p more : List Byte} (hp : p.length + 3 = l.toNat) :
    closedLong cfg (cfg.startLong :: l :: l :: cfg.startLong :: c :: a :: ci :: (p ++ cs :: stop :: more)) =
      if stop ≠ cfg.stopByte then .err .malformed
      else if cs ≠ c + a + ci + sum8 p then .err .checksumMismatch
      else if more ≠ [] then .err .unexpectedLength
      else if p = [] then .ok (.control c a ci)
      else .ok (.long c a ci p) := by
  have hstop : byteAt (c :: a :: ci :: (p ++ cs :: stop :: more)) (p.length + 3 + 1) = stop :=
    byteAt_append_length p (cs :: stop :: more) 1
  have hcs : byteAt (c :: a :: ci :: (p ++ cs :: stop :: more)) (p.length + 3) = cs :=
    byteAt_append_length p (cs :: stop :: more) 0
  have hsum : sum8 ((c :: a :: ci :: (p ++ cs :: stop :: more)).take (p.length + 3)) = c + a + ci + sum8 p := by
    simp [BitVec.add_assoc]
  have hpay : ((c :: a :: ci :: (p ++ cs :: stop :: more)).drop 3).take (p.length + 3 - 3) = p := List.take_left
  have hlen : (c :: a :: ci :: (p ++ cs :: stop :: more)).length = p.length + 3 + 2 + more.length := by
    simp only [List.length_cons, List.length_append]
    omega
  have hmore : p.length + 3 + 2 < p.length + 3 + 2 + more.length ↔ more ≠ [] := by
    rw [← List.length_pos_iff]
    omega
  have hnil : p.length + 3 = 3 ↔ p = [] := by
    rw [← List.length_eq_zero_iff]
    omega
  rw [closedLong_header (by omega), ← hp, hstop, hcs, hsum, hpay, hlen, if_neg (by omega)]
  simp only [hmore, hnil]
  rfl

end

section
/-! One byte of a header (R114) -/
variable {cfg : Config.Params} {r : Rx} {b : Byte}

theorem Rx.next_lgL2_good (hs : r.state = .lgL2) (h : ¬ (b ≠ r.l ∨ b < 3)) :
    r.next cfg b = ({ r with state := .lgStart2 }, none) := by
  simp only [Rx.next, hs, if_neg h]

theorem Rx.next_lgL2_bad (hs : r.state = .lgL2) (h : b ≠ r.l ∨ b < 3) :
    r.next cfg b = (r.emit (.err .unexpectedLength), some (.err .unexpectedLength)) := by
  simp only [Rx.next, hs, if_pos h]

end

/-- The loop at a byte that produces no event and is no payload. -/
theorem State.decodeLoop_of_next {s : State} {b : Byte} {r : Rx} {place : RxState} (hs : s.rx.state = place)
    (hplace : place ≠ .lgData) (h : s.rx.next s.cfg b = (r, none)) (v : List Byte) :
    s.decodeLoop (b :: v) = { s with rx := r }.decodeLoop v := by
  have hstore : s.rx.store s.mem b = s.mem := by
    unfold Rx.store
    split
    · next hdata => exact absurd (hs.symm.trans hdata) hplace
    all_goals rfl
  have htake : s.takeByte b = { s with rx := r } := by rw [State.takeByte, h, hstore]
  rw [State.decodeLoop_quiet (congrArg Prod.snd h), htake]

section
/-! The header (R114), and the other frames -/
variable {s : State}

/-- The receiver past the header of a control or long frame. -/
def State.afterHeader (s : State) (l : Byte) : State := { s with rx := { s.rx with sum := 0, l := l, state := .lgC } }

/-- The receiver past the first byte of a control or long frame. -/
def State.afterStart (s : State) : State := { s with rx := { s.rx with sum := 0, state := .lgL1 } }

/-- The receiver past two good length bytes. -/
def State.afterLengths (s : State) (l : Byte) : State :=
  { s with rx := { s.rx with sum := 0, l := l, state := .lgStart2 } }

theorem State.decodeLoop_lengths {l : Byte} (hl : ¬ l < 3) (bs : List Byte) :
    s.afterStart.decodeLoop (l :: l :: bs) = (s.afterLengths l).decodeLoop bs := by
  have hgood : ¬ (l ≠ l ∨ l < 3) := by simpa using hl
  rw [State.decodeLoop_quiet rfl, State.decodeLoop_of_next (place := .lgL2) rfl nofun (Rx.next_lgL2_good rfl hgood)]
  rfl

theorem State.lastResult_bad_lengths {l l2 : Byte} (hbad : l2 ≠ l ∨ l2 < 3) (bs : List Byte) :
    (s.afterStart.decodeLoop (l :: l2 :: bs)).lastResult = some (.err .unexpectedLength) := by
  rw [State.decodeLoop_quiet rfl, State.lastResult_error (congrArg Prod.snd (Rx.next_lgL2_bad rfl hbad))]

theorem closedLong_bad_lengths (cfg : Config.Params) {l l2 : Byte} (hbad : l2 ≠ l ∨ l2 < 3) (bs : List Byte) :
    closedLong cfg (cfg.startLong :: l :: l2 :: bs) = .err .unexpectedLength := by
  by_cases hne : l2 = l
  · subst hne
    have hlt : l2.toNat < 3 := hbad.resolve_left fun h => h rfl
    simp [closedLong, byteAt, hlt]
  · simp [closedLong, byteAt, Ne.symm hne]

theorem closedLong_lengths_only (cfg : Config.Params) {l : Byte} (hl : ¬ l < 3) :
    closedLong cfg [cfg.startLong, l, l] = .err .truncated := by
  have hlt : ¬ l.toNat < 3 := hl
  simp [closedLong, byteAt, hlt]

theorem closedLong_bad_start (cfg : Config.Params) {l st : Byte} (hl : ¬ l < 3) (hst : st ≠ cfg.startLong)
    (bs : List Byte) : closedLong cfg (cfg.startLong :: l :: l :: st :: bs) = .err .malformed := by
  have hlt : ¬ l.toNat < 3 := hl
  simp [closedLong, byteAt, hlt, hst, show ¬ bs.length + 1 + 1 + 1 + 1 < 3 by omega,
    show ¬ bs.length + 1 + 1 + 1 + 1 < 4 by omega]

/-- After the header, by whether the body is whole. -/
theorem State.lastResult_afterHeader {l : Byte} (hl : 3 ≤ l.toNat) (bs : List Byte) :
    ((s.afterHeader l).decodeLoop bs).lastResult =
      some (closedLong s.cfg (s.cfg.startLong :: l :: l :: s.cfg.startLong :: bs)) := by
  by_cases hlen : bs.length < l.toNat + 2
  · rw [closedLong_short hl hlen]
    exact State.lastResult_body_short rfl hl hlen
  · obtain ⟨u, v, rfl, hu⟩ : ∃ u v, bs = u ++ v ∧ u.length = l.toNat :=
      ⟨bs.take l.toNat, bs.drop l.toNat, (List.take_append_drop _ _).symm, List.length_take_of_le (by omega)⟩
    obtain ⟨c, a, ci, p, rfl⟩ : ∃ c a ci p, u = c :: a :: ci :: p := by
      match u with
      | c :: a :: ci :: p => exact ⟨c, a, ci, p, rfl⟩
      | [] | [_] | [_, _] => simp at hu; omega
    obtain ⟨cs, stop, more, rfl⟩ : ∃ cs stop more, v = cs :: stop :: more := by
      match v with
      | cs :: stop :: more => exact ⟨cs, stop, more, rfl⟩
      | [] | [_] => simp at hu hlen; omega
    have hp : p.length + 3 = l.toNat := hu
    rw [List.cons_append, List.cons_append, List.cons_append, closedLong_body hp]
    exact State.lastResult_body (s := s.afterHeader l) rfl hp

/-- After the first byte, by the length bytes and the repeated start. -/
theorem State.lastResult_afterStart (bs : List Byte) :
    (s.afterStart.decodeLoop bs).lastResult = some (closedLong s.cfg (s.cfg.startLong :: bs)) := by
  match bs with
  | [] => rfl
  | [l] => rfl
  | l :: l2 :: bs =>
    by_cases hbad : l2 ≠ l ∨ l2 < 3
    · rw [State.lastResult_bad_lengths hbad, closedLong_bad_lengths s.cfg hbad]
    · obtain ⟨rfl, hl⟩ : l2 = l ∧ ¬ l2 < 3 := by simpa only [not_or, not_not] using hbad
      rw [State.decodeLoop_lengths hl]
      match bs with
      | [] => rw [closedLong_lengths_only s.cfg hl]; rfl
      | st :: bs =>
        by_cases hst : st = s.cfg.startLong
        · subst hst
          have hnext : (s.afterLengths l2).rx.next s.cfg s.cfg.startLong = ((s.afterHeader l2).rx, none) := by
            simp [State.afterLengths, State.afterHeader, Rx.next]
          rw [State.decodeLoop_of_next (place := .lgStart2) rfl nofun hnext]
          exact State.lastResult_afterHeader (Nat.le_of_not_lt hl) bs
        · have hev : (s.afterLengths l2).eventAt st = some (.err .malformed) := by
            simp [State.eventAt, State.afterLengths, Rx.next, hst]
          rw [State.lastResult_error hev, closedLong_bad_start s.cfg hl hst]

/-- The receiver past the first byte of a short frame. -/
def State.afterStartShort (s : State) : State := { s with rx := { s.rx with sum := 0, state := .shC } }

/-- A short frame (R113). -/
theorem State.lastResult_afterStartShort (bs : List Byte) :
    (s.afterStartShort.decodeLoop bs).lastResult = some (closedShort s.cfg (s.cfg.startShort :: bs)) := by
  match bs with
  | [] | [c] | [c, a] | [c, a, cs] => rfl
  | c :: a :: cs :: stop :: more =>
    have hmore : 5 < more.length + 1 + 1 + 1 + 1 + 1 ↔ more ≠ [] := by
      rw [← List.length_pos_iff]
      omega
    rw [State.decodeLoop_quiet rfl, State.decodeLoop_quiet rfl, State.decodeLoop_quiet rfl,
      State.lastResult_shStop rfl]
    simp [closedShort, byteAt, hmore, State.afterStartShort, State.takeByte, Rx.next]

/-- DECODE's loop from IDLE answers what the closed form says, whatever was latched before (R119, R120). -/
theorem State.lastResult_decodeLoop (hs : s.rx.state = .idle) (bs : List Byte) :
    (s.decodeLoop bs).lastResult = some (closedDecode s.cfg bs) := by
  match bs with
  | [] => rfl
  | b :: bs =>
    rw [closedDecode]
    by_cases hack : b = s.cfg.ackByte
    · have hev : s.eventAt b = some (.ok .ack) := by simp only [State.eventAt, Rx.next, hs, if_pos hack]
      rw [if_pos hack, State.lastResult_frame hev]
      split <;> rfl
    rw [if_neg hack]
    by_cases hshort : b = s.cfg.startShort
    · subst hshort
      have hnext : s.rx.next s.cfg s.cfg.startShort = (s.afterStartShort.rx, none) := by
        simp only [State.afterStartShort, Rx.next, hs, if_neg hack, if_true]
      rw [if_pos rfl, State.decodeLoop_of_next hs nofun hnext]
      exact State.lastResult_afterStartShort bs
    rw [if_neg hshort]
    by_cases hlong : b = s.cfg.startLong
    · subst hlong
      have hnext : s.rx.next s.cfg s.cfg.startLong = (s.afterStart.rx, none) := by
        simp only [State.afterStart, Rx.next, hs, if_neg hack, if_neg hshort, if_true]
      rw [if_pos rfl, State.decodeLoop_of_next hs nofun hnext]
      exact State.lastResult_afterStart bs
    · have hev : s.eventAt b = some (.err .malformed) := by
        simp only [State.eventAt, Rx.next, hs, if_neg hack, if_neg hshort, if_neg hlong]
      rw [if_neg hlong, State.lastResult_error hev]

end

/-- DECODE answers what the closed form says, from every state and for every buffer (R119, R120). -/
theorem State.lastResult_decodeBuf (s : State) (bs : List Byte) :
    (s.decodeBuf bs).lastResult = some (closedDecode s.cfg bs) :=
  State.lastResult_decodeLoop (s := s.rxClear.accept) rfl bs

end Sys2Proof.Machine
end

