-- ==== Sys2Proof/Proofs/DecodeResults.lean ====
section
/-! What a decode result says of the receive registers, DECODE as an instruction (41_decode.md R119), and the first read
of an exchange (43_exchange.md R170, R172). -/

namespace Sys2Proof.Machine

section
/-! The registers behind a decode result (10_state.md R18) -/
variable {s t : State}

/-- The kind of a frame, as RX_KIND names it. -/
def kindOf : Frame → FrameKind
  | .ack => .ack
  | .short .. => .short
  | .control .. => .control
  | .long .. => .long

theorem State.lastResult_err {e : DecodeError} : s.lastResult = some (.err e) ↔ s.rx.err = some e := by
  refine ⟨fun h => ?_, State.lastResult_of_err⟩
  cases he : s.rx.err with
  | some x =>
    rw [State.lastResult_of_err he] at h
    cases h
    rfl
  | none =>
    cases hk : s.rx.kind with
    | none => simp only [State.lastResult, he, hk] at h; cases h
    | some k =>
      rw [State.lastResult_of_kind he hk] at h
      cases hf : s.frameOf k <;> rw [hf] at h <;> cases h

theorem State.kindOf_frameOf {k : FrameKind} {f : Frame} (h : s.frameOf k = some f) : kindOf f = k := by
  cases k with
  | long =>
    obtain ⟨p, -, rfl⟩ := Option.map_eq_some_iff.1 h
    rfl
  | _ => cases h; rfl

theorem State.lastResult_ok {f : Frame} (h : s.lastResult = some (.ok f)) :
    s.rx.err = none ∧ s.rx.kind = some (kindOf f) ∧ s.frameOf (kindOf f) = some f := by
  cases he : s.rx.err with
  | some x =>
    rw [State.lastResult_of_err he] at h
    cases h
  | none =>
    cases hk : s.rx.kind with
    | none => simp only [State.lastResult, he, hk] at h; cases h
    | some k =>
      rw [State.lastResult_of_kind he hk] at h
      obtain ⟨g, hg, hgf⟩ := Option.map_eq_some_iff.1 h
      cases hgf
      have hkind := State.kindOf_frameOf hg
      subst hkind
      exact ⟨rfl, rfl, hg⟩

/-- The decode result depends on the receive registers and on the cells below TXBUF. -/
theorem State.lastResult_congr (hrx : t.rx = s.rx) (hmem : ∀ i, i < 0x300 → Memory.read t.mem i = Memory.read s.mem i) :
    t.lastResult = s.lastResult := by
  have hread : t.readBuffer .rxPay t.rx.len.toNat = s.readBuffer .rxPay s.rx.len.toNat := by
    rw [hrx]
    exact Memory.readAll_congr fun i _ hi => hmem i (Nat.lt_of_lt_of_le hi (by simp only [Buffer.base]; omega))
  simp only [State.lastResult, hread]
  rw [hrx]

/-- The table of R172, read off the registers. -/
theorem exchangeResult_eq {d : DecodeResult} (h : s.lastResult = some d) : exchangeResult s = d.exchange := by
  cases d with
  | err e =>
    have he := State.lastResult_err.1 h
    cases e <;> simp only [exchangeResult, he, DecodeResult.exchange]
  | ok f =>
    obtain ⟨he, hk, -⟩ := State.lastResult_ok h
    cases f <;> simp only [exchangeResult, he, hk, kindOf, DecodeResult.exchange]

/-- DECODE of a buffer is a run of the receiver. -/
theorem State.receives_decodeBuf (s : State) (bs : List Byte) : s.Receives (s.decodeBuf bs) :=
  ⟨State.decodeBuf_eq s bs, fun _ hi => State.read_decodeBuf s bs hi⟩

end

/-- Settles O31: the frame is DECODE's own, and its answer is the closed form, a function of the configuration and the
buffer. -/
theorem decodeChangesTheReceiverOnly : Obligations.DecodeChangesTheReceiverOnly := by
  intro s
  refine ⟨_, rfl, s.receives_decodeBuf _, fun s' t' hcfg harg ht' => ?_⟩
  cases ht'
  rw [State.lastResult_decodeBuf, State.lastResult_decodeBuf, hcfg, harg]

section
/-! AWAIT_REPLY (R170) -/
variable {s : State} {q : List RecvInput} {tl : Bool}

/-- What AWAIT_REPLY clears at its start (R170). -/
def State.awaiting (s : State) : State := ({ s.accept with exResult := none }).rxClear

theorem execAwaitReply_accepted (hb : s.busy = true) : execAwaitReply s = awaitFirst s.awaiting := by
  rw [execAwaitReply, if_neg (by simp [hb])]
  rfl

theorem awaitFirst_timeout (h : s.recvQ = ⟨.timeout, tl⟩ :: q) :
    awaitFirst s = .next ((s.received ⟨.timeout, tl⟩ q).finish .timeout) := by
  rw [awaitFirst, State.takeRecv_cons h]

theorem awaitFirst_transportError (h : s.recvQ = ⟨.transportError, tl⟩ :: q) :
    awaitFirst s = .next ((s.received ⟨.transportError, tl⟩ q).finish .transportError) := by
  rw [awaitFirst, State.takeRecv_cons h]

/-- Bytes that are not a truncated reply with time left end the exchange (R170 step 5). -/
theorem awaitFirst_bytes {b : List Byte} (h : s.recvQ = ⟨.bytes b, tl⟩ :: q)
    (hend : tl = true → closedDecode s.cfg b ≠ .err .truncated) :
    awaitFirst s = .next (((s.received ⟨.bytes b, tl⟩ q).decodeBuf b).finish (closedDecode s.cfg b).exchange) := by
  have hlast : ((s.received ⟨.bytes b, tl⟩ q).decodeBuf b).lastResult = some (closedDecode s.cfg b) :=
    State.lastResult_decodeBuf _ b
  have hno : ¬ (((s.received ⟨.bytes b, tl⟩ q).decodeBuf b).rx.err = some .truncated ∧ tl = true) := by
    rintro ⟨herr, htl⟩
    rw [State.lastResult_of_err herr] at hlast
    exact hend htl (Option.some.inj hlast).symm
  rw [awaitFirst, State.takeRecv_cons h]
  simp only [if_neg hno, exchangeResult_eq hlast]

/-- An exchange that ended with one answer and nothing decoded. -/
theorem State.concludes_received (s : State) (r : RecvInput) (q : List RecvInput) (x : ExResult) :
    s.Concludes ((s.awaiting.received r q).finish x) x [r.result] q := ⟨rfl, fun _ _ => rfl⟩

/-- An exchange that ended with one answer, whose bytes were decoded. -/
theorem State.concludes_decoded (s : State) (r : RecvInput) (q : List RecvInput) (b : List Byte) (x : ExResult) :
    s.Concludes (((s.awaiting.received r q).decodeBuf b).finish x) x [r.result] q := by
  obtain ⟨heq, hcells⟩ := (s.awaiting.received r q).receives_decodeBuf b
  refine ⟨?_, hcells⟩
  rw [heq]
  rfl

end

/-- Settles O48, one equation of the first read per answer. -/
theorem awaitReplyMapsTheFirstRead : Obligations.AwaitReplyMapsTheFirstRead := by
  intro s tl q hb
  have hexec : exec .awaitReply s = awaitFirst s.awaiting := execAwaitReply_accepted hb
  rw [hexec]
  refine ⟨fun h => ?_, fun h => ?_, fun b h hend => ?_⟩
  · exact ⟨_, awaitFirst_timeout h, s.concludes_received _ q _, rfl, fun _ _ => rfl⟩
  · exact ⟨_, awaitFirst_transportError h, s.concludes_received _ q _, rfl, fun _ _ => rfl⟩
  · exact ⟨_, awaitFirst_bytes h hend, s.concludes_decoded _ q b _, State.lastResult_decodeBuf _ b⟩

end Sys2Proof.Machine
end

