-- ==== Sys2Proof/Proofs/SelectWindow.lean ====
section
/-! SELECT to the end of a window that Timeout closes (42_addressing.md R148, R149): the state in which the window is
classified, and what each way of classifying it leaves. -/

namespace Sys2Proof.Machine

section
/-! The window -/
variable {s : State} {q : List SendResult} {chunks : List (List Byte × Bool)} {tl : Bool} {rest : List RecvInput}

/-- SELECT with its frame handed over and accepted: the window is open. -/
def State.windowOpen (s : State) (q : List SendResult) : State :=
  { s with
    mem := Memory.writeAll s.mem 0x300 (selectFrame s.cfg s.sel.mask)
    txbufLen := BitVec.ofNat 9 (selectFrame s.cfg s.sel.mask).length
    rx := s.rx.clear, sel := { s.sel with outcome := none, addrValid := false }, busy := true, exResult := none,
    refused := false, txLog := s.txLog ++ [selectFrame s.cfg s.sel.mask], sendQ := q, phase := .idle }

/-- SELECT when Timeout has closed the window: the answers up to it are used up, nothing is decoded yet. -/
def State.windowClosed (s : State) (q : List SendResult) (chunks : List (List Byte × Bool)) (rest : List RecvInput) :
    State :=
  { s.windowOpen q with
    recvQ := rest, rxLog := (s.rxLog ++ chunks.map fun c => .bytes c.1) ++ [.timeout], busy := false }

theorem execSelect_window (hb : s.busy = false) (ha : s.sel.active = true) (hs : s.sendQ = .ok :: q) :
    exec .select s = window (s.windowOpen q).recvQ [] (s.windowOpen q) := by
  have haccepted : exec .select s = selectAnswered _ := execSelect_accepted hb ha
  have hsend : (s.selectStart.buildSelect.handOver (selectFrame s.cfg s.sel.mask)).sendQ = .ok :: q := hs
  rw [haccepted, selectAnswered, State.takeSend_cons hsend]
  rfl

theorem execSelect_timeout (hb : s.busy = false) (ha : s.sel.active = true) (hs : s.sendQ = .ok :: q)
    (hr : s.recvQ = windowAnswers chunks ⟨.timeout, tl⟩ ++ rest) :
    exec .select s = classify (windowBytes chunks) (s.windowClosed q chunks rest) := by
  have hanswers : (s.windowOpen q).recvQ = chunks.map (fun c => ⟨.bytes c.1, c.2⟩) ++ (⟨.timeout, tl⟩ :: rest) := by
    rw [State.windowOpen, hr, windowAnswers, List.append_assoc, List.singleton_append]
  rw [execSelect_window hb ha hs, window_chunks chunks [] rfl hanswers, window, List.nil_append]
  rfl

end

section
/-! How the window is classified (R150) -/
variable {s : State} {w : List Byte}

theorem classify_nothing (s : State) : classify [] s = .next (s.outcome .nothing) := if_pos rfl

theorem classify_error {e : DecodeError} (hw : w ≠ []) (h : closedDecode s.cfg w = .err e) :
    classify w s = .next ((s.decodeBuf w).outcome .collision) := by
  have herr : (s.decodeBuf w).rx.err = some e := State.lastResult_err.1 (h ▸ State.lastResult_decodeBuf s w)
  simp only [classify, if_neg hw, herr]

theorem ne_nil_of_closedDecode_ok {cfg : Config.Params} {f : Frame} (h : closedDecode cfg w = .ok f) : w ≠ [] := by
  rintro rfl
  cases h

theorem classify_ok {f : Frame} (h : closedDecode s.cfg w = .ok f) : classify w s = classifyFrame (s.decodeBuf w) := by
  obtain ⟨herr, -, -⟩ := State.lastResult_ok (h ▸ State.lastResult_decodeBuf s w)
  simp only [classify, if_neg (ne_nil_of_closedDecode_ok h), herr]

/-- The front of a block that reads as something. -/
theorem Memory.readAll_take {m : List Host.Cell} {a n k : Nat} {bs : List Byte} (h : Memory.readAll m a n = some bs)
    (hk : k ≤ n) : Memory.readAll m a k = some (bs.take k) := by
  obtain ⟨hlen, hcells⟩ := Memory.readAll_eq_some.1 h
  refine Memory.readAll_eq_some.2 ⟨by rw [List.length_take]; omega, fun i hi => ?_⟩
  rw [List.length_take] at hi
  rw [hcells i (by omega), List.getElem_take]

/-- A payload too short for an address echoes none (R147). -/
theorem echo_eq_none {c a ci : Byte} {p : List Byte} (h : p.length < 8) : (Frame.long c a ci p).echo = none := by
  unfold Frame.echo
  split
  · next heq =>
    cases heq
    simp only [List.length_cons] at h
    omega
  all_goals rfl

/-- The address read from RX_PAY is the one the frame echoes (R147, 30_encoding.md R75). -/
theorem State.echoed_eq {c a ci : Byte} {p : List Byte} (h : s.readBuffer .rxPay s.rx.len.toNat = some p)
    (hlen : 8 ≤ s.rx.len) : ∃ e, s.echoed = some e ∧ (Frame.long c a ci p).echo = some e := by
  obtain ⟨hplen, -⟩ := Memory.readAll_eq_some.1 h
  have hfront : Memory.readAll s.mem Buffer.rxPay.base 8 = some (p.take 8) := Memory.readAll_take h hlen
  have h8 : 8 ≤ p.length := hplen ▸ hlen
  match p, h8 with
  | b0 :: b1 :: b2 :: b3 :: b4 :: b5 :: b6 :: b7 :: more, _ =>
    exact ⟨_, by rw [State.echoed, hfront]; rfl, rfl⟩

/-- A frame in the receive registers that is the echo of an address (R150). -/
theorem classifyFrame_of_answers {f : Frame} {e : Addr} (h : s.lastResult = some (.ok f))
    (ha : f.Answers s.cfg s.sel.mask e) : classifyFrame s = step4 ((s.echo e).outcome .single) := by
  obtain ⟨hecho, hmatch⟩ := ha
  obtain ⟨-, hkind, hframe⟩ := State.lastResult_ok h
  cases f with
  | long c a ci p =>
    obtain ⟨p', hread, hp⟩ := Option.map_eq_some_iff.1 hframe
    cases hp
    obtain ⟨hplen, -⟩ := Memory.readAll_eq_some.1 hread
    have hlen : 8 ≤ s.rx.len := by
      by_contra hshort
      have hlt : p.length < 8 := hplen ▸ Nat.lt_of_not_le hshort
      rw [echo_eq_none hlt] at hecho
      cases hecho
    obtain ⟨e', hechoed, he'⟩ := State.echoed_eq (c := s.rx.c) (a := s.rx.a) (ci := s.rx.ci) hread hlen
    obtain rfl : e' = e := Option.some.inj (he'.symm.trans hecho)
    simp only [classifyFrame, hkind, kindOf, if_pos hlen, hechoed, if_pos hmatch]
  | ack | short | control => cases hecho

/-- A lone acknowledgement where it counts (R150, D13). -/
theorem classifyFrame_of_ack (h : s.lastResult = some (.ok .ack)) (hack : s.cfg.selAckIsSingle = true) :
    classifyFrame s = step4 (s.outcome .single) := by
  obtain ⟨-, hkind, -⟩ := State.lastResult_ok h
  simp only [classifyFrame, hkind, kindOf, if_pos hack]

/-- Any other frame (R150). -/
theorem classifyFrame_unexpected {f : Frame} (h : s.lastResult = some (.ok f))
    (hno : ∀ e, ¬ f.Answers s.cfg s.sel.mask e) (hack : ¬ (f = .ack ∧ s.cfg.selAckIsSingle = true)) :
    classifyFrame s = .next (s.outcome .unexpected) := by
  obtain ⟨-, hkind, hframe⟩ := State.lastResult_ok h
  cases f with
  | long c a ci p =>
    obtain ⟨p', hread, hp⟩ := Option.map_eq_some_iff.1 hframe
    cases hp
    by_cases hlen : 8 ≤ s.rx.len
    · obtain ⟨e, hechoed, hecho⟩ := State.echoed_eq (c := s.rx.c) (a := s.rx.a) (ci := s.rx.ci) hread hlen
      have hmatch : ¬ (Concrete s.cfg e ∧ Matches s.cfg s.sel.mask e) := fun hm => hno e ⟨hecho, hm⟩
      simp only [classifyFrame, hkind, kindOf, if_pos hlen, hechoed, if_neg hmatch]
    · simp only [classifyFrame, hkind, kindOf, if_neg hlen]
  | ack =>
    have hplain : ¬ s.cfg.selAckIsSingle = true := fun ha => hack ⟨rfl, ha⟩
    simp only [classifyFrame, hkind, kindOf, if_neg hplain]
  | short | control => simp only [classifyFrame, hkind, kindOf]

end

section
/-! What SELECT leaves, once the receiver has run over the window -/
variable {s t u : State} {q : List SendResult} {chunks : List (List Byte × Bool)} {rest : List RecvInput}

theorem State.receives_refl {v : State} (h : v.refused = false) : v.Receives v := by
  refine ⟨?_, fun _ _ => rfl⟩
  cases v
  cases h
  rfl

/-- The cells outside RX_PAY hold what they held, but for the select frame in TXBUF. -/
theorem State.read_of_window (hu : (s.windowClosed q chunks rest).Receives u) {i : Nat} (hi : ¬ Buffer.rxPay.Holds i) :
    Memory.read u.mem i = Memory.read (Memory.writeAll s.mem 0x300 (selectFrame s.cfg s.sel.mask)) i :=
  hu.2 i hi

theorem not_rxPay_of_le {i : Nat} (h : 0x300 ≤ i) : ¬ Buffer.rxPay.Holds i := by
  simp only [Buffer.Holds, Buffer.base, Buffer.size]
  omega

theorem State.txHolds_of_window (hu : (s.windowClosed q chunks rest).Receives u) :
    u.readBuffer .txbuf (selectFrame s.cfg s.sel.mask).length = some (selectFrame s.cfg s.sel.mask) := by
  have hsame := Memory.readAll_congr (a := 0x300) (n := (selectFrame s.cfg s.sel.mask).length)
    fun i hlo _ => State.read_of_window hu (not_rxPay_of_le hlo)
  exact hsame.trans (Memory.readAll_writeAll s.mem 0x300 _)

/-- An outcome that ends SELECT without step 4 (R148, R150). -/
theorem State.selects_outcome (hu : (s.windowClosed q chunks rest).Receives u) {o : SelOutcome}
    (ht : t = u.outcome o) :
    s.Selects t ∧ t.sel = { s.sel with outcome := some o, addrValid := false } ∧ t.busy = false ∧ t.target = s.target ∧
      t.exResult = none ∧ t.txLog = s.txLog ++ [selectFrame s.cfg s.sel.mask] ∧ t.recvQ = rest ∧ t.sendQ = q ∧
      t.TxHolds (selectFrame s.cfg s.sel.mask) := by
  subst ht
  have hcells (i : Nat) (hpay : ¬ Buffer.rxPay.Holds i) (hout : i < 0x300 ∨ 0x311 ≤ i) :
      Memory.read u.mem i = Memory.read s.mem i := by
    rw [State.read_of_window hu hpay, Memory.read_writeAll_outside]
    rwa [length_selectFrame]
  have htx := State.txHolds_of_window hu
  obtain ⟨heq, -⟩ := hu
  generalize u.rx = rx at heq
  generalize hmem : u.mem = mem at heq hcells
  subst heq
  exact ⟨⟨rfl, rfl, hcells⟩, rfl, rfl, rfl, rfl, rfl, rfl, rfl, rfl, htx⟩

/-- Step 4 with its request handed over (R151). -/
def State.step4Sent (v : State) : State :=
  { v with
    mem := Memory.writeAll v.mem 0x300 (requestFrame v.cfg v.cfg.netAddr)
    txbufLen := BitVec.ofNat 9 (requestFrame v.cfg v.cfg.netAddr).length
    sel := { v.sel with active := false }, target := v.cfg.netAddr, refused := false,
    txLog := v.txLog ++ [requestFrame v.cfg v.cfg.netAddr] }

/-- The end of step 4: its answer is used up. -/
def State.step4End (v : State) (r : SendResult) (q : List SendResult) : State :=
  { v.step4Sent with
    sendQ := q, phase := .idle, busy := decide (r = .ok),
    exResult := if r = .ok then none else some .transportError }

theorem step4_answered {v : State} {r : SendResult} (hs : v.sendQ = r :: q) (hb : v.busy = false)
    (he : v.exResult = none) : step4 v = .next (v.step4End r q) := by
  have hsent : step4 v = step4Answered v.step4Sent := step4_eq v
  have hq : v.step4Sent.sendQ = r :: q := hs
  have hbusy : v.step4Sent.busy = false := hb
  have hex : v.step4Sent.exResult = none := he
  rw [hsent, step4Answered, State.takeSend_cons hq, State.step4End]
  generalize v.step4Sent = u at hbusy hex
  cases u
  cases hbusy
  cases hex
  cases r <;> rfl

/-- SELECT that has isolated a device, from the end of the window to the end of step 4 (R150, R151). `x` is the
selector as R150 has set it. -/
theorem State.selects_step4 (hu : (s.windowClosed q chunks rest).Receives u) {x : Sel} (hx : x.mask = s.sel.mask)
    {r : SendResult} {q' : List SendResult} (ht : t = ({ u with sel := x } : State).step4End r q') :
    s.Selects t ∧ t.sel = { x with active := false } ∧ t.target = s.cfg.netAddr ∧ t.lastResult = u.lastResult ∧
      t.txLog = s.txLog ++ [selectFrame s.cfg s.sel.mask, requestFrame s.cfg s.cfg.netAddr] ∧ t.recvQ = rest ∧
      t.sendQ = q' ∧ s.TxAfterStep4 t := by
  have hwindow (i : Nat) (hpay : ¬ Buffer.rxPay.Holds i) := State.read_of_window hu hpay
  obtain ⟨heq, -⟩ := hu
  have hcfg : u.cfg = s.cfg := by rw [heq]; rfl
  have hmem : t.mem = Memory.writeAll u.mem 0x300 (requestFrame s.cfg s.cfg.netAddr) := by rw [ht, ← hcfg]; rfl
  have hrequest (i : Nat) (hout : i < 0x300 ∨ 0x305 ≤ i) : Memory.read t.mem i = Memory.read u.mem i := by
    rw [hmem]
    exact Memory.read_writeAll_outside u.mem _ hout
  have hrx : t.rx = u.rx := by rw [ht]; rfl
  have hlast : t.lastResult = u.lastResult := State.lastResult_congr hrx fun i hi => hrequest i (.inl hi)
  have hholds : t.TxHolds (requestFrame s.cfg s.cfg.netAddr) := by
    refine ⟨by rw [ht]; rfl, ?_⟩
    rw [State.readBuffer, hmem]
    exact Memory.readAll_writeAll u.mem 0x300 _
  have hselect (k : Nat) (hlo : 5 ≤ k) (hhi : k < 17) :
      Memory.read t.mem (0x300 + k) = (selectFrame s.cfg s.sel.mask)[k]? := by
    have hk : k < (selectFrame s.cfg s.sel.mask).length := by rwa [length_selectFrame]
    rw [hrequest _ (by omega), hwindow _ (not_rxPay_of_le (Nat.le_add_right _ _)),
      Memory.read_writeAll_inside _ _ _ hk, List.getElem?_eq_getElem hk]
  have hcells (i : Nat) (hpay : ¬ Buffer.rxPay.Holds i) (hout : i < 0x300 ∨ 0x311 ≤ i) :
      Memory.read t.mem i = Memory.read s.mem i := by
    rw [hrequest i (by omega), hwindow i hpay, Memory.read_writeAll_outside]
    rwa [length_selectFrame]
  have hmask : t.sel.mask = s.sel.mask := by rw [ht]; exact hx
  have hlog : t.txLog = s.txLog ++ [selectFrame s.cfg s.sel.mask, requestFrame s.cfg s.cfg.netAddr] := by
    rw [ht, heq]
    exact List.append_assoc _ _ _
  refine ⟨⟨?frame, hmask, hcells⟩, by rw [ht]; rfl, by rw [ht, ← hcfg]; rfl, hlast, hlog, by rw [ht, heq]; rfl,
    by rw [ht]; rfl, hholds, hselect⟩
  generalize u.rx = rx at heq
  generalize u.mem = mem at heq
  subst heq ht
  rfl

end

end Sys2Proof.Machine
end

