-- ==== Sys2Proof/Proofs/SelectOutcomes.lean ====
section
/-! The outcomes of SELECT for a window that Timeout closes (42_addressing.md R150, R151). -/

namespace Sys2Proof.Machine

/-- What R150 says of a window that ends the selection without a device. -/
def EndsWithout (cfg : Config.Params) (mask : Addr) (w : List Byte) (o : SelOutcome) : Prop :=
  (o = .nothing ∧ w = []) ∨
    (o = .collision ∧ w ≠ [] ∧ ∃ e, closedDecode cfg w = .err e) ∨
    (o = .unexpected ∧ w ≠ [] ∧
      ∃ f, closedDecode cfg w = .ok f ∧ (∀ e, ¬ f.Answers cfg mask e) ∧ ¬ (f = .ack ∧ cfg.selAckIsSingle = true))

/-- An empty window is classified as it is, any other after DECODE. -/
theorem classify_endsWithout {v : State} {w : List Byte} {o : SelOutcome} (h : EndsWithout v.cfg v.sel.mask w o) :
    classify w v = .next ((if w = [] then v else v.decodeBuf w).outcome o) := by
  rcases h with ⟨rfl, rfl⟩ | ⟨rfl, hw, e, he⟩ | ⟨rfl, hw, f, hf, hno, hack⟩
  · exact classify_nothing v
  · rw [if_neg hw]
    exact classify_error hw he
  · have hlast : (v.decodeBuf w).lastResult = some (.ok f) := hf ▸ State.lastResult_decodeBuf v w
    rw [if_neg hw, classify_ok hf]
    exact classifyFrame_unexpected hlast (by simpa using hno) (by simpa using hack)

/-- The decode result after the window. -/
theorem State.lastResult_of_window {v : State} (herr : v.rx.err = none) (hkind : v.rx.kind = none) (w : List Byte) :
    (if w = [] then v else v.decodeBuf w).lastResult = if w = [] then none else some (closedDecode v.cfg w) := by
  split
  · simp only [State.lastResult, herr, hkind]
  · exact State.lastResult_decodeBuf v w

/-- Settles O43: the window is classified without a device, on what the receiver has left of it. -/
theorem selectClassifiesTheWindow : Obligations.SelectClassifiesTheWindow := by
  intro s q chunks tl rest hb ha hs hr o ho
  have hclass := classify_endsWithout (v := s.windowClosed q chunks rest) ho
  have hu : (s.windowClosed q chunks rest).Receives
      (if windowBytes chunks = [] then s.windowClosed q chunks rest
        else (s.windowClosed q chunks rest).decodeBuf (windowBytes chunks)) := by
    split
    · exact State.receives_refl rfl
    · exact State.receives_decodeBuf _ _
  obtain ⟨hsel, hx, hbusy, htarget, hex, hlog, hrecv, hsend, htx⟩ := State.selects_outcome hu (o := o) rfl
  refine ⟨_, (execSelect_timeout hb ha hs hr).trans hclass, hsel, hx, hbusy, htarget, hex, hlog, hrecv, hsend, htx,
    State.lastResult_of_window rfl rfl _, fun hw => ?_⟩
  rw [if_pos hw]
  refine ⟨rfl, fun i hi => Memory.read_writeAll_outside s.mem _ (.inl ?_)⟩
  exact Nat.lt_of_lt_of_le hi.2 (by decide)

/-- A window that has ended in step 4 (R151), `x` being the selector as R150 has set it. -/
theorem exec_select_of_step4 {s : State} {r : SendResult} {q : List SendResult} {chunks : List (List Byte × Bool)}
    {tl : Bool} {rest : List RecvInput} (hb : s.busy = false) (ha : s.sel.active = true)
    (hs : s.sendQ = .ok :: r :: q) (hr : s.recvQ = windowAnswers chunks ⟨.timeout, tl⟩ ++ rest) {x : Sel}
    (hx : x.mask = s.sel.mask)
    (hclass : classify (windowBytes chunks) (s.windowClosed (r :: q) chunks rest) =
      step4 { (s.windowClosed (r :: q) chunks rest).decodeBuf (windowBytes chunks) with sel := x }) :
    ∃ t, exec .select s = .next t ∧ s.Selects t ∧ t.sel = { x with active := false } ∧ t.target = s.cfg.netAddr ∧
      t.lastResult = some (closedDecode s.cfg (windowBytes chunks)) ∧
      t.txLog = s.txLog ++ [selectFrame s.cfg s.sel.mask, requestFrame s.cfg s.cfg.netAddr] ∧
      t.recvQ = rest ∧ t.sendQ = q ∧ s.TxAfterStep4 t ∧
      t.busy = decide (r = .ok) ∧ t.exResult = if r = .ok then none else some .transportError := by
  have hu := (s.windowClosed (r :: q) chunks rest).receives_decodeBuf (windowBytes chunks)
  have hlast : _ = some (closedDecode s.cfg (windowBytes chunks)) :=
    (s.windowClosed (r :: q) chunks rest).lastResult_decodeBuf (windowBytes chunks)
  generalize (s.windowClosed (r :: q) chunks rest).decodeBuf (windowBytes chunks) = u at hclass hu hlast
  obtain ⟨heq, -⟩ := id hu
  have hsend : u.sendQ = r :: q := by rw [heq]; rfl
  have hbusy : u.busy = false := by rw [heq]; rfl
  have hex : u.exResult = none := by rw [heq]; rfl
  have hend : step4 { u with sel := x } = .next (({ u with sel := x } : State).step4End r q) :=
    step4_answered hsend hbusy hex
  obtain ⟨hsel, hselector, htarget, hresult, hlog, hrecv, hsendq, htx⟩ :=
    State.selects_step4 hu hx (r := r) (q' := q) rfl
  exact ⟨_, (execSelect_timeout hb ha hs hr).trans (hclass.trans hend), hsel, hselector, htarget,
    hresult.trans hlast, hlog, hrecv, hsendq, htx, rfl, rfl⟩

/-- Settles O44: the frame in the receive registers answers, and step 4 follows. -/
theorem selectIsolatesOneDevice : Obligations.SelectIsolatesOneDevice := by
  intro s r q chunks tl rest f e hb ha hs hr hf hans
  have hlast : ((s.windowClosed (r :: q) chunks rest).decodeBuf (windowBytes chunks)).lastResult = some (.ok f) :=
    hf ▸ State.lastResult_decodeBuf (s.windowClosed (r :: q) chunks rest) (windowBytes chunks)
  have hclass := (classify_ok (s := s.windowClosed (r :: q) chunks rest) hf).trans
    (classifyFrame_of_answers hlast (e := e) (by rw [State.decodeBuf_cfg, State.decodeBuf_sel]; exact hans))
  rw [← hf]
  refine exec_select_of_step4 hb ha hs hr (x := { s.sel with outcome := some .single, addr := e, addrValid := true })
    rfl (hclass.trans ?_)
  rw [State.outcome, State.echo, State.decodeBuf_sel]
  rfl

/-- Settles O45: the acknowledgement in the receive registers counts, and step 4 follows. -/
theorem selectTakesALoneAckAsConfigured : Obligations.SelectTakesALoneAckAsConfigured := by
  intro s r q chunks tl rest hb ha hs hr hw hack
  have hf : closedDecode s.cfg (windowBytes chunks) = .ok .ack := by simp [hw, closedDecode]
  have hlast : ((s.windowClosed (r :: q) chunks rest).decodeBuf (windowBytes chunks)).lastResult = some (.ok .ack) :=
    hf ▸ State.lastResult_decodeBuf (s.windowClosed (r :: q) chunks rest) (windowBytes chunks)
  have hclass := (classify_ok (s := s.windowClosed (r :: q) chunks rest) hf).trans
    (classifyFrame_of_ack hlast (by rw [State.decodeBuf_cfg]; exact hack))
  obtain ⟨t, ht, hsel, hx, htarget, -, hend⟩ := exec_select_of_step4 hb ha hs hr
    (x := { s.sel with outcome := some .single, addrValid := false }) rfl (hclass.trans (by
      rw [State.outcome, State.decodeBuf_sel]
      rfl))
  exact ⟨t, ht, hsel, hx, htarget, hend⟩

end Sys2Proof.Machine
end

