-- ==== Sys2Proof/Proofs/LateAnswers.lean ====
section
/-! Answers of the environment that come later (60_exceptions.md R190, 20_memory.md R47): an operation that finds no
answer waits, and going on from there asks for the answer again. Every test an operation makes before it waits has the
same result when further answers stand behind those that are there. -/

namespace Sys2Proof.Machine

/-- The same state, with further answers of the environment behind those that are there. -/
def State.later (s : State) (qs : List SendResult) (qr : List RecvInput) : State :=
  { s with sendQ := s.sendQ ++ qs, recvQ := s.recvQ ++ qr }

/-- Where `o` waits for an answer, going on after the further answers have come gives `o'`. -/
def Continues (qs : List SendResult) (qr : List RecvInput) (o o' : Result) : Prop :=
  match o with
  | .next t => t.phase ≠ .idle → resume (t.later qs qr) = o'
  | .fault _ | .refused _ => True

/-- Where an operation ends in a next state, it does not wait there. -/
def EndsIdle : Result → Prop
  | .next t => t.phase = .idle
  | .fault _ | .refused _ => True

section
variable {s t : State} {qs : List SendResult} {qr : List RecvInput} {o o' : Result}

theorem Continues.of_next (h : Continues qs qr o o') (ho : o = .next t) (hp : t.phase ≠ .idle) :
    resume (t.later qs qr) = o' := by
  subst ho
  exact h hp

theorem Continues.of_endsIdle (h : EndsIdle o) : Continues qs qr o o' := by
  cases o with
  | next t => exact fun hp => absurd h hp
  | fault _ | refused _ => trivial

theorem Continues.of_idle (h : t.phase = .idle) : Continues qs qr (.next t) o' := .of_endsIdle h

end

section
/-! What further answers leave as it is: everything an operation tests, and the answer it takes -/
variable {s t : State} {qs : List SendResult} {qr : List RecvInput}

@[simp] theorem State.later_cfg : (s.later qs qr).cfg = s.cfg := rfl
@[simp] theorem State.later_rx : (s.later qs qr).rx = s.rx := rfl
@[simp] theorem State.later_sel : (s.later qs qr).sel = s.sel := rfl
@[simp] theorem State.later_busy : (s.later qs qr).busy = s.busy := rfl
@[simp] theorem State.later_txbufLen : (s.later qs qr).txbufLen = s.txbufLen := rfl
@[simp] theorem State.later_eventAt (b : Byte) : (s.later qs qr).eventAt b = s.eventAt b := rfl
@[simp] theorem State.later_echoed : (s.later qs qr).echoed = s.echoed := rfl
@[simp] theorem State.later_readBuffer (b : Buffer) (n : Nat) :
    (s.later qs qr).readBuffer b n = s.readBuffer b n := rfl

theorem State.takeSend_later {r : SendResult} (h : s.takeSend = some (r, t)) :
    (s.later qs qr).takeSend = some (r, t.later qs qr) := by
  obtain ⟨q, hq, rfl⟩ := State.takeSend_eq_some h
  have hl : (s.later qs qr).sendQ = r :: (q ++ qs) := congrArg (· ++ qs) hq
  exact State.takeSend_cons hl

theorem State.takeRecv_later {r : RecvInput} (h : s.takeRecv = some (r, t)) :
    (s.later qs qr).takeRecv = some (r, t.later qs qr) := by
  obtain ⟨q, hq, rfl⟩ := State.takeRecv_eq_some h
  have hl : (s.later qs qr).recvQ = r :: (q ++ qr) := congrArg (· ++ qr) hq
  exact State.takeRecv_cons hl

/-- DECODE's loop does not see the answers. -/
theorem State.decodeLoop_later (s : State) (bs : List Byte) :
    (s.later qs qr).decodeLoop bs = (s.decodeLoop bs).later qs qr := by
  induction bs generalizing s with
  | nil => rfl
  | cons b bs ih =>
    simp only [State.decodeLoop, State.later_eventAt]
    split
    · exact ih (s.takeByte b)
    · rfl
    · split <;> rfl

@[simp] theorem State.decodeBuf_later (s : State) (bs : List Byte) :
    (s.later qs qr).decodeBuf bs = (s.decodeBuf bs).later qs qr :=
  State.decodeLoop_later s.rxClear.accept bs

theorem State.phase_of_takeSend {r : SendResult} (h : s.takeSend = some (r, t)) : t.phase = .idle := by
  obtain ⟨_, -, rfl⟩ := State.takeSend_eq_some h
  rfl

theorem State.phase_of_takeRecv {r : RecvInput} (h : s.takeRecv = some (r, t)) : t.phase = .idle := by
  obtain ⟨_, -, rfl⟩ := State.takeRecv_eq_some h
  rfl

end

section
/-! The operations that wait. What follows a wait does not read the phase, so where one waits `resume` runs the same
function on a state that differs in nothing it reads: that branch closes by `rfl` in each proof but the window's, which
also needs that no answer is left (`window_waitIn`). -/
variable {s : State} {qs : List SendResult} {qr : List RecvInput}

/-! AWAIT_REPLY (R170) -/

theorem awaitMore_continues (b : List Byte) (s : State) :
    Continues qs qr (awaitMore b s) (awaitMore b (s.later qs qr)) := by
  rw [awaitMore]
  split
  · exact fun _ => rfl
  · next r u ht =>
    have hu := State.phase_of_takeRecv ht
    split
    · exact .of_idle hu
    · exact .of_idle hu
    · exact .of_idle ((State.decodeBuf_phase u _).trans hu)

theorem awaitFirst_continues (s : State) : Continues qs qr (awaitFirst s) (awaitFirst (s.later qs qr)) := by
  rw [awaitFirst]
  split
  · exact fun _ => rfl
  · next r u ht =>
    have hu := State.phase_of_takeRecv ht
    split
    · exact .of_idle hu
    · exact .of_idle hu
    · next b hb =>
      dsimp only
      split_ifs with hmore
      · have hl : awaitFirst (s.later qs qr) = awaitMore b ((u.decodeBuf b).later qs qr) := by
          simp [awaitFirst, State.takeRecv_later ht, hb, hmore]
        exact hl ▸ awaitMore_continues b (u.decodeBuf b)
      · exact .of_idle ((State.decodeBuf_phase u b).trans hu)

theorem execAwaitReply_continues (hp : s.phase = .idle) :
    Continues qs qr (execAwaitReply s) (execAwaitReply (s.later qs qr)) := by
  by_cases hb : s.busy = true
  · rw [execAwaitReply_accepted hb, execAwaitReply_accepted (s := s.later qs qr) hb]
    exact awaitFirst_continues s.awaiting
  · rw [execAwaitReply, if_pos (Bool.eq_false_iff.2 hb)]
    exact .of_idle hp

/-! SEND (R96) -/

theorem sendAnswered_continues (s : State) : Continues qs qr (sendAnswered s) (sendAnswered (s.later qs qr)) := by
  rw [sendAnswered]
  split
  · exact fun _ => rfl
  all_goals
    next u ht =>
    have hu := State.phase_of_takeSend ht
    exact .of_idle hu

theorem execSend_continues (hp : s.phase = .idle) : Continues qs qr (execSend s) (execSend (s.later qs qr)) := by
  rw [execSend]
  split_ifs with hb hn
  · exact .of_idle hp
  · exact .of_idle hp
  · split
    · next frame hf =>
      have hl : execSend (s.later qs qr) = sendAnswered ((s.later qs qr).handOver frame) := by
        simp only [execSend, State.later_busy, State.later_txbufLen, State.later_readBuffer, hb, hn, hf,
          Bool.false_eq_true, if_false]
      exact hl ▸ sendAnswered_continues (s.handOver frame)
    · trivial

/-! REQ_DATA (R171) -/

theorem requestAnswered_continues (s : State) :
    Continues qs qr (requestAnswered s) (requestAnswered (s.later qs qr)) := by
  rw [requestAnswered]
  split
  · exact fun _ => rfl
  · next u ht =>
    have hu := State.phase_of_takeSend ht
    exact .of_idle hu
  · next u ht =>
    rw [requestAnswered, State.takeSend_later ht]
    exact awaitFirst_continues u.sendDone.awaiting

theorem execReqData_continues (hp : s.phase = .idle) :
    Continues qs qr (execReqData s) (execReqData (s.later qs qr)) := by
  rw [execReqData]
  split_ifs with hb ht
  · exact .of_idle hp
  · rw [execReqData_accepted (s := s.later qs qr) (Bool.eq_false_iff.2 hb) ht]
    simp only [State.readBuffer_buildRequest]
    exact requestAnswered_continues ((s.buildRequest s.target).handOver _)
  · exact .of_idle hp

/-! SELECT (R148 to R151) -/

theorem step4Answered_continues (s : State) :
    Continues qs qr (step4Answered s) (step4Answered (s.later qs qr)) := by
  rw [step4Answered]
  split
  · exact fun _ => rfl
  all_goals
    next u ht =>
    have hu := State.phase_of_takeSend ht
    exact .of_idle hu

theorem step4_continues (s : State) : Continues qs qr (step4 s) (step4 (s.later qs qr)) := by
  rw [step4_eq, step4_eq]
  exact step4Answered_continues _

/-- Only a device that has been found is asked to go on, and only that question can be left waiting. -/
theorem classifyFrame_continues (hp : s.phase = .idle) :
    Continues qs qr (classifyFrame s) (classifyFrame (s.later qs qr)) := by
  rw [classifyFrame]
  split
  · next hk =>
    split_ifs with hlen
    · split
      · next e he =>
        split_ifs with hm
        · have hl : classifyFrame (s.later qs qr) = step4 (((s.later qs qr).echo e).outcome .single) := by
            simp only [classifyFrame, State.later_rx, State.later_echoed, State.later_cfg, State.later_sel, hk, hlen,
              he, if_true]
            exact if_pos hm
          exact hl ▸ step4_continues ((s.echo e).outcome .single)
        · exact .of_idle hp
      · trivial
    · exact .of_idle hp
  · next hk =>
    split_ifs with hack
    · have hl : classifyFrame (s.later qs qr) = step4 ((s.later qs qr).outcome .single) := by
        simp [classifyFrame, hk, hack]
      exact hl ▸ step4_continues (s.outcome .single)
    · exact .of_idle hp
  all_goals exact .of_idle hp

theorem classify_continues (w : List Byte) (hp : s.phase = .idle) :
    Continues qs qr (classify w s) (classify w (s.later qs qr)) := by
  have hd : (s.decodeBuf w).phase = .idle := (State.decodeBuf_phase s w).trans hp
  rw [classify]
  split_ifs with hw
  · exact .of_idle hp
  · dsimp only
    split
    · exact .of_idle hd
    · next he =>
      have hl : classify w (s.later qs qr) = classifyFrame ((s.decodeBuf w).later qs qr) := by simp [classify, hw, he]
      exact hl ▸ classifyFrame_continues hd

/-- The bytes of the window are an argument of it, so the phase in which it waited says nothing more. -/
theorem window_waitIn (q : List RecvInput) (w : List Byte) (s : State) (p : Phase) :
    window q w (s.waitIn p) = window q w s := by
  cases q <;> rfl

/-- The window takes the further answers after those that are there. -/
theorem window_continues (q : List RecvInput) (w : List Byte) (s : State) (h : s.recvQ = q) :
    Continues qs qr (window q w s) (window (q ++ qr) w (s.later qs qr)) := by
  induction q generalizing w s with
  | nil =>
    intro _
    have hq : (s.later qs qr).recvQ = qr := congrArg (· ++ qr) h
    calc resume ((s.waitIn (.window w)).later qs qr)
      _ = window (s.later qs qr).recvQ w ((s.later qs qr).waitIn (.window w)) := rfl
      _ = window ([] ++ qr) w (s.later qs qr) := by rw [window_waitIn, hq, List.nil_append]
  | cons r q ih =>
    rw [List.cons_append, window]
    split
    · next b hb =>
      rw [window]
      simp only [hb]
      exact ih (w ++ b) (s.received r q) rfl
    · next hb =>
      rw [window]
      simp only [hb]
      exact classify_continues w (s := { s.received r q with busy := false }) rfl
    · exact .of_idle rfl

theorem selectAnswered_continues (s : State) :
    Continues qs qr (selectAnswered s) (selectAnswered (s.later qs qr)) := by
  rw [selectAnswered]
  split
  · exact fun _ => rfl
  · next u ht =>
    have hu := State.phase_of_takeSend ht
    exact .of_idle hu
  · next u ht =>
    rw [selectAnswered, State.takeSend_later ht]
    exact window_continues u.recvQ [] { u with busy := true } rfl

theorem execSelect_continues (hp : s.phase = .idle) :
    Continues qs qr (execSelect s) (execSelect (s.later qs qr)) := by
  by_cases hb : s.busy = true
  · rw [execSelect, if_pos hb]
    exact .of_idle hp
  · by_cases ha : s.sel.active = false
    · rw [execSelect, if_neg hb, if_pos ha]
      exact .of_idle hp
    · rw [Bool.not_eq_true] at hb
      rw [Bool.not_eq_false] at ha
      rw [execSelect_accepted hb ha, execSelect_accepted (s := s.later qs qr) hb ha]
      exact selectAnswered_continues (s.selectStart.buildSelect.handOver _)

end

section
/-! The operations that ask the environment for nothing never wait (20_memory.md R40). -/
variable {s : State} (hp : s.phase = .idle)
include hp

theorem execEncLong_endsIdle : EndsIdle (execEncLong s) := by
  unfold execEncLong
  split_ifs
  · exact hp
  · split
    · exact hp
    · trivial

theorem execEncRequest_endsIdle : EndsIdle (execEncRequest s) := by
  unfold execEncRequest
  split_ifs <;> exact hp

theorem execEncSelect_endsIdle : EndsIdle (execEncSelect s) := by
  unfold execEncSelect
  split_ifs <;> exact hp

theorem execResolvePrimary_endsIdle : EndsIdle (execResolvePrimary s) := by
  unfold execResolvePrimary
  split_ifs <;> exact hp

theorem execMaskNarrow_endsIdle : EndsIdle (execMaskNarrow s) := by
  unfold execMaskNarrow
  dsimp only
  split_ifs <;> exact hp

theorem exec_endsIdle (i : Instr) (hsend : i ≠ .send) (hselect : i ≠ .select) (hawait : i ≠ .awaitReply)
    (hreq : i ≠ .reqData) : EndsIdle (exec i s) := by
  cases i with
  | send => exact absurd rfl hsend
  | select => exact absurd rfl hselect
  | awaitReply => exact absurd rfl hawait
  | reqData => exact absurd rfl hreq
  | reset => rfl
  | encShort | encControl | rxByte | maskLoad => exact hp
  | encLong => exact execEncLong_endsIdle hp
  | encRequest => exact execEncRequest_endsIdle hp
  | encSelect => exact execEncSelect_endsIdle hp
  | resolvePrimary => exact execResolvePrimary_endsIdle hp
  | maskNarrow => exact execMaskNarrow_endsIdle hp
  | rxEnd => exact s.rxEnd_phase.trans hp
  | decode => exact (s.decodeBuf_phase _).trans hp
  | ack | short | control | long => exact (s.feed_phase _).trans hp

end

/-- Every instruction: where it waits, it goes on as if the further answers had been there. -/
theorem exec_continues {s : State} (hp : s.phase = .idle) (i : Instr) (qs : List SendResult) (qr : List RecvInput) :
    Continues qs qr (exec i s) (exec i (s.later qs qr)) := by
  cases i with
  | send => exact execSend_continues hp
  | select => exact execSelect_continues hp
  | awaitReply => exact execAwaitReply_continues hp
  | reqData => exact execReqData_continues hp
  | _ => exact .of_endsIdle (exec_endsIdle hp _ nofun nofun nofun nofun)

/-- Settles O54: only SEND, SELECT, AWAIT_REPLY and REQ_DATA wait, and each goes on from its wait as it would have gone
on without it. -/
theorem lateAnswersMakeNoDifference : Obligations.LateAnswersMakeNoDifference := by
  intro i s t qs qr hp ht hwaits
  exact (exec_continues hp i qs qr).of_next ht hwaits

end Sys2Proof.Machine
end

