-- ==== Sys2Proof/Proofs/CodecInversion.lean ====
section
/-! Encoding inverts decoding (30_encoding.md R61 to R68, R71, R78), and what becomes of every byte written to CMD
(R67). -/

namespace Sys2Proof

section
/-! The CMD port (R67, R78) -/
variable {n : Nat} {i : Instr} {v : Byte}

/-- The table of R78 read backwards: an operation's byte is its code. -/
theorem opOfCode_eq_some (h : opOfCode n = some i) :
    i.WellFormed ∧ i.format = .cmd ∧ ∀ cfg, encode cfg i = [BitVec.ofNat 8 n] := by
  unfold opOfCode at h
  split at h
  all_goals cases h
  all_goals exact ⟨rfl, rfl, fun _ => rfl⟩

/-- Sixteen codes are assigned, from 0 on. -/
theorem opOfCode_isSome (h : n < 16) : ∃ i, opOfCode n = some i := by
  have hall : ∀ n < 16, (opOfCode n).isSome := by decide
  exact Option.isSome_iff_exists.1 (hall n h)

theorem opOfCode_eq_none (h : 16 ≤ n) : opOfCode n = none := by
  obtain ⟨k, rfl⟩ := Nat.exists_eq_add_of_le' h
  rfl

theorem decodeCmd_eq_ok : decodeCmd v = .ok i ↔ opOfCode v.toNat = some i := by
  rw [decodeCmd]
  cases opOfCode v.toNat <;> simp

theorem decodeCmd_eq_error (h : 16 ≤ v.toNat) : decodeCmd v = .error .badCommand := by
  rw [decodeCmd, opOfCode_eq_none h]

theorem encode_of_decodeCmd (h : decodeCmd v = .ok i) :
    i.WellFormed ∧ i.format = .cmd ∧ ∀ cfg, encode cfg i = [v] := by
  obtain ⟨hwf, hformat, hencode⟩ := opOfCode_eq_some (decodeCmd_eq_ok.1 h)
  exact ⟨hwf, hformat, fun cfg => by rw [hencode, BitVec.ofNat_toNat, BitVec.setWidth_eq]⟩

/-- Bits 7:4 are zero in the sixteen codes (R67). -/
theorem high_nibble_eq_zero : v.extractLsb' 4 4 = 0 ↔ v.toNat < 16 := by
  rw [← BitVec.toNat_inj, BitVec.extractLsb'_toNat, Nat.shiftRight_eq_div_pow]
  show v.toNat / 16 % 16 = 0 ↔ _
  have := v.isLt
  omega

end

section
/-! The wire (R61 to R65, R71) -/
variable {cfg : Config.Params} {i : Instr} {l : Byte} {bs more : List Byte}

/-- A legal length field is that of the payload it announces (R68). -/
theorem lengthField_of_length (h : Config.lenOverhead ≤ l.toNat) : lengthField (l.toNat - Config.lenOverhead) = l := by
  rw [lengthField, Nat.sub_add_cancel h, BitVec.ofNat_toNat, BitVec.setWidth_eq]

/-- What a unit's first byte and length field have cut out of the bytes (R71). -/
theorem decodeWire_cases (h : decodeWire cfg bs = .ok (i, more)) :
    (i = .ack ∧ bs = cfg.ackByte :: more) ∨
    (∃ c a cs stop, i = .short c a cs stop ∧ bs = cfg.startShort :: c :: a :: cs :: stop :: more) ∨
    ∃ l body, Config.lenOverhead ≤ l.toNat ∧ bs = cfg.startLong :: l :: l :: cfg.startLong :: body ∧
      decodeBody l body = .ok (i, more) := by
  unfold decodeWire at h
  split at h
  · cases h
  next b bs =>
  split_ifs at h with hack hshort hlong
  · cases h
    exact .inl ⟨rfl, by rw [hack]⟩
  · split at h
    · cases h
      exact .inr (.inl ⟨_, _, _, _, rfl, by rw [hshort]⟩)
    · cases h
  · split at h
    · next l l2 bs =>
      split_ifs at h with hne hsmall
      split at h
      · next st body =>
        split_ifs at h with hst
        obtain rfl : l = l2 := not_not.1 hne
        obtain rfl : st = cfg.startLong := not_not.1 hst
        exact .inr (.inr ⟨l, body, Nat.le_of_not_lt hsmall, by rw [hlong], h⟩)
      · cases h
    · cases h

/-- What a legal length field has cut out of a body (R68): no payload is the control unit, any other a long unit. -/
theorem decodeBody_cases (h : decodeBody l bs = .ok (i, more)) :
    ∃ c a ci p cs stop, bs = c :: a :: ci :: (p ++ cs :: stop :: more) ∧ p.length = l.toNat - Config.lenOverhead ∧
      i = if p = [] then .control c a ci cs stop else .long c a ci p cs stop := by
  unfold decodeBody at h
  split at h
  · next c a ci rest =>
    dsimp only at h
    split at h
    · next cs stop tail hdrop =>
      have hsplit := List.take_append_drop (l.toNat - Config.lenOverhead) rest
      have hlen : (rest.take (l.toNat - Config.lenOverhead)).length = l.toNat - Config.lenOverhead := by
        have hdroplen := congrArg List.length hdrop
        simp only [List.length_drop, List.length_cons] at hdroplen
        rw [List.length_take]
        omega
      rw [hdrop] at hsplit
      generalize rest.take (l.toNat - Config.lenOverhead) = p at h hsplit hlen
      have hnil : p = [] ↔ l.toNat - Config.lenOverhead = 0 := by rw [← List.length_eq_zero_iff, hlen]
      refine ⟨c, a, ci, p, cs, stop, ?_⟩
      simp only [hnil]
      split_ifs at h ⊢ with hzero
      all_goals
        cases h
        exact ⟨by rw [hsplit], hlen, rfl⟩
    · cases h
  · cases h

theorem encode_of_decodeBody (hl : Config.lenOverhead ≤ l.toNat) (h : decodeBody l bs = .ok (i, more)) :
    i.WellFormed ∧ i.format = .wire ∧ cfg.startLong :: l :: l :: cfg.startLong :: bs = encode cfg i ++ more := by
  obtain ⟨c, a, ci, p, cs, stop, rfl, hlen, rfl⟩ := decodeBody_cases h
  have hfield : lengthField p.length = l := hlen ▸ lengthField_of_length hl
  split_ifs with hnil
  · subst hnil
    exact ⟨rfl, rfl, by rw [← hfield]; rfl⟩
  · have hpos : 1 ≤ p.length := List.length_pos_iff.2 hnil
    have hmax : p.length ≤ Config.payloadMax := by
      have hbyte := l.isLt
      simp only [Config.payloadMax, Config.lenOverhead] at hlen ⊢
      omega
    refine ⟨?_, rfl, ?_⟩
    · simp only [Instr.WellFormed, Instr.wf, hpos, hmax, decide_true, Bool.and_self]
    · simp [encode, longHeader, hfield]

theorem encode_of_decodeWire (h : decodeWire cfg bs = .ok (i, more)) :
    i.WellFormed ∧ i.format = .wire ∧ bs = encode cfg i ++ more := by
  rcases decodeWire_cases h with ⟨rfl, rfl⟩ | ⟨c, a, cs, stop, rfl, rfl⟩ | ⟨l, body, hl, rfl, hbody⟩
  · exact ⟨rfl, rfl, rfl⟩
  · exact ⟨rfl, rfl, rfl⟩
  · exact encode_of_decodeBody hl hbody

end

/-- Settles O2, port by port: a CMD byte is its operation's code, a wire unit is put together again from its parts. -/
theorem encodeInvertsDecode : Obligations.EncodeInvertsDecode := by
  intro cfg f bs i rest h
  match f, bs with
  | .wire, bs => exact encode_of_decodeWire h
  | .cmd, [] => cases h
  | .cmd, v :: tail =>
    rw [decodeAt] at h
    split at h
    · next i' hdec =>
      cases h
      obtain ⟨hwf, hformat, hencode⟩ := encode_of_decodeCmd hdec
      exact ⟨hwf, hformat, by rw [hencode]; rfl⟩
    · cases h

/-- Settles O3: the CMD bytes stand in the table, and the wire units are the encodings of their instructions. -/
theorem sampleWordsDecode : Obligations.SampleWordsDecode := by
  have hcfg : Config.Params.decided.Ok := by decide
  refine ⟨rfl, rfl, rfl, rfl, rfl, rfl, ?ack, ?short, ?control, ?long⟩
  case ack => exact decodeWire_encode (i := .ack) hcfg rfl rfl []
  case short => exact decodeWire_encode (i := .short 0x5B 0x01 0x5C 0x16) hcfg rfl rfl []
  case control => exact decodeWire_encode (i := .control 0x53 0x01 0x51 0xA5 0x16) hcfg rfl rfl []
  case long => exact decodeWire_encode (i := .long 0x08 0x01 0x72 [0x01, 0x02, 0x03] 0x81 0x16) hcfg rfl rfl []

end Sys2Proof

namespace Sys2Proof.Machine

theorem fetchCmd_error {v : Byte} {e : Reject} {s : State} (h : decodeCmd v = .error e) :
    fetchCmd v s = .done (s.refuse .badCommand) := by rw [fetchCmd, h]

/-- Settles O4: below 16 a byte is a code of the table, from 16 on there is none. -/
theorem commandByteSelectsOrIsRefused : Obligations.CommandByteSelectsOrIsRefused := by
  refine ⟨fun cfg v hlow => ?_, fun s v q hcfg hp hin hhigh => ?_, rfl⟩
  · obtain ⟨i, hi⟩ := opOfCode_isSome (high_nibble_eq_zero.1 hlow)
    have hdec := decodeCmd_eq_ok.2 hi
    obtain ⟨-, hformat, hencode⟩ := encode_of_decodeCmd hdec
    exact ⟨i, hdec, hformat, hencode cfg⟩
  · have hdec := decodeCmd_eq_error (Nat.le_of_not_lt (mt high_nibble_eq_zero.2 hhigh))
    exact step_of_fetch_done hcfg hp ((fetch_write_cmd hin).trans (fetchCmd_error hdec))

end Sys2Proof.Machine
end

