-- ==== Sys2Proof/Proofs/WireUnits.lean ====
section
/-! What a whole wire unit given to an idle receiver is reported as (41_decode.md R112 to R116, R121). A unit's one event
comes at its last byte, so feeding it is decoding it, and the closed form (R120) says the rest. -/

namespace Sys2Proof.Machine

section
/-! Bytes whose one event comes at the last of them -/
variable {s : State} {u : List Byte} {b : Byte}

theorem Rx.next_ne_truncated (cfg : Config.Params) (r : Rx) (b : Byte) :
    (r.next cfg b).2 ≠ some (.err .truncated) := by
  cases hs : r.state with
  | idle | shStop | lgL2 | lgStart2 | lgStop =>
    simp only [Rx.next, hs]
    split_ifs <;> nofun
  | _ =>
    simp only [Rx.next, hs]
    nofun

/-- The receiver never finds a byte Truncated: DECODE does, when the bytes end before an event. -/
theorem State.quiet_of_truncated (h : (s.decodeLoop u).lastResult = some (.err .truncated)) : s.Quiet u := by
  induction u generalizing s with
  | nil => trivial
  | cons b u ih =>
    cases hev : s.eventAt b with
    | none =>
      rw [State.decodeLoop_quiet hev] at h
      exact ⟨hev, ih h⟩
    | some e =>
      cases e with
      | err x =>
        rw [State.lastResult_error hev] at h
        cases h
        exact absurd hev (Rx.next_ne_truncated s.cfg s.rx b)
      | ok k =>
        rw [State.lastResult_frame hev] at h
        split at h
        · obtain ⟨f, -, hf⟩ := Option.map_eq_some_iff.1 h
          cases hf
        · cases h

theorem State.decodeLoop_event (h : s.eventAt b ≠ none) : s.decodeLoop [b] = s.takeByte b := by
  rw [State.decodeLoop]
  split
  · next hnone => exact absurd hnone h
  · rfl
  · exact if_pos rfl

/-- Feeding bytes that run into an event at the last of them is DECODE's loop over them. -/
theorem State.feed_eq_decodeLoop (hquiet : s.Quiet u) (hev : (s.takes u).eventAt b ≠ none) :
    s.feed (u ++ [b]) = (s.decodeLoop (u ++ [b])).accept := by
  rw [State.feed_eq_takes s _ (List.append_ne_nil_of_right_ne_nil u (List.cons_ne_nil b [])),
    State.decodeLoop_append [b] hquiet, State.decodeLoop_event hev, State.takes_append]
  rfl

/-- Bytes that are Truncated but for the last of them, given to an idle receiver, are reported as DECODE reports them. -/
theorem State.lastResult_feed (hs : s.rx.state = .idle) (hshort : closedDecode s.cfg u = .err .truncated)
    (hwhole : closedDecode s.cfg (u ++ [b]) ≠ .err .truncated) :
    (s.feed (u ++ [b])).lastResult = some (closedDecode s.cfg (u ++ [b])) := by
  have hdecode (w : List Byte) := State.lastResult_decodeLoop hs w
  have hquiet : s.Quiet u := State.quiet_of_truncated (hshort ▸ hdecode u)
  have hev : (s.takes u).eventAt b ≠ none := by
    intro hnone
    have hall : s.Quiet (u ++ [b]) := (s.quiet_append u [b]).2 ⟨hquiet, hnone, trivial⟩
    exact hwhole (Option.some.inj ((hdecode _).symm.trans (State.lastResult_of_quiet hall)))
  rw [State.feed_eq_decodeLoop hquiet hev]
  exact hdecode _

end

section
/-! The units in closed form (R120) -/
variable {cfg : Config.Params} (hcfg : cfg.Ok) (c a ci cs stop : Byte)
include hcfg

theorem closedDecode_startShort (bs : List Byte) :
    closedDecode cfg (cfg.startShort :: bs) = closedShort cfg (cfg.startShort :: bs) := by
  obtain ⟨ackNeShort, -, -⟩ := hcfg
  simp only [closedDecode, if_neg ackNeShort.symm, if_true]

theorem closedDecode_startLong (bs : List Byte) :
    closedDecode cfg (cfg.startLong :: bs) = closedLong cfg (cfg.startLong :: bs) := by
  obtain ⟨-, ackNeLong, shortNeLong⟩ := hcfg
  simp only [closedDecode, if_neg ackNeLong.symm, if_neg shortNeLong.symm, if_true]

theorem closedDecode_short_unit :
    closedDecode cfg [cfg.startShort, c, a, cs, stop] =
      if stop ≠ cfg.stopByte then .err .malformed
      else if cs ≠ c + a then .err .checksumMismatch
      else .ok (.short c a) :=
  closedDecode_startShort hcfg [c, a, cs, stop]

variable {p : List Byte} (hmax : p.length ≤ Config.payloadMax)
include hmax

theorem closedDecode_long_truncated :
    closedDecode cfg (longHeader cfg p.length ++ c :: a :: ci :: (p ++ [cs])) = .err .truncated := by
  have hl : (lengthField p.length).toNat = p.length + 3 := toNat_lengthField hmax
  have hlen : (c :: a :: ci :: (p ++ [cs])).length < (lengthField p.length).toNat + 2 := by
    simp only [hl, List.length_cons, List.length_append, List.length_nil]
    omega
  exact (closedDecode_startLong hcfg _).trans (closedLong_short (by omega) hlen)

theorem closedDecode_long_unit :
    closedDecode cfg (longHeader cfg p.length ++ c :: a :: ci :: (p ++ [cs, stop])) =
      if stop ≠ cfg.stopByte then .err .malformed
      else if cs ≠ c + a + ci + sum8 p then .err .checksumMismatch
      else if p = [] then .ok (.control c a ci)
      else .ok (.long c a ci p) :=
  (closedDecode_startLong hcfg _).trans (closedLong_body (toNat_lengthField hmax).symm)

end

section
/-! The units given to an idle receiver -/
variable {s : State} (hs : s.rx.state = .idle)
include hs

theorem State.lastResult_feed_ack : (s.feed [s.cfg.ackByte]).lastResult = some (.ok .ack) := by
  have hwhole : closedDecode s.cfg [s.cfg.ackByte] = .ok .ack := by simp [closedDecode]
  have hfeed := State.lastResult_feed (u := []) (b := s.cfg.ackByte) hs rfl
  rw [List.nil_append, hwhole] at hfeed
  exact hfeed nofun

variable (hcfg : s.cfg.Ok) (c a ci cs stop : Byte)
include hcfg

theorem State.lastResult_feed_short :
    (s.feed [s.cfg.startShort, c, a, cs, stop]).lastResult = some (
      if stop ≠ s.cfg.stopByte then .err .malformed
      else if cs ≠ c + a then .err .checksumMismatch
      else .ok (.short c a)) := by
  have hshort : closedDecode s.cfg [s.cfg.startShort, c, a, cs] = .err .truncated :=
    closedDecode_startShort hcfg [c, a, cs]
  have hfeed := State.lastResult_feed (b := stop) hs hshort
  rw [List.cons_append, List.cons_append, List.cons_append, List.cons_append, List.nil_append,
    closedDecode_short_unit hcfg] at hfeed
  exact hfeed (by split_ifs <;> nofun)

theorem State.lastResult_feed_long {p : List Byte} (hmax : p.length ≤ Config.payloadMax) :
    (s.feed (longHeader s.cfg p.length ++ c :: a :: ci :: (p ++ [cs, stop]))).lastResult = some (
      if stop ≠ s.cfg.stopByte then .err .malformed
      else if cs ≠ c + a + ci + sum8 p then .err .checksumMismatch
      else if p = [] then .ok (.control c a ci)
      else .ok (.long c a ci p)) := by
  have hfeed := State.lastResult_feed (b := stop) hs (closedDecode_long_truncated hcfg c a ci cs hmax)
  have hbytes : longHeader s.cfg p.length ++ c :: a :: ci :: (p ++ [cs]) ++ [stop] =
      longHeader s.cfg p.length ++ c :: a :: ci :: (p ++ [cs, stop]) := by simp
  rw [hbytes, closedDecode_long_unit hcfg c a ci cs stop hmax] at hfeed
  exact hfeed (by split_ifs <;> nofun)

end

/-- Settles O36: each unit is fed to the receiver and reported by the closed form; the control unit is the one without
a payload. -/
theorem unitsAreJudgedByTheReceiver : Obligations.UnitsAreJudgedByTheReceiver := by
  intro s hcfg hs
  refine ⟨⟨_, rfl, ?ack⟩, fun c a cs stop => ⟨_, rfl, ?short⟩, fun c a ci cs stop => ⟨_, rfl, ?control⟩,
    fun c a ci p cs stop hwf => ⟨_, rfl, ?long⟩⟩
  case ack => exact State.lastResult_feed_ack hs
  case short => exact State.lastResult_feed_short hs hcfg c a cs stop
  case control =>
    have hunit := State.lastResult_feed_long hs hcfg c a ci cs stop (p := []) (Nat.zero_le _)
    simp only [sum8_nil, add_zero, if_true] at hunit
    exact hunit
  case long =>
    obtain ⟨hpos, hmax⟩ : 1 ≤ p.length ∧ p.length ≤ Config.payloadMax := by
      simpa only [Instr.WellFormed, Instr.wf, Bool.and_eq_true, decide_eq_true_eq] using hwf
    have hne : p ≠ [] := List.length_pos_iff.1 hpos
    have hunit := State.lastResult_feed_long hs hcfg c a ci cs stop hmax
    have hbytes : encode s.cfg (.long c a ci p cs stop) =
        longHeader s.cfg p.length ++ c :: a :: ci :: (p ++ [cs, stop]) := by simp [encode]
    have hsum : sum8 ([c, a, ci] ++ p) = c + a + ci + sum8 p := by simp [BitVec.add_assoc]
    rw [hbytes, hsum, hunit]
    simp only [if_neg hne]

end Sys2Proof.Machine
end

