-- ==== Sys2Proof/Proofs/Matching.lean ====
section
/-! A mask and the addresses it matches (42_addressing.md R143). -/

namespace Sys2Proof.Machine

section
variable {cfg : Config.Params} {m x : Addr}

theorem matches_of_wildcards (h : ∀ p, nib m p = cfg.wildcard) (x : Addr) : Matches cfg m x := fun p => .inl (h p)

theorem matches_iff_of_concrete (h : Concrete cfg m) : Matches cfg m x ↔ x = m := by
  constructor
  · exact fun hm => addr_ext_nib fun p => ((hm p).resolve_left (h p)).symm
  · rintro rfl p
    exact .inr rfl

/-- Every digit of the mask of R142 is 0xF. -/
theorem nib_replicate_ff (p : Fin 16) : nib (Vector.replicate 8 0xFF) p = 0xF := by
  by_cases h : p.val % 2 = 0
  · rw [nib_even h, Vector.getElem_replicate]
    rfl
  · rw [nib_odd h, Vector.getElem_replicate]
    rfl

end

/-- Settles O41, digit by digit. -/
theorem masksMatchDigitByDigit : Obligations.MasksMatchDigitByDigit := by
  intro cfg m
  refine ⟨matches_of_wildcards, fun h x => matches_iff_of_concrete h, fun hw => matches_of_wildcards fun p => ?_⟩
  rw [nib_replicate_ff, hw]

end Sys2Proof.Machine
end

