-- ==== Sys2Proof/Proofs/RequestExchange.lean ====
section
/-! REQ_DATA as the three operations it is made of, and one whole exchange (43_exchange.md R171, R172). -/

namespace Sys2Proof.Machine

/-- SEND hands over the frame that TXBUF holds; what is left is its answer (40_encode.md R96). -/
theorem execSend_of_txHolds {s : State} {f : List Byte} (hb : s.busy = false) (hf : s.TxHolds f) (hpos : 0 < f.length)
    (hmax : f.length < 512) : execSend s = sendAnswered (s.handOver f) := by
  obtain ⟨hlen, hread⟩ := hf
  have htoNat : s.txbufLen.toNat = f.length := by
    rw [hlen, BitVec.toNat_ofNat]
    exact Nat.mod_eq_of_lt hmax
  have hne : s.txbufLen ≠ 0 := by
    rw [ne_eq, ← BitVec.toNat_inj, htoNat]
    exact Nat.ne_of_gt hpos
  simp only [execSend, hb, if_neg hne, htoNat, hread, Bool.false_eq_true, if_false]

/-- The request frame of R72, byte by byte. -/
theorem requestFrame_eq (cfg : Config.Params) (t : Byte) :
    requestFrame cfg t = [cfg.startShort, cfg.cRequest, t, cfg.cRequest + t, cfg.stopByte] := by
  simp [requestFrame, shortFrame]

section
/-! REQ_DATA to the answer of its `send` (R171) -/
variable {s : State} {r : SendResult} {q : List SendResult}

theorem State.txHolds_buildRequest (s : State) (t : Byte) : (s.buildRequest t).TxHolds (requestFrame s.cfg t) :=
  ⟨rfl, s.readBuffer_buildRequest t⟩

/-- The request is built and handed over, and the answer to its `send` is taken. -/
def State.requestTaken (s : State) (q : List SendResult) : State :=
  { (s.buildRequest s.target).handOver (requestFrame s.cfg s.target) with sendQ := q, phase := .idle }

/-- The state in which SEND of a request ends (R96). -/
def State.requestSent (s : State) (r : SendResult) (q : List SendResult) : State :=
  match r with
  | .ok => (s.requestTaken q).sendDone.accept
  | .transportError => (s.requestTaken q).sendFailed.accept

theorem execEncRequest_accepted (ht : IsTarget s.cfg s.target) : execEncRequest s = .next (s.buildRequest s.target) :=
  if_pos ht

theorem execSend_buildRequest (hb : s.busy = false) (hs : s.sendQ = r :: q) :
    execSend (s.buildRequest s.target) = .next (s.requestSent r q) := by
  have hq : ((s.buildRequest s.target).handOver (requestFrame s.cfg s.target)).sendQ = r :: q := hs
  have hlen : (requestFrame s.cfg s.target).length = 5 := rfl
  rw [execSend_of_txHolds (s := s.buildRequest s.target) hb (s.txHolds_buildRequest s.target) (by rw [hlen]; decide)
    (by rw [hlen]; decide), sendAnswered, State.takeSend_cons hq]
  cases r <;> rfl

/-- After its `send`, REQ_DATA is AWAIT_REPLY, or it has ended (R171). -/
theorem execReqData_sent (hb : s.busy = false) (ht : IsTarget s.cfg s.target) (hs : s.sendQ = r :: q) :
    execReqData s = match r with
      | .ok => execAwaitReply (s.requestSent .ok q)
      | .transportError => .next (s.requestSent .transportError q) := by
  have hq : ((s.buildRequest s.target).handOver (requestFrame s.cfg s.target)).sendQ = r :: q := hs
  rw [execReqData_accepted hb ht, requestAnswered, State.takeSend_cons hq]
  cases r with
  | ok => rw [execAwaitReply_accepted (s := s.requestSent .ok q) rfl]; rfl
  | transportError => rfl

end

/-- Settles O50: the operations' states are the request built, and its `send` answered. -/
theorem reqDataIsItsThreeParts : Obligations.ReqDataIsItsThreeParts := by
  intro s r q hb ht hs
  refine ⟨_, _, execEncRequest_accepted ht, execSend_buildRequest hb hs, ?_⟩
  cases r <;> exact execReqData_sent hb ht hs

section
/-! What an exchange leaves of the request -/
variable {s t : State} {r : SendResult} {q : List SendResult}

theorem State.requestSent_mem (s : State) (r : SendResult) (q : List SendResult) :
    (s.requestSent r q).mem = Memory.writeAll s.mem 0x300 (requestFrame s.cfg s.target) := by
  cases r <;> rfl

/-- A frame in TXBUF is still there where nothing but RX_PAY has been written. -/
theorem State.TxHolds.congr {f : List Byte} (hf : s.TxHolds f) (hlen : t.txbufLen = s.txbufLen)
    (hcells : ∀ i, ¬ Buffer.rxPay.Holds i → Memory.read t.mem i = Memory.read s.mem i) : t.TxHolds f := by
  obtain ⟨hcount, hread⟩ := hf
  exact ⟨hlen.trans hcount, (Memory.readAll_congr fun i hlo _ => hcells i (not_rxPay_of_le hlo)).trans hread⟩

theorem State.txHolds_requestSent (s : State) (q : List SendResult) :
    (s.requestSent .ok q).TxHolds (requestFrame s.cfg s.target) :=
  s.txHolds_buildRequest s.target

theorem State.read_requestSent (s : State) (r : SendResult) (q : List SendResult) {i : Nat}
    (hi : i < 0x300 ∨ 0x305 ≤ i) : Memory.read (s.requestSent r q).mem i = Memory.read s.mem i := by
  rw [State.requestSent_mem]
  exact Memory.read_writeAll_outside s.mem (requestFrame s.cfg s.target) hi


/-- What AWAIT_REPLY leaves as it was (R170). -/
theorem State.Concludes.unchanged {x : ExResult} {log : List RecvResult} {q : List RecvInput}
    (h : s.Concludes t x log q) :
    t.txbufLen = s.txbufLen ∧ t.txLog = s.txLog ∧ t.sendQ = s.sendQ ∧ t.sel = s.sel ∧ t.target = s.target ∧
      t.tx = s.tx ∧ t.opnd = s.opnd ∧ t.timeout = s.timeout ∧ t.refuseReason = s.refuseReason := by
  obtain ⟨heq, -⟩ := h
  rw [heq]
  exact ⟨rfl, rfl, rfl, rfl, rfl, rfl, rfl, rfl, rfl⟩

end

/-- Settles O51: AWAIT_REPLY, from the state in which SEND has ended, takes the one answer and touches neither the request
in TXBUF nor its entry of TXLOG. -/
theorem reqDataSendsOneRequest : Obligations.ReqDataSendsOneRequest := by
  intro s b tl qs q hb ht hs hr hend
  obtain ⟨-, -, hbytes⟩ := awaitReplyMapsTheFirstRead (s.requestSent .ok qs) tl q rfl
  obtain ⟨t, hexec, hconcludes, hlast⟩ := hbytes b hr hend
  obtain ⟨hlen, htxLog, hsendQ, hsel, htarget, hregs, hopnd, htimeout, hreason⟩ := hconcludes.unchanged
  obtain ⟨heq, hcells⟩ := hconcludes
  have htx : t.TxHolds (requestFrame s.cfg s.target) := (s.txHolds_requestSent qs).congr hlen hcells
  have hframe (i : Nat) (hpay : ¬ Buffer.rxPay.Holds i) (hout : i < 0x300 ∨ 0x305 ≤ i) :
      Memory.read t.mem i = Memory.read s.mem i :=
    (hcells i hpay).trans (s.read_requestSent .ok qs hout)
  rw [← requestFrame_eq]
  exact ⟨t, (execReqData_sent hb ht hs).trans hexec, htxLog, congrArg State.exResult heq, hlast,
    congrArg State.busy heq, congrArg State.refused heq, congrArg State.phase heq, hsendQ, congrArg State.recvQ heq,
    congrArg State.rxLog heq, hsel, htarget, hregs, hopnd, htimeout, hreason, htx, hframe⟩

end Sys2Proof.Machine
end

