-- ==== Sys2Proof/Proofs/EncodeOps.lean ====
section
/-! The encoding operations and SEND (40_encode.md R91 to R96): each encoder loads one frame into TXBUF and clears
REFUSED, so what is left to say of it is which frame. -/

namespace Sys2Proof.Machine

section
/-! The frames, byte by byte (30_encoding.md R62 to R64, R68; 40_encode.md R90) -/

theorem shortFrame_eq (cfg : Config.Params) (c a : Byte) :
    shortFrame cfg c a = [cfg.startShort, c, a, c + a, cfg.stopByte] := by simp [shortFrame]

/-- A length byte counts the payload and the three header fields (R68). -/
theorem longFrame_eq (cfg : Config.Params) (c a ci : Byte) {p : List Byte} {n : Byte} (h : p.length = n.toNat) :
    longFrame cfg c a ci p = [cfg.startLong, n + 3, n + 3, cfg.startLong, c, a, ci] ++ p ++
      [sum8 ([c, a, ci] ++ p), cfg.stopByte] := by
  have hl : BitVec.ofNat 8 (p.length + Config.lenOverhead) = n + 3 := by
    rw [h, BitVec.ofNat_add, BitVec.ofNat_toNat, BitVec.setWidth_eq]
    rfl
  rw [longFrame, hl]

theorem controlFrame_eq (cfg : Config.Params) (c a ci : Byte) :
    longFrame cfg c a ci [] = [cfg.startLong, 3, 3, cfg.startLong, c, a, ci, c + a + ci, cfg.stopByte] := by
  have hsum : sum8 [c, a, ci] = c + a + ci := by simp [BitVec.add_assoc]
  rw [longFrame_eq cfg c a ci (n := 0) rfl, List.append_nil, List.append_nil, hsum]
  rfl

end

section
variable {s : State} {p : List Byte}

/-- Loading a frame and accepting is all that an encoder does (R91 to R95). -/
theorem State.builds_loadTx (s : State) (f : List Byte) : s.Builds (s.loadTx f).accept f :=
  ⟨rfl, Memory.readAll_writeAll s.mem _ f, fun _ hi => s.read_loadTx f hi⟩

theorem execEncLong_too_long (h : 252 < s.tx.len.toNat) : execEncLong s = .next (s.refuse .badLength) := if_pos h

theorem execEncLong_written (hlen : s.tx.len.toNat ≤ 252) (hp : s.readBuffer .txPay s.tx.len.toNat = some p) :
    execEncLong s = .next (s.loadTx (longFrame s.cfg s.tx.c s.tx.a s.tx.ci p)).accept := by
  have hfits : ¬ s.tx.len.toNat > Config.payloadMax := Nat.not_lt_of_le hlen
  simp only [execEncLong, if_neg hfits, hp]

/-- Without a payload nothing is read (R93). -/
theorem execEncLong_empty (h : s.tx.len = 0) : execEncLong s = execEncControl s :=
  execEncLong_written (by rw [h]; decide) (by rw [h]; rfl)

end

/-- Settles O14: the frame loaded is that of R62, with its checksum as a sum. -/
theorem encShortBuildsTheShortFrame : Obligations.EncShortBuildsTheShortFrame := by
  intro s
  rw [← shortFrame_eq]
  exact ⟨_, rfl, s.builds_loadTx _⟩

/-- Settles O15: the frame of R92 is the long frame without a payload. -/
theorem encControlBuildsTheControlFrame : Obligations.EncControlBuildsTheControlFrame := by
  intro s
  rw [← controlFrame_eq]
  exact ⟨_, rfl, s.builds_loadTx _⟩

/-- Settles O16, by TX_LEN: too long, a payload that has been written, no payload. -/
theorem encLongBuildsTheLongFrame : Obligations.EncLongBuildsTheLongFrame := by
  refine fun s => ⟨execEncLong_too_long, fun p hlen hp => ?_, execEncLong_empty⟩
  obtain ⟨hplen, -⟩ := Memory.readAll_eq_some.1 hp
  rw [← longFrame_eq s.cfg s.tx.c s.tx.a s.tx.ci hplen]
  exact ⟨_, execEncLong_written hlen hp, s.builds_loadTx _⟩

/-- Settles O17: TARGET is tested, and TX_C and TX_A take no part. -/
theorem encRequestBuildsTheRequestFrame : Obligations.EncRequestBuildsTheRequestFrame := by
  refine fun s => ⟨fun ht => ?_, fun ht => if_neg ht⟩
  rw [← requestFrame_eq]
  exact ⟨_, execEncRequest_accepted ht, s.builds_loadTx _⟩

/-- Settles O18: the payload of the select frame is the mask, of eight bytes. -/
theorem encSelectBuildsTheSelectFrame : Obligations.EncSelectBuildsTheSelectFrame := by
  refine fun s => ⟨fun ha => ?_, fun ha => if_pos ha⟩
  have haccepted : exec .encSelect s = .next s.buildSelect := if_neg (by simp [ha])
  have hframe := longFrame_eq s.cfg s.cfg.cSelect s.cfg.aSelect s.cfg.ciSelect (p := s.sel.mask.toList) (n := 8)
    s.sel.mask.length_toList
  exact ⟨_, haccepted, hframe ▸ s.builds_loadTx (selectFrame s.cfg s.sel.mask)⟩

section
/-! SEND (R96) -/
variable {s : State} {frame : List Byte} {q : List SendResult}

theorem execSend_handsOver (hb : s.busy = false) (hlen : s.txbufLen ≠ 0)
    (hf : s.readBuffer .txbuf s.txbufLen.toNat = some frame) : execSend s = sendAnswered (s.handOver frame) := by
  simp only [execSend, hb, if_neg hlen, hf, Bool.false_eq_true, if_false]

theorem sendAnswered_ok (h : s.sendQ = .ok :: q) :
    sendAnswered s = .next ({ s with sendQ := q, phase := .idle }).sendDone.accept := by
  rw [sendAnswered, State.takeSend_cons h]

theorem sendAnswered_transportError (h : s.sendQ = .transportError :: q) :
    sendAnswered s = .next ({ s with sendQ := q, phase := .idle }).sendFailed.accept := by
  rw [sendAnswered, State.takeSend_cons h]

end

/-- Settles O19: the refusals in their order, then the frame handed over and its answer. -/
theorem sendTransmitsTheFrameOnce : Obligations.SendTransmitsTheFrameOnce := by
  refine fun s => ⟨fun hb => if_pos hb, fun hb hlen => ?_, fun frame q hb hlen hf => ⟨fun hq => ?_, fun hq => ?_⟩⟩
  · have hfree : ¬ s.busy = true := by simp [hb]
    exact (if_neg hfree).trans (if_pos hlen)
  · exact (execSend_handsOver hb hlen hf).trans (sendAnswered_ok (s := s.handOver frame) hq)
  · exact (execSend_handsOver hb hlen hf).trans (sendAnswered_transportError (s := s.handOver frame) hq)

end Sys2Proof.Machine
end

