-- ==== Sys2Proof/Proofs/FrameRoundTrip.lean ====
section
/-! Frames and their bytes under DECODE (40_encode.md R97, 41_decode.md R120): what an encoder builds decodes to its
fields, and what decodes to a frame is that frame's bytes. -/

namespace Sys2Proof.Machine

section
/-! The bytes of a control or long frame, as the closed form takes them apart (R120) -/
variable {cfg : Config.Params} {c a ci : Byte} {p more : List Byte}

/-- The frame that a control or long frame's bytes stand for: without a payload it is a control frame (R65). -/
def frameWith (c a ci : Byte) (p : List Byte) : Frame := if p = [] then .control c a ci else .long c a ci p

theorem longFrame_append (cfg : Config.Params) (c a ci : Byte) (p more : List Byte) :
    longFrame cfg c a ci p ++ more = cfg.startLong :: lengthField p.length :: lengthField p.length :: cfg.startLong ::
      c :: a :: ci :: (p ++ (c + a + ci + sum8 p) :: cfg.stopByte :: more) := by
  simp [longFrame, lengthField, BitVec.add_assoc]

/-- A whole frame, and what follows it. -/
theorem closedDecode_longFrame_append (hcfg : cfg.Ok) (hmax : p.length ≤ Config.payloadMax) :
    closedDecode cfg (longFrame cfg c a ci p ++ more) =
      if more ≠ [] then .err .unexpectedLength else .ok (frameWith c a ci p) := by
  rw [longFrame_append, closedDecode_startLong hcfg, closedLong_body (toNat_lengthField hmax).symm,
    if_neg (not_not.2 rfl), if_neg (not_not.2 rfl), frameWith]
  split_ifs <;> rfl

/-- A body that is as long as its length byte says. -/
theorem exists_body {l : Byte} {bs : List Byte} (hl : 3 ≤ l.toNat) (hlen : l.toNat + 2 ≤ bs.length) :
    ∃ c a ci p cs stop more, bs = c :: a :: ci :: (p ++ cs :: stop :: more) ∧ p.length + 3 = l.toNat := by
  match bs, hlen with
  | c :: a :: ci :: rest, hlen =>
    simp only [List.length_cons] at hlen
    have htail : 2 ≤ (rest.drop (l.toNat - 3)).length := by
      rw [List.length_drop]
      omega
    match hdrop : rest.drop (l.toNat - 3), htail with
    | cs :: stop :: more, _ =>
      refine ⟨c, a, ci, rest.take (l.toNat - 3), cs, stop, more, ?_, ?_⟩
      · rw [← hdrop, List.take_append_drop]
      · rw [List.length_take]
        omega
  | [], hlen | [_], hlen | [_, _], hlen =>
    simp only [List.length_cons, List.length_nil] at hlen
    omega

end

section
/-! What decodes to a frame is that frame's bytes (R97) -/
variable {cfg : Config.Params} {bs : List Byte} {f : Frame}

theorem bytes_of_closedShort (h : closedShort cfg (cfg.startShort :: bs) = .ok f) :
    ∃ c a, f = .short c a ∧ cfg.startShort :: bs = shortFrame cfg c a := by
  unfold closedShort at h
  split_ifs at h with hshort hstop hcs hlong
  cases h
  have hlen : bs.length = 4 := by
    simp only [List.length_cons] at hshort hlong
    omega
  match bs, hlen with
  | [c, a, cs, stop], _ =>
    obtain rfl : stop = cfg.stopByte := not_not.1 hstop
    obtain rfl : cs = c + a := not_not.1 hcs
    exact ⟨c, a, rfl, (shortFrame_eq cfg c a).symm⟩

/-- A whole header and body that decode to a frame. -/
theorem bytes_of_closedLong_body {c a ci cs stop l : Byte} {p more : List Byte} (hp : p.length + 3 = l.toNat)
    (h : closedLong cfg (cfg.startLong :: l :: l :: cfg.startLong :: c :: a :: ci :: (p ++ cs :: stop :: more)) =
      .ok f) :
    f = frameWith c a ci p ∧
      cfg.startLong :: l :: l :: cfg.startLong :: c :: a :: ci :: (p ++ cs :: stop :: more) =
        longFrame cfg c a ci p := by
  rw [closedLong_body hp] at h
  split_ifs at h with hstop hcs hmore hnil
  all_goals
    cases h
    obtain rfl : stop = cfg.stopByte := not_not.1 hstop
    obtain rfl : cs = c + a + ci + sum8 p := not_not.1 hcs
    obtain rfl : more = [] := not_not.1 hmore
    have hfield : lengthField p.length = l := by
      rw [lengthField, Config.lenOverhead, hp, BitVec.ofNat_toNat, BitVec.setWidth_eq]
    rw [← List.append_nil (longFrame cfg c a ci p), longFrame_append, hfield, frameWith]
    simp [hnil]

theorem bytes_of_closedLong (h : closedLong cfg (cfg.startLong :: bs) = .ok f) :
    ∃ c a ci p, p.length ≤ Config.payloadMax ∧ f = frameWith c a ci p ∧
      cfg.startLong :: bs = longFrame cfg c a ci p := by
  match bs with
  | [] | [_] => cases h
  | l :: l2 :: bs =>
    by_cases hbad : l2 ≠ l ∨ l2 < 3
    · rw [closedLong_bad_lengths cfg hbad] at h
      cases h
    obtain ⟨rfl, hl⟩ : l2 = l ∧ ¬ l2 < 3 := by simpa only [not_or, not_not] using hbad
    match bs with
    | [] =>
      rw [closedLong_lengths_only cfg hl] at h
      cases h
    | st :: bs =>
      by_cases hst : st ≠ cfg.startLong
      · rw [closedLong_bad_start cfg hl hst] at h
        cases h
      obtain rfl : st = cfg.startLong := not_not.1 hst
      have hl3 : 3 ≤ l2.toNat := Nat.le_of_not_lt hl
      by_cases hlen : bs.length < l2.toNat + 2
      · rw [closedLong_short hl3 hlen] at h
        cases h
      obtain ⟨c, a, ci, p, cs, stop, more, rfl, hp⟩ := exists_body hl3 (Nat.le_of_not_lt hlen)
      have hmax : p.length ≤ Config.payloadMax := by
        have := l2.isLt
        simp only [Config.payloadMax]
        omega
      exact ⟨c, a, ci, p, hmax, bytes_of_closedLong_body hp h⟩

/-- The three shapes of a buffer that decodes to a frame. -/
theorem closedDecode_ok_cases (h : closedDecode cfg bs = .ok f) :
    (f = .ack ∧ bs = [cfg.ackByte]) ∨
    (∃ c a, f = .short c a ∧ bs = shortFrame cfg c a) ∨
    ∃ c a ci p, p.length ≤ Config.payloadMax ∧ f = frameWith c a ci p ∧ bs = longFrame cfg c a ci p := by
  unfold closedDecode at h
  split at h
  · cases h
  next b rest =>
  split_ifs at h with hack hrest hshort hlong
  · cases h
    exact .inl ⟨rfl, by rw [hack, hrest]⟩
  · subst hshort
    exact .inr (.inl (bytes_of_closedShort h))
  · subst hlong
    exact .inr (.inr (bytes_of_closedLong h))

theorem bytes_frameWith (cfg : Config.Params) (c a ci : Byte) (p : List Byte) :
    (frameWith c a ci p).bytes cfg = longFrame cfg c a ci p := by
  unfold frameWith
  split_ifs with hnil
  · rw [hnil]
    rfl
  · rfl

theorem eq_bytes_of_closedDecode (h : closedDecode cfg bs = .ok f) : bs = f.bytes cfg := by
  rcases closedDecode_ok_cases h with ⟨rfl, rfl⟩ | ⟨c, a, rfl, rfl⟩ | ⟨c, a, ci, p, -, rfl, rfl⟩
  · rfl
  · rfl
  · exact (bytes_frameWith cfg c a ci p).symm

end

section
/-! A frame's bytes decode to the frame (R97) -/
variable {cfg : Config.Params}

theorem closedDecode_shortFrame (hcfg : cfg.Ok) (c a : Byte) :
    closedDecode cfg (shortFrame cfg c a) = .ok (.short c a) := by
  rw [shortFrame_eq, closedDecode_short_unit hcfg, if_neg (not_not.2 rfl), if_neg (not_not.2 rfl)]

theorem closedDecode_longFrame (hcfg : cfg.Ok) (c a ci : Byte) {p : List Byte} (hmax : p.length ≤ Config.payloadMax) :
    closedDecode cfg (longFrame cfg c a ci p) = .ok (frameWith c a ci p) := by
  have h := closedDecode_longFrame_append (c := c) (a := a) (ci := ci) (more := []) hcfg hmax
  rwa [List.append_nil, if_neg (not_not.2 rfl)] at h

end

section
/-! What an encoder has built, read from TXBUF and given to DECODE (R97) -/
variable {s t : State} {b : List Byte}

/-- TXBUF[0..TXBUF_LEN-1] is the frame an encoder has built. -/
theorem State.Builds.reads (h : s.Builds t b) (hmax : b.length ≤ 261) :
    t.readBuffer .txbuf t.txbufLen.toNat = some b := by
  obtain ⟨heq, hread, -⟩ := h
  have hlen : t.txbufLen.toNat = b.length := by
    rw [heq, BitVec.toNat_ofNat]
    exact Nat.mod_eq_of_lt (Nat.lt_of_le_of_lt hmax (by decide))
  rw [hlen, hread]

/-- An encoder followed by DECODE of what it has built. -/
theorem State.Builds.decodes {o : Result} {d : DecodeResult} (h : s.Builds t b) (ho : o = .next t)
    (hmax : b.length ≤ 261) (hd : closedDecode s.cfg b = d) :
    ∃ t b u, o = .next t ∧ t.readBuffer .txbuf t.txbufLen.toNat = some b ∧
      exec .decode { t with decodeArg := b } = .next u ∧ u.lastResult = some d := by
  have hcfg : t.cfg = s.cfg := by
    obtain ⟨heq, -⟩ := h
    rw [heq]
  refine ⟨t, b, _, ho, h.reads hmax, rfl, ?_⟩
  rw [← hd, ← hcfg]
  exact State.lastResult_decodeBuf { t with decodeArg := b } b

end

/-- Settles O32: each encoder's frame is its fields' bytes, which the closed form reads back; conversely the closed form
answers a frame for its bytes only. -/
theorem encodeDecodeRoundTrip : Obligations.EncodeDecodeRoundTrip := by
  refine ⟨fun s hcfg => ?short, fun s hcfg => ?control, fun s p hcfg hlen hp => ?long, fun s t f ht hf => ?back⟩
  case short =>
    exact (s.builds_loadTx _).decodes rfl (by rw [length_shortFrame]; decide) (closedDecode_shortFrame hcfg _ _)
  case control =>
    exact (s.builds_loadTx _).decodes rfl (by rw [length_longFrame]; decide)
      (closedDecode_longFrame hcfg _ _ _ (Nat.zero_le _))
  case long =>
    obtain ⟨hplen, -⟩ := Memory.readAll_eq_some.1 hp
    have hmax : p.length ≤ Config.payloadMax := hplen ▸ hlen
    exact (s.builds_loadTx _).decodes (execEncLong_written hlen hp)
      (by rw [length_longFrame]; exact Nat.add_le_add_right hmax 9) (closedDecode_longFrame hcfg _ _ _ hmax)
  case back =>
    cases ht
    rw [State.lastResult_decodeBuf] at hf
    exact eq_bytes_of_closedDecode (Option.some.inj hf)

end Sys2Proof.Machine
end

