-- ==== Sys2Proof/Proofs/ChangedByte.lean ====
section
/-! The checksum invariant (40_encode.md R90, 41_decode.md R123): a frame is a header, the covered bytes with their
checksum, and the stop byte, and one byte changed between header and stop byte leaves a wrong checksum. -/

namespace Sys2Proof.Machine

section
/-! One byte changed between a header and a stop byte -/
variable {header u tail : List Byte} {i j : Nat} {v : Byte}

/-- Either a covered byte changes, and with it the sum, or the checksum byte does. -/
theorem exists_set_checksummed (hj : j < u.length + 1) (hv : (u ++ [sum8 u])[j]? ≠ some v) :
    ∃ u' cs, (u ++ [sum8 u]).set j v = u' ++ [cs] ∧ u'.length = u.length ∧ cs ≠ sum8 u' := by
  by_cases hcovered : j < u.length
  · rw [List.getElem?_append_left hcovered, List.getElem?_eq_getElem hcovered] at hv
    have hne : v ≠ u[j] := fun h => hv (congrArg some h.symm)
    exact ⟨u.set j v, sum8 u, List.set_append_left _ _ hcovered, List.length_set, (sum8_set_ne hcovered hne).symm⟩
  · obtain rfl : j = u.length := by omega
    rw [List.getElem?_concat_length] at hv
    have hne : v ≠ sum8 u := fun h => hv (congrArg some h.symm)
    exact ⟨u, v, by simp, rfl, hne⟩

theorem exists_set_covered (hlo : header.length ≤ i) (hhi : i < header.length + (u.length + 1))
    (hv : (header ++ ((u ++ [sum8 u]) ++ tail))[i]? ≠ some v) :
    ∃ u' cs, (header ++ ((u ++ [sum8 u]) ++ tail)).set i v = header ++ ((u' ++ [cs]) ++ tail) ∧
      u'.length = u.length ∧ cs ≠ sum8 u' := by
  have hj : i - header.length < (u ++ [sum8 u]).length := by
    rw [List.length_append, List.length_singleton]
    omega
  rw [List.getElem?_append_right hlo, List.getElem?_append_left hj] at hv
  obtain ⟨u', cs, hset, hlen, hcs⟩ := exists_set_checksummed (by simpa using hj) hv
  exact ⟨u', cs, by rw [List.set_append_right _ _ hlo, List.set_append_left _ _ hj, hset], hlen, hcs⟩

end

section
/-! The two layouts, and a wrong checksum in them -/
variable {cfg : Config.Params} {u : List Byte} {cs : Byte}

theorem shortFrame_layout (cfg : Config.Params) (c a : Byte) :
    shortFrame cfg c a = [cfg.startShort] ++ (([c, a] ++ [sum8 [c, a]]) ++ [cfg.stopByte]) := rfl

theorem longFrame_layout (cfg : Config.Params) (c a ci : Byte) (p : List Byte) :
    longFrame cfg c a ci p =
      longHeader cfg p.length ++ (((c :: a :: ci :: p) ++ [sum8 (c :: a :: ci :: p)]) ++ [cfg.stopByte]) := by
  simp [longFrame, longHeader, lengthField]

theorem closedDecode_short_mismatch (hcfg : cfg.Ok) (hu : u.length = 2) (hcs : cs ≠ sum8 u) :
    closedDecode cfg ([cfg.startShort] ++ ((u ++ [cs]) ++ [cfg.stopByte])) = .err .checksumMismatch := by
  obtain ⟨c, a, rfl⟩ := List.length_eq_two.1 hu
  have hsum : cs ≠ c + a := by simpa using hcs
  exact (closedDecode_short_unit hcfg c a cs cfg.stopByte).trans (by rw [if_neg (not_not.2 rfl), if_pos hsum])

theorem closedDecode_long_mismatch (hcfg : cfg.Ok) {n : Nat} (hn : n ≤ Config.payloadMax) (hu : u.length = n + 3)
    (hcs : cs ≠ sum8 u) :
    closedDecode cfg (longHeader cfg n ++ ((u ++ [cs]) ++ [cfg.stopByte])) = .err .checksumMismatch := by
  match u, hu with
  | c :: a :: ci :: p, hu =>
    obtain rfl : p.length = n := by simpa using hu
    have hsum : cs ≠ c + a + ci + sum8 p := by simpa [BitVec.add_assoc] using hcs
    have hunit := closedDecode_long_unit hcfg c a ci cs cfg.stopByte hn
    rw [if_neg (not_not.2 rfl), if_pos hsum] at hunit
    simpa using hunit

end

theorem frameWith_ne_short (c a ci : Byte) (p : List Byte) : ¬ ∃ c' a', frameWith c a ci p = .short c' a' := by
  rintro ⟨c', a', h⟩
  unfold frameWith at h
  split_ifs at h

/-- Settles O33, by the frame's layout: a short frame's covered bytes begin after one byte, a control or long frame's
after four. -/
theorem oneChangedByteIsAChecksumMismatch : Obligations.OneChangedByteIsAChecksumMismatch := by
  intro s t f i v hcfg ht hf hack hlo hhi hv
  cases ht
  rw [State.lastResult_decodeBuf] at hf
  refine ⟨_, rfl, (State.lastResult_decodeBuf _ _).trans (congrArg some ?_)⟩
  show closedDecode s.cfg (s.decodeArg.set i v) = _
  rcases closedDecode_ok_cases (Option.some.inj hf) with ⟨rfl, -⟩ | ⟨c, a, rfl, hb⟩ | ⟨c, a, ci, p, hmax, rfl, hb⟩
  · exact absurd rfl hack
  · rw [if_pos ⟨c, a, rfl⟩] at hlo
    rw [hb, length_shortFrame] at hhi
    rw [hb, shortFrame_layout] at hv
    obtain ⟨u, cs, hset, hlen, hcs⟩ := exists_set_covered hlo (Nat.lt_of_succ_lt_succ hhi) hv
    rw [hb, shortFrame_layout, hset]
    exact closedDecode_short_mismatch hcfg hlen hcs
  · rw [if_neg (frameWith_ne_short c a ci p)] at hlo
    rw [hb, length_longFrame] at hhi
    rw [hb, longFrame_layout] at hv
    obtain ⟨u, cs, hset, hlen, hcs⟩ := exists_set_covered hlo
      (by simp only [longHeader, List.length_cons, List.length_nil]; omega) hv
    rw [hb, longFrame_layout, hset]
    exact closedDecode_long_mismatch hcfg hmax hlen hcs

end Sys2Proof.Machine
end

