-- ==== Sys2Proof/Proofs/SelectEnds.lean ====
section
/-! SELECT when the transport fails (42_addressing.md R148; 92_eei_decisions.md D15), and when two replies come one
after the other (42_addressing.md R150, R154). -/

namespace Sys2Proof.Machine

section
variable {s : State} {q : List SendResult} {chunks : List (List Byte × Bool)} {tl : Bool} {rest : List RecvInput}

/-- SELECT that the transport has ended: the select frame has been handed over, nothing has been decoded. -/
def State.selectFailed (s : State) (q : List SendResult) (rest : List RecvInput) (log : List RecvResult) : State :=
  { s.windowOpen q with
    sel := { s.sel with outcome := some .transportError, addrValid := false }
    busy := false, recvQ := rest, rxLog := log }

theorem execSelect_sendFailed (hb : s.busy = false) (ha : s.sel.active = true) (hs : s.sendQ = .transportError :: q) :
    exec .select s = .next (s.selectFailed q s.recvQ s.rxLog) := by
  have haccepted : exec .select s = selectAnswered _ := execSelect_accepted hb ha
  have hsend : (s.selectStart.buildSelect.handOver (selectFrame s.cfg s.sel.mask)).sendQ = .transportError :: q := hs
  rw [haccepted, selectAnswered, State.takeSend_cons hsend]
  exact congrArg (fun b => Host.Outcome.next { s.selectFailed q s.recvQ s.rxLog with busy := b }) hb

theorem execSelect_windowFailed (hb : s.busy = false) (ha : s.sel.active = true) (hs : s.sendQ = .ok :: q)
    (hr : s.recvQ = windowAnswers chunks ⟨.transportError, tl⟩ ++ rest) :
    exec .select s = .next (s.selectFailed q rest
      ((s.rxLog ++ chunks.map fun c => .bytes c.1) ++ [.transportError])) := by
  have hanswers : (s.windowOpen q).recvQ =
      chunks.map (fun c => ⟨.bytes c.1, c.2⟩) ++ (⟨.transportError, tl⟩ :: rest) := by
    rw [State.windowOpen, hr, windowAnswers, List.append_assoc, List.singleton_append]
  rw [execSelect_window hb ha hs, window_chunks chunks [] rfl hanswers, window]
  rfl

/-- Every cell outside TXBUF[0..16] holds what it held. -/
theorem State.read_selectFailed (s : State) (q : List SendResult) (rest : List RecvInput) (log : List RecvResult)
    {i : Nat} (hi : i < 0x300 ∨ 0x311 ≤ i) :
    Memory.read (s.selectFailed q rest log).mem i = Memory.read s.mem i :=
  Memory.read_writeAll_outside s.mem _ (by rwa [length_selectFrame])

theorem State.selects_selectFailed (s : State) (q : List SendResult) (rest : List RecvInput) (log : List RecvResult) :
    s.Selects (s.selectFailed q rest log) := ⟨rfl, rfl, fun _ _ hi => s.read_selectFailed q rest log hi⟩

theorem State.sameRxPay_selectFailed (s : State) (q : List SendResult) (rest : List RecvInput)
    (log : List RecvResult) : s.SameRxPay (s.selectFailed q rest log) :=
  fun _ hi => s.read_selectFailed q rest log (.inl (Nat.lt_of_lt_of_le hi.2 (by decide)))

theorem State.txHolds_selectFailed (s : State) (q : List SendResult) (rest : List RecvInput) (log : List RecvResult) :
    (s.selectFailed q rest log).TxHolds (selectFrame s.cfg s.sel.mask) :=
  ⟨rfl, Memory.readAll_writeAll s.mem 0x300 _⟩

end

/-- Settles O42: whether `send` fails or `recv()` does, the selection ends in the same registers. -/
theorem selectSurfacesTransportErrors : Obligations.SelectSurfacesTransportErrors := by
  intro s hb ha
  refine ⟨fun q hs => ?send, fun q chunks tl rest hs hr => ?window⟩
  case send =>
    exact ⟨_, execSelect_sendFailed hb ha hs, s.selects_selectFailed q _ _, rfl, rfl, rfl, rfl, rfl,
      s.sameRxPay_selectFailed q _ _, s.txHolds_selectFailed q _ _, rfl, rfl, rfl, rfl⟩
  case window =>
    exact ⟨_, execSelect_windowFailed hb ha hs hr, s.selects_selectFailed q rest _, rfl, rfl, rfl, rfl, rfl,
      s.sameRxPay_selectFailed q rest _, s.txHolds_selectFailed q rest _, rfl, rfl, rfl⟩

/-- Settles O46: what follows a whole frame makes DECODE of the window UnexpectedLength, and an error is a collision. -/
theorem twoRepliesAreACollision : Obligations.TwoRepliesAreACollision := by
  intro s q chunks tl rest c a ci c' a' ci' p p' hcfg hb ha hs hr hp _ hw
  have hmore : longFrame s.cfg c' a' ci' p' ≠ [] := List.cons_ne_nil _ _
  have herr : closedDecode s.cfg (windowBytes chunks) = .err .unexpectedLength := by
    rw [hw, closedDecode_longFrame_append hcfg hp, if_pos hmore]
  have hne : windowBytes chunks ≠ [] := hw ▸ List.append_ne_nil_of_right_ne_nil _ hmore
  obtain ⟨t, ht, hsel, hx, hbusy, htarget, hex, hlog, hrecv, hsend, htx, hlast, -⟩ :=
    selectClassifiesTheWindow s q chunks tl rest hb ha hs hr .collision (.inr (.inl ⟨rfl, hne, _, herr⟩))
  rw [if_neg hne, herr] at hlast
  exact ⟨t, ht, hsel, hx, State.lastResult_err.1 hlast, hbusy, htarget, hex, hlog, hrecv, hsend, htx⟩

end Sys2Proof.Machine
end

