-- ==== Sys2Proof/Proofs/DecodeErrors.lean ====
section
/-! DECODE as an instruction against its closed form (41_decode.md R119, R120), and the length invariant (R123): a good
frame with other length bytes is cut at the header, or its body has another length than they say. -/

namespace Sys2Proof.Machine

/-- Settles O30: the loop answers the closed form, and it always ends in IDLE with an event latched. -/
theorem decodeEqualsClosedForm : Obligations.DecodeEqualsClosedForm := by
  intro s
  obtain ⟨hidle, hvalid⟩ := State.decodeLoop_ends s.rxClear.accept s.decodeArg
  exact ⟨_, rfl, s.lastResult_decodeBuf _, hidle, hvalid⟩

section
variable {cfg : Config.Params} {l l2 : Byte} {bs : List Byte}

/-- A body of another length than its length byte says is no frame (R120). -/
theorem closedLong_wrong_length (hl : 3 ≤ l.toNat) (hlen : bs.length ≠ l.toNat + 2) :
    ∃ e, closedLong cfg (cfg.startLong :: l :: l :: cfg.startLong :: bs) = .err e := by
  rcases Nat.lt_or_gt_of_ne hlen with hshort | hlong
  · exact ⟨_, closedLong_short hl hshort⟩
  · rw [closedLong_header hl, if_neg (Nat.not_lt_of_gt hlong), if_pos hlong]
    split_ifs <;> exact ⟨_, rfl⟩

/-- A good repeated start and a body behind any two length bytes, which disagree with the body's length. -/
theorem closedDecode_wrong_lengths (hcfg : cfg.Ok) (hlen : ¬ (l.toNat + 2 = bs.length ∧ l2.toNat + 2 = bs.length)) :
    ∃ e, closedDecode cfg (cfg.startLong :: l :: l2 :: cfg.startLong :: bs) = .err e ∧
      (l ≠ l2 → e = .unexpectedLength) ∧
      (l = l2 → 3 ≤ l.toNat → bs.length < l.toNat + 2 → e = .truncated) := by
  rw [closedDecode_startLong hcfg]
  by_cases hbad : l2 ≠ l ∨ l2 < 3
  · refine ⟨_, closedLong_bad_lengths cfg hbad _, fun _ => rfl, fun heq hl _ => ?_⟩
    subst heq
    exact absurd (hbad.resolve_left (not_not.2 rfl)) (Nat.not_lt_of_le hl)
  · obtain ⟨rfl, hl⟩ : l2 = l ∧ ¬ l2 < 3 := by simpa only [not_or, not_not] using hbad
    have hl3 : 3 ≤ l2.toNat := Nat.le_of_not_lt hl
    obtain ⟨e, he⟩ := closedLong_wrong_length (cfg := cfg) (bs := bs) hl3 fun h => hlen ⟨h.symm, h.symm⟩
    refine ⟨e, he, fun hne => absurd rfl hne, fun _ _ hshort => ?_⟩
    rw [closedLong_short hl3 hshort] at he
    cases he
    rfl

end

/-- Settles O34: the buffer is the bytes of a control or long frame, so its body has the length its own length byte says
and no other. -/
theorem wrongLengthIsNeverAFrame : Obligations.WrongLengthIsNeverAFrame := by
  intro s t f l l2 hcfg ht hf hack hshort hother
  cases ht
  rw [State.lastResult_decodeBuf] at hf
  rcases closedDecode_ok_cases (Option.some.inj hf) with ⟨rfl, -⟩ | ⟨c, a, rfl, -⟩ | ⟨c, a, ci, p, hmax, rfl, hbytes⟩
  · exact absurd rfl hack
  · exact absurd rfl (hshort c a)
  rw [← List.append_nil (longFrame s.cfg c a ci p), longFrame_append] at hbytes
  rw [hbytes] at hother ⊢
  set body := c :: a :: ci :: (p ++ [c + a + ci + sum8 p, s.cfg.stopByte]) with hbody
  have hfield : (lengthField p.length).toNat = p.length + 3 := toNat_lengthField hmax
  have hlen : body.length = (lengthField p.length).toNat + 2 := by simp [hbody, hfield]
  have hwrong : ¬ (l.toNat + 2 = body.length ∧ l2.toNat + 2 = body.length) := by
    rintro ⟨h1, h2⟩
    exact hother ⟨BitVec.eq_of_toNat_eq (Nat.add_right_cancel (h1.trans hlen)),
      BitVec.eq_of_toNat_eq (Nat.add_right_cancel (h2.trans hlen))⟩
  obtain ⟨e, he, hdiffer, hlonger⟩ := closedDecode_wrong_lengths hcfg hwrong
  refine ⟨_, e, rfl, (State.lastResult_decodeBuf _ _).trans (congrArg some he), hdiffer, fun heq hlt => ?_⟩
  have hlt : (lengthField p.length).toNat < l.toNat := hlt
  exact hlonger heq (by omega) (by omega)

end Sys2Proof.Machine
end

