-- ==== Sys2Proof/Proofs/WireStream.lean ====
section
/-! Wire bytes and RX_BYTE (41_decode.md R111, R117): a unit is the RX_BYTE operations for its bytes, and an action of
many bytes is taken unit by unit to the same end as byte by byte. -/

namespace Sys2Proof.Machine

section
/-! What the receiver does not look at -/
variable {s : State}

/-- An update that the receiver does not notice at one byte it does not notice at any number of them. -/
theorem State.feed_comm {g : State → State} (hg : ∀ (s : State) (b : Byte), (g s).rxByte b = g (s.rxByte b))
    (s : State) (bs : List Byte) : (g s).feed bs = g (s.feed bs) := by
  induction bs generalizing s with
  | nil => rfl
  | cons b bs ih => rw [State.feed_cons, State.feed_cons, hg, ih]

theorem State.feed_setInput (s : State) (q : List Input) (bs : List Byte) :
    { s with input := q }.feed bs = { s.feed bs with input := q } :=
  State.feed_comm (g := fun s => { s with input := q }) (fun _ _ => rfl) s bs

theorem State.feed_setOpnd (s : State) (w : Addr) (bs : List Byte) :
    { s with opnd := w }.feed bs = { s.feed bs with opnd := w } :=
  State.feed_comm (g := fun s => { s with opnd := w }) (fun _ _ => rfl) s bs

/-- Feeding bytes is a run of the receiver. -/
theorem State.receives_feed {bs : List Byte} (h : bs ≠ []) : s.Receives (s.feed bs) :=
  ⟨s.feed_eq bs h, fun _ hi => s.read_feed bs hi⟩

end

section
/-! A unit (R61 to R64) -/
variable {s : State} {i : Instr}

/-- RX_BYTE with the byte in OPND[0] takes that byte (R117). -/
theorem exec_rxByte_operand (s : State) (b : Byte) :
    exec .rxByte { s with opnd := s.opnd.set 0 b } = .next { s.rxByte b with opnd := s.opnd.set 0 b } := by
  have hb : (s.opnd.set 0 b)[0] = b := Vector.getElem_set_self _
  show Host.Outcome.next (State.rxByte _ (s.opnd.set 0 b)[0]) = _
  rw [hb]
  rfl

/-- RX_BYTE operations in succession feed the receiver; besides, the host leaves something in OPND. -/
theorem rxBytes_eq (bs : List Byte) (s : State) : ∃ w, rxBytes bs s = .next { s.feed bs with opnd := w } := by
  induction bs generalizing s with
  | nil => exact ⟨s.opnd, rfl⟩
  | cons b bs ih =>
    obtain ⟨w, hw⟩ := ih { s.rxByte b with opnd := s.opnd.set 0 b }
    rw [State.feed_setOpnd] at hw
    exact ⟨w, by rw [rxBytes, exec_rxByte_operand]; exact hw⟩

theorem exec_wire (s : State) (hi : i.format = .wire) : exec i s = .next (s.feed (encode s.cfg i)) := by
  cases i with
  | ack | short | control | long => rfl
  | _ => cases hi

theorem encode_wire_ne_nil (cfg : Config.Params) (hi : i.format = .wire) : encode cfg i ≠ [] := by
  cases i with
  | ack | short | control | long => exact List.cons_ne_nil _ _
  | _ => cases hi

end

/-- Settles O37: both sides feed the unit's bytes, and feeding leaves OPND alone. -/
theorem unitEqualsItsRxBytes : Obligations.UnitEqualsItsRxBytes := by
  intro s i hi
  obtain ⟨w, hw⟩ := rxBytes_eq (encode s.cfg i) s
  exact ⟨_, _, hw, exec_wire s hi, s.feed_setOpnd s.opnd _, State.receives_feed (encode_wire_ne_nil s.cfg hi)⟩

section
/-! A wire action (logs 13 and 21) -/
variable {s : State} {b : List Byte} {q : List Input}

/-- One step of a wire action: some bytes at the front are fed, whether they are a unit or begin none, and what is left
of the action stays first on the host's list. -/
theorem step_wire (hcfg : s.cfg.Ok) (hp : s.phase = .idle) (hin : s.input = .wire b :: q) :
    ∃ u more, b = u ++ more ∧ (b ≠ [] → u ≠ []) ∧ step s = .next { s.feed u with input := pushWire more q } := by
  have hfetch := fetch_wire hin
  cases hdec : decodeWire s.cfg b with
  | ok r =>
    obtain ⟨i, more⟩ := r
    obtain ⟨-, hformat, hb⟩ := encode_of_decodeWire hdec
    have hstep : step s = .next ({ s with input := pushWire more q }.feed (encode s.cfg i)) :=
      (step_of_fetch_instr hcfg hp (hfetch.trans (fetchWire_ok hdec))).trans (exec_wire _ hformat)
    rw [State.feed_setInput s] at hstep
    exact ⟨encode s.cfg i, more, hb, fun _ => encode_wire_ne_nil s.cfg hformat, hstep⟩
  | error e =>
    cases b with
    | nil => exact ⟨[], [], rfl, id, step_of_fetch_done hcfg hp hfetch⟩
    | cons v more =>
      have hstep := step_of_fetch_done hcfg hp (hfetch.trans (fetchWire_no_unit hdec))
      exact ⟨[v], more, rfl, fun _ => List.cons_ne_nil _ _, hstep⟩

end

/-- Settles O7, by induction on the number of bytes left in the action. -/
theorem wireStreamIsFedByteByByte : Obligations.WireStreamIsFedByteByByte := by
  intro b
  induction hn : b.length using Nat.strongRecOn generalizing b with
  | ind n ih =>
    intro s q hcfg hp hin
    obtain ⟨u, more, rfl, hne, hstep⟩ := step_wire hcfg hp hin
    rw [State.feed_append, State.feed_setInput s q u]
    by_cases hmore : more = []
    · subst hmore
      exact ⟨1, run_succ_next 0 hstep⟩
    · rw [pushWire, if_neg hmore] at hstep
      have hpos : 0 < u.length := List.length_pos_iff.2 (hne (List.append_ne_nil_of_right_ne_nil u hmore))
      have hlt : more.length < n := by
        rw [← hn, List.length_append]
        omega
      obtain ⟨k, hk⟩ := ih more.length hlt more rfl { s.feed u with input := .wire more :: q } q
        (by simpa using hcfg) (by simpa using hp) rfl
      exact ⟨k + 1, (run_succ_next k hstep).trans hk⟩

end Sys2Proof.Machine
end

