-- ==== Sys2Proof/Proofs/ReceiverBytes.lean ====
section
/-! RX_BYTE in each state of the receiver (41_decode.md R112 to R116), RX_END (R118), and what an event leaves behind
(R110, R122). -/

namespace Sys2Proof.Machine

section
/-! RX_BYTE as the receiver's next registers and what it stores -/
variable {s : State} {place : RxState}

theorem Rx.store_of_ne_lgData {r : Rx} (h : r.state ≠ .lgData) (m : List Host.Cell) (b : Byte) : r.store m b = m := by
  unfold Rx.store
  split
  · next hdata => exact absurd hdata h
  all_goals rfl

/-- Where no payload byte is expected, RX_BYTE changes the receiver's registers and REFUSED only. -/
theorem exec_rxByte_of_next {r : Rx} (hs : s.rx.state = place) (hplace : place ≠ .lgData)
    (h : (s.rx.next s.cfg s.opnd[0]).1 = r) : exec .rxByte s = .next { s with refused := false, rx := r } := by
  have hstore : s.rx.store s.mem s.opnd[0] = s.mem := Rx.store_of_ne_lgData (hs ▸ hplace) _ _
  have hexec : exec .rxByte s = .next { s with
    refused := false, rx := (s.rx.next s.cfg s.opnd[0]).1, mem := s.rx.store s.mem s.opnd[0] } := rfl
  rw [hexec, h, hstore]

end

/-- Settles O24: IDLE stores nothing, and its four branches are the dispatch. -/
theorem receiverDispatchesOnTheFirstByte : Obligations.ReceiverDispatchesOnTheFirstByte := by
  intro s hs
  refine exec_rxByte_of_next hs nofun ?_
  simp only [Rx.next, hs]
  split_ifs <;> rfl

/-- Settles O25, state by state; the stop position alone has several outcomes. -/
theorem receiverTakesAShortFrame : Obligations.ReceiverTakesAShortFrame := by
  intro s
  refine ⟨fun hs => ?shC, fun hs => ?shA, fun hs => ?shCs, fun hs => ?shStop⟩
  case shCs =>
    refine exec_rxByte_of_next hs nofun ?_
    simp only [Rx.next, hs]
    rfl
  case shStop =>
    refine exec_rxByte_of_next hs nofun ?_
    simp only [Rx.next, hs]
    split_ifs <;> rfl
  all_goals exact exec_rxByte_of_next hs nofun (by simp only [Rx.next, hs])

/-- Settles O26, state by state; in LG_L2 by whether the two length bytes are good. -/
theorem receiverChecksTheHeader : Obligations.ReceiverChecksTheHeader := by
  intro s
  refine ⟨fun hs => ?lgL1, fun hs => ?lgL2, fun hs => ?lgStart2⟩
  case lgL1 => exact exec_rxByte_of_next hs nofun (by simp only [Rx.next, hs])
  case lgL2 =>
    refine exec_rxByte_of_next hs nofun ?_
    by_cases hbad : s.opnd[0] ≠ s.rx.l ∨ s.opnd[0] < 3
    · rw [Rx.next_lgL2_bad hs hbad]
      exact (if_pos hbad).symm
    · rw [Rx.next_lgL2_good hs hbad]
      exact (if_neg hbad).symm
  case lgStart2 =>
    refine exec_rxByte_of_next hs nofun ?_
    simp only [Rx.next, hs]
    split_ifs <;> rfl

/-- The last payload byte is the one that makes RX_CNT reach RX_L - 3 (R115). -/
theorem Rx.Placed.last_payload {r : Rx} (h : r.Placed) (hs : r.state = .lgData) :
    r.cnt + 1 = r.l - 3 ↔ r.cnt.toNat + 1 = r.l.toNat - 3 := by
  have hplace : r.cnt.toNat + 3 < r.l.toNat := by simpa only [Rx.Placed, hs] using h
  constructor <;> bv_omega

/-- Settles O27: only LG_DATA stores, and there the cell is RX_PAY[RX_CNT]. -/
theorem receiverStoresTheBody : Obligations.ReceiverStoresTheBody := by
  intro s
  refine ⟨fun hs => ?lgC, fun hs => ?lgA, fun hs => ?lgCi, fun hs hplaced => ?lgData⟩
  case lgData =>
    obtain ⟨hcnt, -⟩ := hplaced.cnt_succ hs
    have hstore : s.rx.store s.mem s.opnd[0] = storeRxPay s.mem s.rx.cnt s.opnd[0] := by simp only [Rx.store, hs]
    refine ⟨_, rfl, ?_, ?_, fun i hi => ?_⟩
    · simp only [State.rxByte_eq, State.takeByte, State.accept_rx, State.accept_cfg, Rx.next, hs,
        hplaced.last_payload hs]
      rfl
    · show Memory.read (s.rx.store s.mem s.opnd[0]) _ = _
      rw [hstore, read_storeRxPay, if_pos ⟨hcnt, rfl⟩]
    · show Memory.read (s.rx.store s.mem s.opnd[0]) i = _
      rw [hstore, read_storeRxPay, if_neg fun h => hi h.2]
  all_goals exact exec_rxByte_of_next hs nofun (by simp only [Rx.next, hs])

/-- Settles O28, state by state; the stop position alone has several outcomes. -/
theorem receiverJudgesTheTail : Obligations.ReceiverJudgesTheTail := by
  intro s
  refine ⟨fun hs => ?lgCs, fun hs => ?lgStop⟩
  case lgCs =>
    refine exec_rxByte_of_next hs nofun ?_
    simp only [Rx.next, hs]
    rfl
  case lgStop =>
    refine exec_rxByte_of_next hs nofun ?_
    simp only [Rx.next, hs]
    split_ifs <;> rfl

theorem State.rxEnd_idle {s : State} (hs : s.rx.state = .idle) : s.rxEnd = s.accept := by rw [State.rxEnd, hs]

theorem State.rxEnd_inside {s : State} (hs : s.rx.state ≠ .idle) : s.rxEnd = s.accept.emit (.err .truncated) := by
  unfold State.rxEnd
  split
  · next hidle => exact absurd hidle hs
  all_goals rfl

/-- Settles O29, by whether the receiver is inside a frame. -/
theorem rxEndReportsTruncation : Obligations.RxEndReportsTruncation :=
  fun _ => ⟨fun hs => congrArg Host.Outcome.next (State.rxEnd_idle hs),
    fun hs => congrArg Host.Outcome.next (State.rxEnd_inside hs)⟩

/-- In IDLE the event and the next place depend on the byte and the configuration alone (R112). -/
theorem Rx.next_idle_congr {cfg : Config.Params} {r r' : Rx} (hr : r.state = .idle) (hr' : r'.state = .idle)
    (b : Byte) : (r.next cfg b).2 = (r'.next cfg b).2 ∧ (r.next cfg b).1.state = (r'.next cfg b).1.state := by
  simp only [Rx.next, hr, hr']
  split_ifs <;> exact ⟨rfl, rfl⟩

/-- Settles O35: an event is all that is latched, and the dispatch of IDLE reads no register. -/
theorem receiverResynchronisesAfterAnEvent : Obligations.ReceiverResynchronisesAfterAnEvent := by
  refine ⟨fun s b e hev => ?idle, fun s s' b hs hs' hcfg => ?afresh⟩
  case idle =>
    have hrx : (s.takeByte b).rx = s.rx.emit e := Rx.next_event hev
    rw [hrx, Rx.emit_state]
  case afresh =>
    have hnext := Rx.next_idle_congr (cfg := s.cfg) hs hs' b
    rw [State.eventAt, State.eventAt, State.takeByte, State.takeByte, ← hcfg]
    exact hnext

end Sys2Proof.Machine
end

