-- ==== Sys2Proof/Proofs/MaskOperations.lean ====
section
/-! RESOLVE_PRIMARY, MASK_LOAD and MASK_NARROW (42_addressing.md R140, R145, R146). -/

namespace Sys2Proof.Machine

/-- Settles O38, by the test of R140. -/
theorem resolvePrimaryChecksTheRange : Obligations.ResolvePrimaryChecksTheRange :=
  fun _ => ⟨fun h => if_pos h, fun h => if_neg (BitVec.not_le.2 h)⟩

/-- Settles O39: the mask is OPND as a whole. -/
theorem maskLoadBeginsASelection : Obligations.MaskLoadBeginsASelection := fun _ => ⟨_, rfl, rfl, fun _ _ => rfl⟩

section
/-! A wildcard digit of a mask fixed (R143, R146) -/
variable {cfg : Config.Params} {m x : Addr} {p : Fin 16} {d : Digit}

theorem matches_of_matches_setNib (hp : nib m p = cfg.wildcard) (h : Matches cfg (setNib m p d) x) :
    Matches cfg m x := by
  intro q
  by_cases hq : q = p
  · exact .inl (hq ▸ hp)
  · have hdigit := h q
    rwa [nib_setNib_other m d hq] at hdigit

/-- The positions of the wildcards left are the old ones without the one that was fixed. -/
theorem wildcards_setNib (hd : d ≠ cfg.wildcard) :
    ((List.finRange 16).filter fun q => nib (setNib m p d) q = cfg.wildcard) =
      ((List.finRange 16).filter fun q => nib m q = cfg.wildcard).erase p := by
  rw [((List.nodup_finRange 16).filter _).erase_eq_filter, List.filter_filter]
  refine List.filter_congr fun q _ => ?_
  by_cases hq : q = p
  · subst hq
    simp [nib_setNib_same, hd]
  · simp [nib_setNib_other m d hq, hq]

theorem length_wildcards_setNib (hp : nib m p = cfg.wildcard) (hd : d ≠ cfg.wildcard) :
    ((List.finRange 16).filter fun q => nib m q = cfg.wildcard).length =
      ((List.finRange 16).filter fun q => nib (setNib m p d) q = cfg.wildcard).length + 1 := by
  have hmem : p ∈ (List.finRange 16).filter fun q => nib m q = cfg.wildcard := by simp [hp]
  rw [wildcards_setNib hd, List.length_erase_add_one hmem]

end

section
/-! MASK_NARROW by its tests, in their order (R146) -/
variable {s : State} {p : Fin 16} {d : Digit}

theorem low_eq_of_toNat_eq {v : Byte} (h : v.toNat = d.toNat) : v.extractLsb' 0 4 = d := by
  refine BitVec.eq_of_toNat_eq ?_
  rw [BitVec.extractLsb'_toNat, h, Nat.shiftRight_zero]
  exact Nat.mod_eq_of_lt d.isLt

theorem execMaskNarrow_inactive (ha : s.sel.active = false) : execMaskNarrow s = .next (s.refuse .noSelection) :=
  if_pos ha

theorem execMaskNarrow_badOperand (ha : s.sel.active = true)
    (h : 15 < s.opnd[0].toNat ∨ 15 < s.opnd[1].toNat ∨ s.opnd[1].toNat = s.cfg.wildcard.toNat) :
    execMaskNarrow s = .next (s.refuse .badNarrow) := by
  have hactive : ¬ s.sel.active = false := by simp [ha]
  rw [execMaskNarrow, if_neg hactive]
  split_ifs with hpos
  · have hdigit : s.opnd[1] > 15 ∨ s.opnd[1].extractLsb' 0 4 = s.cfg.wildcard := by
      rcases h with hout | hout | hwild
      · omega
      · exact .inl hout
      · exact .inr (low_eq_of_toNat_eq hwild)
    exact if_pos hdigit
  · rfl

/-- With a position and a concrete digit as operands, the digit at the position decides. -/
theorem execMaskNarrow_operands (ha : s.sel.active = true) (hp : s.opnd[0].toNat = p.val)
    (hd : s.opnd[1].toNat = d.toNat) (hd' : d ≠ s.cfg.wildcard) :
    execMaskNarrow s =
      if nib s.sel.mask p ≠ s.cfg.wildcard then .next (s.refuse .badNarrow)
      else .next ({ s with sel := { s.sel with mask := setNib s.sel.mask p d } }).accept := by
  have hactive : ¬ s.sel.active = false := by simp [ha]
  have hlt : s.opnd[0].toNat < 16 := hp ▸ p.isLt
  have hpos : (⟨s.opnd[0].toNat, hlt⟩ : Fin 16) = p := Fin.ext hp
  have hdigit : s.opnd[1].extractLsb' 0 4 = d := low_eq_of_toNat_eq hd
  have hgood : ¬ (s.opnd[1] > 15 ∨ d = s.cfg.wildcard) := by
    rintro (hout | hwild)
    · bv_omega
    · exact hd' hwild
  simp only [execMaskNarrow, if_neg hactive, dif_pos hlt, hpos, hdigit, if_neg hgood]

end

/-- Settles O40: the refusals test by test; a narrowed mask is the old one with one wildcard replaced. -/
theorem maskNarrowFixesOneWildcard : Obligations.MaskNarrowFixesOneWildcard := by
  refine fun s => ⟨execMaskNarrow_inactive, execMaskNarrow_badOperand, fun p d ha hp hd hd' => ?_⟩
  have hexec : exec .maskNarrow s = _ := execMaskNarrow_operands ha hp hd hd'
  refine ⟨fun hfixed => hexec.trans (if_pos hfixed), fun hwild => ?_⟩
  exact ⟨_, hexec.trans (if_neg (not_not.2 hwild)), rfl, nib_setNib_same _ p d,
    fun q hq => nib_setNib_other _ d hq, fun _ => matches_of_matches_setNib hwild, length_wildcards_setNib hwild hd'⟩

end Sys2Proof.Machine
end

