-- ==== Sys2Proof/Proofs/ExchangeRefusals.lean ====
section
/-! The refusals of SELECT, AWAIT_REPLY and REQ_DATA (42_addressing.md R148; 43_exchange.md R170, R171; 60_exceptions.md
R195). -/

namespace Sys2Proof.Machine

section
variable {s : State}

theorem execSelect_noSelection (hb : s.busy = false) (ha : s.sel.active = false) :
    execSelect s = .next (s.refuse .noSelection) := by
  simp only [execSelect, hb, Bool.false_eq_true, if_false, if_pos ha]

theorem execAwaitReply_notBusy (hb : s.busy = false) : execAwaitReply s = .next (s.refuse .notBusy) := if_pos hb

theorem execReqData_badAddress (hb : s.busy = false) (ht : ¬ IsTarget s.cfg s.target) :
    execReqData s = .next (s.refuse .badAddress) := by
  simp only [execReqData, hb, Bool.false_eq_true, if_false, if_neg ht]

end

/-- Settles O52: one refusal per clause, by the test it fails. -/
theorem exchangesAreRefusedBeforeTheyAct : Obligations.ExchangesAreRefusedBeforeTheyAct :=
  fun _ => ⟨fun hb => exec_sender_of_busy hb (.inr (.inl rfl)), execSelect_noSelection, execAwaitReply_notBusy,
    fun hb => exec_sender_of_busy hb (.inr (.inr rfl)), execReqData_badAddress⟩

end Sys2Proof.Machine
end

