-- ==== Sys2Proof/Proofs/SerialSelector.lean ====
section
/-! The byte-serial selector (42_addressing.md R152) against the classification of the whole window (R150). DECODE stops
at the first event and looks whether bytes follow; the serial form goes on, and whatever follows a first event counts
as a collision at the latest when the window closes. -/

namespace Sys2Proof.Machine

/-- The window is counted as a collision (R152). -/
abbrev Tally.Collided (t : Tally) : Prop := t.error = true ∨ t.frames = 2

/-- The byte-serial selector from some count and state on, to the end of the window (R152). -/
def serialRun (t : Tally) (s : State) (bs : List Byte) : Tally × State := serialEnd (serialBytes bs (t, s))

theorem serialOutcome_eq (w : List Byte) (s : State) :
    serialOutcome w s =
      if w = [] then .nothing
      else if (serialRun ⟨0, false⟩ s.rxClear w).1.Collided then .collision
      else frameOutcome (serialRun ⟨0, false⟩ s.rxClear w).2 := rfl

section
/-! The count -/
variable {t : Tally} {s : State} {b : Byte} {bs : List Byte}

theorem serialRun_cons (t : Tally) (s : State) (b : Byte) (bs : List Byte) :
    serialRun t s (b :: bs) = serialRun (t.count (s.eventAt b)) (s.rxByte b) bs := rfl

theorem serialRun_nil (t : Tally) (s : State) :
    serialRun t s [] = (if s.rx.state = .idle then t else t.count (some (.err .truncated)), s.rxEnd) := rfl

theorem serialRun_nil_idle (hs : s.rx.state = .idle) : serialRun t s [] = (t, s.accept) := by
  rw [serialRun_nil, if_pos hs, State.rxEnd_idle hs]

theorem serialRun_nil_inside (hs : s.rx.state ≠ .idle) : (serialRun t s []).1.Collided := by
  rw [serialRun_nil, if_neg hs]
  exact .inl rfl

theorem Tally.Collided.count (h : t.Collided) (e : Option Event) : (t.count e).Collided := by
  cases e with
  | none => exact h
  | some e =>
    cases e with
    | err x => exact .inl rfl
    | ok k => exact h.imp id fun hframes => by simp [Tally.count, hframes]

/-- A collision stays one, whatever comes. -/
theorem Tally.Collided.serialRun (h : t.Collided) (s : State) (bs : List Byte) :
    (serialRun t s bs).1.Collided := by
  induction bs generalizing t s with
  | nil =>
    by_cases hs : s.rx.state = .idle
    · rwa [serialRun_nil_idle hs]
    · exact serialRun_nil_inside hs
  | cons b bs ih => exact ih (h.count _) _

theorem State.rxByte_inside (h : s.eventAt b = none) : (s.rxByte b).rx.state ≠ .idle := by
  obtain ⟨-, -, -, -, hstate⟩ := Rx.next_quiet h
  exact hstate

/-- After one frame, anything more in the window is a collision: a frame, an error, or a frame cut short by its end. -/
theorem serialRun_after_frame (ht : t.frames = 1) (h : s.rx.state ≠ .idle ∨ bs ≠ []) :
    (serialRun t s bs).1.Collided := by
  induction bs generalizing t s with
  | nil => exact serialRun_nil_inside (h.resolve_right fun hne => hne rfl)
  | cons b bs ih =>
    rw [serialRun_cons]
    cases he : s.eventAt b with
    | none => exact ih ht (.inl (State.rxByte_inside he))
    | some e =>
      have hcollided : (t.count (some e)).Collided := by
        cases e with
        | err x => exact .inl rfl
        | ok k => exact .inr (by simp [Tally.count, ht])
      exact hcollided.serialRun _ _

end

/-- What the two forms have in common at the end of a run of bytes: the serial selector counts a collision and DECODE
has found an error, or neither, and then they have come to the same state. -/
def SerialAgrees (run : Tally × State) (decoded : State) : Prop :=
  (run.1.Collided ∧ ∃ e, decoded.rx.err = some e) ∨
    (¬ run.1.Collided ∧ decoded.rx.err = none ∧ run.2 = decoded)

/-- At the first event the two forms agree, whatever bytes follow. -/
theorem serialAgrees_event {s : State} {b : Byte} {e : Event} (he : s.eventAt b = some e) (bs : List Byte) :
    SerialAgrees (serialRun ⟨0, false⟩ s (b :: bs)) (s.accept.decodeLoop (b :: bs)) := by
  have hevent : s.accept.eventAt b = some e := he
  have hrx : (s.rxByte b).rx = s.rx.emit e := Rx.next_event he
  rw [serialRun_cons, he]
  cases e with
  | err x =>
    have hcollided : (Tally.count ⟨0, false⟩ (some (.err x))).Collided := .inl rfl
    rw [State.decodeLoop_error bs hevent]
    exact .inl ⟨hcollided.serialRun _ bs, x, congrArg Rx.err hrx⟩
  | ok k =>
    have hidle : (s.rxByte b).rx.state = .idle := by rw [hrx, Rx.emit_state]
    rw [State.decodeLoop_frame bs hevent]
    by_cases hbs : bs = []
    · subst hbs
      have herr : (s.rxByte b).rx.err = none := by rw [hrx, Rx.emit_ok_err]
      rw [if_pos rfl, serialRun_nil_idle hidle]
      exact .inr ⟨by simp [Tally.count], herr, rfl⟩
    · rw [if_neg hbs]
      exact .inl ⟨serialRun_after_frame rfl (.inr hbs), _, rfl⟩

/-- The two forms agree on every run of bytes but the empty one between frames. -/
theorem serialAgrees_decodeLoop {s : State} {bs : List Byte} (h : s.rx.state ≠ .idle ∨ bs ≠ []) :
    SerialAgrees (serialRun ⟨0, false⟩ s bs) (s.accept.decodeLoop bs) := by
  induction bs generalizing s with
  | nil => exact .inl ⟨serialRun_nil_inside (h.resolve_right fun hne => hne rfl), _, rfl⟩
  | cons b bs ih =>
    cases he : s.eventAt b with
    | some e => exact serialAgrees_event he bs
    | none =>
      have hquiet : s.accept.eventAt b = none := he
      rw [serialRun_cons, he, State.decodeLoop_quiet hquiet]
      exact ih (.inl (State.rxByte_inside he))

section
/-! The outcome of the classification -/
variable {s : State} {w : List Byte} {f : Frame}

/-- Step 4 answers, and does not touch the outcome (R151). -/
theorem step4_outcome (s : State) : ∃ t, step4 s = .next t ∧ t.sel.outcome = s.sel.outcome := by
  rw [step4_eq, step4Answered]
  split
  · exact ⟨_, rfl, rfl⟩
  all_goals
    next ht =>
    obtain ⟨q, -, rfl⟩ := State.takeSend_eq_some ht
    exact ⟨_, rfl, rfl⟩

/-- One good frame in the receive registers: the outcome is the one R150 tests for. -/
theorem classifyFrame_outcome (h : s.lastResult = some (.ok f)) :
    ∃ t, classifyFrame s = .next t ∧ t.sel.outcome = some (frameOutcome s) := by
  obtain ⟨-, hkind, hframe⟩ := State.lastResult_ok h
  cases f with
  | long c a ci p =>
    obtain ⟨p', hread, -⟩ := Option.map_eq_some_iff.1 hframe
    simp only [classifyFrame, frameOutcome, hkind, kindOf]
    by_cases hlen : 8 ≤ s.rx.len
    · obtain ⟨e, hechoed, -⟩ := State.echoed_eq (c := c) (a := a) (ci := ci) hread hlen
      simp only [hlen, hechoed, if_true, true_and]
      split_ifs
      · exact step4_outcome _
      · exact ⟨_, rfl, rfl⟩
    · simp only [hlen, if_false, false_and]
      refine ⟨_, rfl, ?_⟩
      split <;> rfl
  | ack =>
    simp only [classifyFrame, frameOutcome, hkind, kindOf]
    split_ifs
    · exact step4_outcome _
    · exact ⟨_, rfl, rfl⟩
  | short | control =>
    simp only [classifyFrame, frameOutcome, hkind, kindOf]
    exact ⟨_, rfl, rfl⟩

theorem classify_of_err {e : DecodeError} (hw : w ≠ []) (h : (s.decodeBuf w).rx.err = some e) :
    classify w s = .next ((s.decodeBuf w).outcome .collision) := by
  have hlast := State.lastResult_err.2 h
  rw [State.lastResult_decodeBuf] at hlast
  exact classify_error hw (Option.some.inj hlast)

theorem classify_of_no_err (h : (s.decodeBuf w).rx.err = none) :
    ∃ t, classify w s = .next t ∧ t.sel.outcome = some (frameOutcome (s.decodeBuf w)) := by
  have hlast := State.lastResult_decodeBuf s w
  cases hd : closedDecode s.cfg w with
  | err e =>
    rw [hd, State.lastResult_err, h] at hlast
    cases hlast
  | ok f =>
    rw [classify_ok hd]
    exact classifyFrame_outcome (hd ▸ hlast)

end

/-- Settles O47: nothing for the empty window; otherwise both forms find a collision, or both the same frame. -/
theorem byteSerialSelectorAgrees : Obligations.ByteSerialSelectorAgrees := by
  intro w s
  rw [serialOutcome_eq]
  by_cases hw : w = []
  · subst hw
    exact ⟨_, classify_nothing s, rfl⟩
  · rw [if_neg hw]
    have hagrees : SerialAgrees (serialRun ⟨0, false⟩ s.rxClear w) (s.decodeBuf w) :=
      serialAgrees_decodeLoop (.inr hw)
    rcases hagrees with ⟨hcollided, e, herr⟩ | ⟨hsingle, herr, hstate⟩
    · rw [if_pos hcollided]
      exact ⟨_, classify_of_err hw herr, rfl⟩
    · rw [if_neg hsingle, hstate]
      exact classify_of_no_err herr

end Sys2Proof.Machine
end

