-- ==== Sys2Proof/Proofs/AnsweredOperations.lean ====
section
/-! Operations whose answers are there do not wait (60_exceptions.md R190, 70_reset_and_hazards.md R231): each needs as
many answers as it asks for, a window one that closes it (42_addressing.md R149). -/

namespace Sys2Proof.Machine

/-- One of the answers to `recv()` ends a selection window (42_addressing.md R149). -/
def ClosesWindow (q : List RecvInput) : Prop := ∃ r ∈ q, ∀ b, r.result ≠ .bytes b

theorem exists_cons_cons_of_two_le_length {α : Type} {l : List α} (h : 2 ≤ l.length) :
    ∃ a b more, l = a :: b :: more := by
  match l, h with
  | a :: b :: more, _ => exact ⟨a, b, more, rfl⟩

theorem EndsIdle.of_next {o : Result} {t : State} (h : EndsIdle o) (ho : o = .next t) : t.phase = .idle := by
  subst ho
  exact h

@[simp] theorem State.decodeBuf_sendQ (s : State) (bs : List Byte) : (s.decodeBuf bs).sendQ = s.sendQ := by
  rw [State.decodeBuf_eq]

@[simp] theorem State.decodeBuf_recvQ (s : State) (bs : List Byte) : (s.decodeBuf bs).recvQ = s.recvQ := by
  rw [State.decodeBuf_eq]

section
variable {s : State}

/-! SEND (R96) -/

theorem sendAnswered_endsIdle (h : s.sendQ ≠ []) : EndsIdle (sendAnswered s) := by
  obtain ⟨r, q, hq⟩ := List.exists_cons_of_ne_nil h
  rw [sendAnswered, State.takeSend_cons hq]
  cases r <;> rfl

theorem execSend_endsIdle (hp : s.phase = .idle) (h : s.sendQ ≠ []) : EndsIdle (execSend s) := by
  unfold execSend
  split_ifs
  · exact hp
  · exact hp
  · split
    · exact sendAnswered_endsIdle h
    · trivial

/-! AWAIT_REPLY (R170) -/

theorem awaitMore_endsIdle (b : List Byte) (h : s.recvQ ≠ []) : EndsIdle (awaitMore b s) := by
  obtain ⟨r, q, hq⟩ := List.exists_cons_of_ne_nil h
  rw [awaitMore, State.takeRecv_cons hq]
  dsimp only
  split
  · rfl
  · rfl
  · exact State.decodeBuf_phase _ _

theorem awaitFirst_endsIdle (h : 2 ≤ s.recvQ.length) : EndsIdle (awaitFirst s) := by
  obtain ⟨r, r', q, hq⟩ := exists_cons_cons_of_two_le_length h
  rw [awaitFirst, State.takeRecv_cons hq]
  dsimp only
  split
  · rfl
  · rfl
  · split_ifs
    · exact awaitMore_endsIdle _ (by simp)
    · exact State.decodeBuf_phase _ _

theorem execAwaitReply_endsIdle (hp : s.phase = .idle) (h : 2 ≤ s.recvQ.length) : EndsIdle (execAwaitReply s) := by
  unfold execAwaitReply
  split_ifs
  · exact hp
  · exact awaitFirst_endsIdle h

/-! REQ_DATA (R171) -/

theorem requestAnswered_endsIdle (hs : s.sendQ ≠ []) (hr : 2 ≤ s.recvQ.length) : EndsIdle (requestAnswered s) := by
  obtain ⟨r, q, hq⟩ := List.exists_cons_of_ne_nil hs
  rw [requestAnswered, State.takeSend_cons hq]
  cases r with
  | ok => exact awaitFirst_endsIdle hr
  | transportError => rfl

theorem execReqData_endsIdle (hp : s.phase = .idle) (hs : s.sendQ ≠ []) (hr : 2 ≤ s.recvQ.length) :
    EndsIdle (execReqData s) := by
  unfold execReqData
  split_ifs
  · exact hp
  · simp only [State.readBuffer_buildRequest]
    exact requestAnswered_endsIdle hs hr
  · exact hp

/-! SELECT (R148 to R151) -/

theorem step4Answered_endsIdle (h : s.sendQ ≠ []) : EndsIdle (step4Answered s) := by
  obtain ⟨r, q, hq⟩ := List.exists_cons_of_ne_nil h
  rw [step4Answered, State.takeSend_cons hq]
  cases r <;> rfl

theorem step4_endsIdle (h : s.sendQ ≠ []) : EndsIdle (step4 s) := by
  rw [step4_eq]
  exact step4Answered_endsIdle h

theorem classifyFrame_endsIdle (hp : s.phase = .idle) (h : s.sendQ ≠ []) : EndsIdle (classifyFrame s) := by
  unfold classifyFrame
  split
  · split_ifs
    · split
      · split_ifs
        · exact step4_endsIdle h
        · exact hp
      · trivial
    · exact hp
  · split_ifs
    · exact step4_endsIdle h
    · exact hp
  all_goals exact hp

theorem classify_endsIdle (w : List Byte) (hp : s.phase = .idle) (h : s.sendQ ≠ []) : EndsIdle (classify w s) := by
  have hd : (s.decodeBuf w).phase = .idle := (State.decodeBuf_phase s w).trans hp
  unfold classify
  split_ifs
  · exact hp
  · dsimp only
    split
    · exact hd
    · exact classifyFrame_endsIdle hd (by simpa using h)

/-- The window passes over answers that bring bytes and ends at the first that brings none. -/
theorem window_endsIdle {q : List RecvInput} (w : List Byte) (hs : s.sendQ ≠ []) (hq : ClosesWindow q) :
    EndsIdle (window q w s) := by
  induction q generalizing s w with
  | nil =>
    obtain ⟨r, hmem, -⟩ := hq
    cases hmem
  | cons r q ih =>
    rw [window]
    split
    · next b hb =>
      obtain ⟨r', hmem, hlast⟩ := hq
      rcases List.mem_cons.1 hmem with rfl | hmem
      · exact absurd hb (hlast b)
      · exact ih _ hs ⟨r', hmem, hlast⟩
    · exact classify_endsIdle w rfl hs
    · rfl

theorem selectAnswered_endsIdle (hs : 2 ≤ s.sendQ.length) (hr : ClosesWindow s.recvQ) :
    EndsIdle (selectAnswered s) := by
  obtain ⟨r, r', q, hq⟩ := exists_cons_cons_of_two_le_length hs
  rw [selectAnswered, State.takeSend_cons hq]
  cases r with
  | ok => exact window_endsIdle [] (List.cons_ne_nil r' q) hr
  | transportError => rfl

theorem execSelect_endsIdle (hp : s.phase = .idle) (hs : 2 ≤ s.sendQ.length) (hr : ClosesWindow s.recvQ) :
    EndsIdle (execSelect s) := by
  unfold execSelect
  split_ifs
  · exact hp
  · exact hp
  · simp only [State.readBuffer_buildSelect]
    exact selectAnswered_endsIdle hs hr

end

/-- Settles O56: only SEND, SELECT, AWAIT_REPLY and REQ_DATA ask for answers, and each finds those it asks for. -/
theorem answeredOperationsEnd : Obligations.AnsweredOperationsEnd := by
  intro i s t hp hs hr hclose ht
  have hsend : s.sendQ ≠ [] := List.ne_nil_of_length_pos (by omega)
  have hends : EndsIdle (exec i s) := by
    cases i with
    | send => exact execSend_endsIdle hp hsend
    | select => exact execSelect_endsIdle hp hs hclose
    | awaitReply => exact execAwaitReply_endsIdle hp hr
    | reqData => exact execReqData_endsIdle hp hsend hr
    | _ => exact exec_endsIdle hp _ nofun nofun nofun nofun
  exact hends.of_next ht

end Sys2Proof.Machine
end

