-- ==== Sys2Proof/Proofs/ContinuationRead.lean ====
section
/-! The continuation read of AWAIT_REPLY (43_exchange.md R170 step 4, R172, R173): a first read that is a truncated reply
with time left, and one equation per second answer. -/

namespace Sys2Proof.Machine

section
variable {s u v : State} {q : List RecvInput} {tl : Bool}

/-! The reads -/

/-- A truncated reply with time left is read on (R170 step 4). -/
theorem awaitFirst_truncated {b : List Byte} (h : s.recvQ = ⟨.bytes b, true⟩ :: q)
    (hb : closedDecode s.cfg b = .err .truncated) :
    awaitFirst s = awaitMore b ((s.received ⟨.bytes b, true⟩ q).decodeBuf b) := by
  have hlast : ((s.received ⟨.bytes b, true⟩ q).decodeBuf b).lastResult = some (.err .truncated) :=
    (State.lastResult_decodeBuf _ b).trans (congrArg some hb)
  rw [awaitFirst, State.takeRecv_cons h]
  exact if_pos ⟨State.lastResult_err.1 hlast, rfl⟩

theorem awaitMore_timeout (b : List Byte) (h : s.recvQ = ⟨.timeout, tl⟩ :: q) :
    awaitMore b s = .next ((s.received ⟨.timeout, tl⟩ q).finish .malformed) := by
  rw [awaitMore, State.takeRecv_cons h]

theorem awaitMore_transportError (b : List Byte) (h : s.recvQ = ⟨.transportError, tl⟩ :: q) :
    awaitMore b s = .next ((s.received ⟨.transportError, tl⟩ q).finish .transportError) := by
  rw [awaitMore, State.takeRecv_cons h]

/-- The second bytes are decoded behind the first ones, and there is no third read (R170 steps 4 and 5). -/
theorem awaitMore_bytes (b : List Byte) {c : List Byte} (h : s.recvQ = ⟨.bytes c, tl⟩ :: q) :
    awaitMore b s =
      .next (((s.received ⟨.bytes c, tl⟩ q).decodeBuf (b ++ c)).finish (closedDecode s.cfg (b ++ c)).exchange) := by
  have hlast : ((s.received ⟨.bytes c, tl⟩ q).decodeBuf (b ++ c)).lastResult = some (closedDecode s.cfg (b ++ c)) :=
    State.lastResult_decodeBuf _ (b ++ c)
  rw [awaitMore, State.takeRecv_cons h]
  simp only [exchangeResult_eq hlast]

/-! The two reads together -/

/-- AWAIT_REPLY after its first read, which brought these bytes. -/
def State.readOnce (s : State) (b : List Byte) (rest : List RecvInput) : State :=
  (s.awaiting.received ⟨.bytes b, true⟩ rest).decodeBuf b

theorem execAwaitReply_truncated {b : List Byte} (hbusy : s.busy = true)
    (hb : closedDecode s.cfg b = .err .truncated) (h : s.recvQ = ⟨.bytes b, true⟩ :: q) :
    exec .awaitReply s = awaitMore b (s.readOnce b q) :=
  (execAwaitReply_accepted hbusy).trans (awaitFirst_truncated (s := s.awaiting) h hb)

theorem State.readOnce_recvQ (s : State) (b : List Byte) (rest : List RecvInput) :
    (s.readOnce b rest).recvQ = rest :=
  State.decodeBuf_recvQ _ b

theorem State.readOnce_cfg (s : State) (b : List Byte) (rest : List RecvInput) : (s.readOnce b rest).cfg = s.cfg :=
  State.decodeBuf_cfg _ b

/-- The result of the first read is latched while the second one is outstanding (R172). -/
theorem State.lastResult_readOnce (s : State) (b : List Byte) (rest : List RecvInput) :
    (s.readOnce b rest).lastResult = some (closedDecode s.cfg b) :=
  State.lastResult_decodeBuf _ b

/-- An exchange that ended with two answers: what the receiver did after each of them stays inside its frame. -/
theorem State.concludes_readTwice {r r' : RecvInput} (hu : (s.awaiting.received r (r' :: q)).Receives u)
    (hv : (u.received r' q).Receives v) (x : ExResult) :
    s.Concludes (v.finish x) x [r.result, r'.result] q := by
  obtain ⟨hueq, hucells⟩ := hu
  obtain ⟨hveq, hvcells⟩ := hv
  refine ⟨?_, fun i hi => (hvcells i hi).trans (hucells i hi)⟩
  have hlog : s.rxLog ++ [r.result, r'.result] = (s.rxLog ++ [r.result]) ++ [r'.result] := by simp
  rw [hlog, hveq, hueq]
  rfl

theorem State.receives_readOnce (s : State) (b : List Byte) (rest : List RecvInput) :
    (s.awaiting.received ⟨.bytes b, true⟩ rest).Receives (s.readOnce b rest) :=
  State.receives_decodeBuf _ b

/-- A second answer without bytes changes nothing the receiver holds. -/
theorem State.concludes_secondFails (s : State) (b : List Byte) (r : RecvInput) (q : List RecvInput) (x : ExResult) :
    s.Concludes (((s.readOnce b (r :: q)).received r q).finish x) x [.bytes b, r.result] q := by
  have hfirst := s.receives_readOnce b (r :: q)
  have hrefused : (s.readOnce b (r :: q)).refused = false := congrArg State.refused hfirst.1
  exact State.concludes_readTwice hfirst (State.receives_refl hrefused) x

theorem State.concludes_secondDecoded (s : State) (b w : List Byte) (r : RecvInput) (q : List RecvInput)
    (x : ExResult) :
    s.Concludes ((((s.readOnce b (r :: q)).received r q).decodeBuf w).finish x) x [.bytes b, r.result] q :=
  State.concludes_readTwice (s.receives_readOnce b (r :: q)) (State.receives_decodeBuf _ w) x

end

/-- Settles O49: the second answer decides, and only bytes replace the Truncated of the first read. -/
theorem awaitReplyReadsOnceMore : Obligations.AwaitReplyReadsOnceMore := by
  intro s b tl q hbusy hb
  have hlatched (rest : List RecvInput) : (s.readOnce b rest).lastResult = some (.err .truncated) :=
    (s.lastResult_readOnce b rest).trans (congrArg some hb)
  refine ⟨fun h => ?_, fun h => ?_, fun c h => ?_⟩ <;> rw [execAwaitReply_truncated hbusy hb h]
  · exact ⟨_, awaitMore_timeout b (s.readOnce_recvQ b _), s.concludes_secondFails b _ q _, hlatched _⟩
  · exact ⟨_, awaitMore_transportError b (s.readOnce_recvQ b _), s.concludes_secondFails b _ q _, hlatched _⟩
  · have hmore := awaitMore_bytes b (s.readOnce_recvQ b (⟨.bytes c, tl⟩ :: q))
    have hlast := State.lastResult_decodeBuf ((s.readOnce b (⟨.bytes c, tl⟩ :: q)).received ⟨.bytes c, tl⟩ q) (b ++ c)
    rw [State.readOnce_cfg] at hmore
    rw [State.received_cfg, State.readOnce_cfg] at hlast
    exact ⟨_, hmore, s.concludes_secondDecoded b _ _ q _, hlast⟩

end Sys2Proof.Machine
end

