-- ==== Sys2Proof/Proofs/Refusals.lean ====
section
/-! What a refusal leaves alone (60_exceptions.md R190, R196). An operation tests its refusals before it does anything
else; from there on every part of it finds REFUSED cleared, or clears it before it ends. -/

namespace Sys2Proof.Machine

/-- Where an operation has ended, it has not been refused. While it waits nothing is said: SEND clears REFUSED only when
its answer is there (40_encode.md R96). -/
def Accepts : Result → Prop
  | .next t => t.phase = .idle → t.refused = false
  | .fault _ | .refused _ => True

/-- An operation from `s` is refused there, or it does not end refused. -/
def RefusesOrAccepts (s : State) (o : Result) : Prop := (∃ r, o = .next (s.refuse r)) ∨ Accepts o

section
variable {s t : State} {o : Result}

theorem Accepts.of_refused_eq_false (h : t.refused = false) : Accepts (.next t) := fun _ => h

theorem Accepts.of_waits {p : Phase} (hp : p ≠ .idle) : Accepts (.next (s.waitIn p)) := fun h => absurd h hp

theorem RefusesOrAccepts.refuses (s : State) (r : RefuseReason) : RefusesOrAccepts s (.next (s.refuse r)) :=
  .inl ⟨r, rfl⟩

theorem RefusesOrAccepts.accepts (h : Accepts o) : RefusesOrAccepts s o := .inr h

theorem RefusesOrAccepts.of_accept (t : State) : RefusesOrAccepts s (.next t.accept) := .inr fun _ => rfl

/-- A next state in which the operation has ended refused is the state before with the refusal fields written. -/
theorem RefusesOrAccepts.eq_refuse (h : RefusesOrAccepts s o) (ho : o = .next t) (hp : t.phase = .idle)
    (hrefused : t.refused = true) : ∃ r, t = s.refuse r := by
  subst ho
  rcases h with ⟨r, hr⟩ | haccepts
  · cases hr
    exact ⟨r, rfl⟩
  · exact absurd hrefused (by simp [haccepts hp])

theorem State.refused_of_takeSend {r : SendResult} (h : s.takeSend = some (r, t)) : t.refused = s.refused := by
  obtain ⟨_, -, rfl⟩ := State.takeSend_eq_some h
  rfl

theorem State.refused_of_takeRecv {r : RecvInput} (h : s.takeRecv = some (r, t)) : t.refused = s.refused := by
  obtain ⟨_, -, rfl⟩ := State.takeRecv_eq_some h
  rfl

@[simp] theorem State.decodeBuf_refused (s : State) (bs : List Byte) : (s.decodeBuf bs).refused = false := by
  rw [State.decodeBuf_eq]

@[simp] theorem State.rxEnd_refused (s : State) : s.rxEnd.refused = false := by
  unfold State.rxEnd
  split <;> rfl

theorem State.feed_refused {bs : List Byte} (h : bs ≠ []) : (s.feed bs).refused = false := by rw [s.feed_eq bs h]

end

section
/-! The operations that ask the environment for something, part by part -/
variable {s : State}

/-! SEND (R96) -/

theorem sendAnswered_accepts (s : State) : Accepts (sendAnswered s) := by
  unfold sendAnswered
  split
  · exact .of_waits nofun
  · exact .of_refused_eq_false rfl
  · exact .of_refused_eq_false rfl

theorem execSend_refusesOrAccepts (s : State) : RefusesOrAccepts s (execSend s) := by
  unfold execSend
  split_ifs
  · exact .refuses s _
  · exact .refuses s _
  · split
    · exact .accepts (sendAnswered_accepts _)
    · exact .accepts trivial

/-! AWAIT_REPLY (R170) -/

theorem awaitMore_accepts (b : List Byte) (h : s.refused = false) : Accepts (awaitMore b s) := by
  unfold awaitMore
  split
  · exact .of_waits nofun
  · next ht =>
    have hu := (State.refused_of_takeRecv ht).trans h
    split
    · exact .of_refused_eq_false hu
    · exact .of_refused_eq_false hu
    · exact .of_refused_eq_false (State.decodeBuf_refused _ _)

theorem awaitFirst_accepts (h : s.refused = false) : Accepts (awaitFirst s) := by
  unfold awaitFirst
  split
  · exact .of_waits nofun
  · next ht =>
    have hu := (State.refused_of_takeRecv ht).trans h
    split
    · exact .of_refused_eq_false hu
    · exact .of_refused_eq_false hu
    · dsimp only
      split_ifs
      · exact awaitMore_accepts _ (State.decodeBuf_refused _ _)
      · exact .of_refused_eq_false (State.decodeBuf_refused _ _)

theorem awaitStart_accepts (s : State) : Accepts (awaitStart s) := awaitFirst_accepts rfl

theorem execAwaitReply_refusesOrAccepts (s : State) : RefusesOrAccepts s (execAwaitReply s) := by
  unfold execAwaitReply
  split_ifs
  · exact .refuses s _
  · exact .accepts (awaitStart_accepts s)

/-! REQ_DATA (R171) -/

theorem requestAnswered_accepts (s : State) : Accepts (requestAnswered s) := by
  unfold requestAnswered
  split
  · exact .of_waits nofun
  · exact .of_refused_eq_false rfl
  · exact awaitStart_accepts _

theorem execReqData_refusesOrAccepts (s : State) : RefusesOrAccepts s (execReqData s) := by
  unfold execReqData
  split_ifs
  · exact .refuses s _
  · simp only [State.readBuffer_buildRequest]
    exact .accepts (requestAnswered_accepts _)
  · exact .refuses s _

/-! SELECT (R148 to R151) -/

theorem step4Answered_accepts (h : s.refused = false) : Accepts (step4Answered s) := by
  unfold step4Answered
  split
  · exact .of_waits nofun
  all_goals
    next ht => exact .of_refused_eq_false ((State.refused_of_takeSend ht).trans h)

theorem step4_accepts (s : State) : Accepts (step4 s) := by
  rw [step4_eq]
  exact step4Answered_accepts rfl

theorem classifyFrame_accepts (h : s.refused = false) : Accepts (classifyFrame s) := by
  have hunexpected : Accepts (.next (s.outcome .unexpected)) := .of_refused_eq_false h
  unfold classifyFrame
  split
  · split_ifs
    · split
      · split_ifs
        · exact step4_accepts _
        · exact hunexpected
      · trivial
    · exact hunexpected
  · split_ifs
    · exact step4_accepts _
    · exact hunexpected
  all_goals exact hunexpected

theorem classify_accepts (w : List Byte) (h : s.refused = false) : Accepts (classify w s) := by
  have hd := s.decodeBuf_refused w
  unfold classify
  split_ifs
  · exact .of_refused_eq_false h
  · dsimp only
    split
    · exact .of_refused_eq_false hd
    · exact classifyFrame_accepts hd

theorem window_accepts (q : List RecvInput) (w : List Byte) (h : s.refused = false) : Accepts (window q w s) := by
  induction q generalizing w s with
  | nil => exact .of_waits nofun
  | cons r q ih =>
    rw [window]
    split
    · exact ih _ h
    · exact classify_accepts w h
    · exact .of_refused_eq_false h

theorem selectAnswered_accepts (h : s.refused = false) : Accepts (selectAnswered s) := by
  unfold selectAnswered
  split
  · exact .of_waits nofun
  · next ht => exact .of_refused_eq_false ((State.refused_of_takeSend ht).trans h)
  · next ht => exact window_accepts _ [] ((State.refused_of_takeSend ht).trans h)

theorem execSelect_refusesOrAccepts (s : State) : RefusesOrAccepts s (execSelect s) := by
  unfold execSelect
  split_ifs
  · exact .refuses s _
  · exact .refuses s _
  · simp only [State.readBuffer_buildSelect]
    exact .accepts (selectAnswered_accepts rfl)

end

section
/-! The operations on registers that have a refusal (R93 to R95, R140, R146) -/

theorem execEncLong_refusesOrAccepts (s : State) : RefusesOrAccepts s (execEncLong s) := by
  unfold execEncLong
  split_ifs
  · exact .refuses s _
  · split
    · exact .of_accept _
    · exact .accepts trivial

theorem execEncRequest_refusesOrAccepts (s : State) : RefusesOrAccepts s (execEncRequest s) := by
  unfold execEncRequest
  split_ifs
  · exact .of_accept _
  · exact .refuses s _

theorem execEncSelect_refusesOrAccepts (s : State) : RefusesOrAccepts s (execEncSelect s) := by
  unfold execEncSelect
  split_ifs
  · exact .refuses s _
  · exact .of_accept _

theorem execResolvePrimary_refusesOrAccepts (s : State) : RefusesOrAccepts s (execResolvePrimary s) := by
  unfold execResolvePrimary
  split_ifs
  · exact .of_accept _
  · exact .refuses s _

theorem execMaskNarrow_refusesOrAccepts (s : State) : RefusesOrAccepts s (execMaskNarrow s) := by
  unfold execMaskNarrow
  dsimp only
  split_ifs
  · exact .refuses s _
  · exact .refuses s _
  · exact .refuses s _
  · exact .of_accept _
  · exact .refuses s _

end

/-- A wire unit is given to the receiver, and that is never refused. -/
theorem exec_wire_accepts {i : Instr} (s : State) (hi : i.format = .wire) : Accepts (exec i s) := by
  rw [exec_wire s hi]
  exact .of_refused_eq_false (State.feed_refused (encode_wire_ne_nil s.cfg hi))

/-- Every instruction. -/
theorem exec_refusesOrAccepts (i : Instr) (s : State) : RefusesOrAccepts s (exec i s) := by
  cases i with
  | reset => exact .accepts (.of_refused_eq_false rfl)
  | encShort | encControl | maskLoad => exact .of_accept _
  | encLong => exact execEncLong_refusesOrAccepts s
  | encRequest => exact execEncRequest_refusesOrAccepts s
  | encSelect => exact execEncSelect_refusesOrAccepts s
  | send => exact execSend_refusesOrAccepts s
  | rxByte => exact .accepts (.of_refused_eq_false rfl)
  | rxEnd => exact .accepts (.of_refused_eq_false s.rxEnd_refused)
  | decode => exact .accepts (.of_refused_eq_false (s.decodeBuf_refused _))
  | resolvePrimary => exact execResolvePrimary_refusesOrAccepts s
  | maskNarrow => exact execMaskNarrow_refusesOrAccepts s
  | select => exact execSelect_refusesOrAccepts s
  | awaitReply => exact execAwaitReply_refusesOrAccepts s
  | reqData => exact execReqData_refusesOrAccepts s
  | ack | short | control | long => exact .accepts (exec_wire_accepts s rfl)

/-- Settles O53: whatever is not refused where it starts has REFUSED cleared when it ends. -/
theorem refusalChangesNothingElse : Obligations.RefusalChangesNothingElse :=
  fun i s _ _ ht hp hrefused => (exec_refusesOrAccepts i s).eq_refuse ht hp hrefused

end Sys2Proof.Machine
end

