-- ==== Sys2Proof/Proofs/Waiting.lean ====
section
/-! An operation in progress that finds no answer (60_exceptions.md R190 case 3, 70_reset_and_hazards.md R231): asking
again writes the phase it already has. -/

namespace Sys2Proof.Machine

section
variable {s : State}

theorem State.waitIn_of_phase {p : Phase} (h : s.phase = p) : s.waitIn p = s := by
  subst h
  rfl

theorem sendAnswered_unanswered (h : s.sendQ = []) : sendAnswered s = .next (s.waitIn .sendWait) := by
  rw [sendAnswered, State.takeSend_nil h]

theorem requestAnswered_unanswered (h : s.sendQ = []) : requestAnswered s = .next (s.waitIn .requestWait) := by
  rw [requestAnswered, State.takeSend_nil h]

theorem selectAnswered_unanswered (h : s.sendQ = []) : selectAnswered s = .next (s.waitIn .selectWait) := by
  rw [selectAnswered, State.takeSend_nil h]

theorem step4Answered_unanswered (h : s.sendQ = []) : step4Answered s = .next (s.waitIn .step4Wait) := by
  rw [step4Answered, State.takeSend_nil h]

theorem awaitFirst_unanswered (h : s.recvQ = []) : awaitFirst s = .next (s.waitIn .awaitFirst) := by
  rw [awaitFirst, State.takeRecv_nil h]

theorem awaitMore_unanswered (b : List Byte) (h : s.recvQ = []) : awaitMore b s = .next (s.waitIn (.awaitMore b)) := by
  rw [awaitMore, State.takeRecv_nil h]

theorem window_unanswered (w : List Byte) (h : s.recvQ = []) :
    window s.recvQ w s = .next (s.waitIn (.window w)) := by
  rw [h, window]

/-- Without an answer, every phase is kept. -/
theorem resume_unanswered (hsend : s.sendQ = []) (hrecv : s.recvQ = []) : resume s = .next s := by
  have hwait {o : Result} {p : Phase} (hp : s.phase = p) (ho : o = .next (s.waitIn p)) : o = .next s := by
    rw [ho, State.waitIn_of_phase hp]
  unfold resume
  split
  · rfl
  · next hp => exact hwait hp (sendAnswered_unanswered hsend)
  · next hp => exact hwait hp (requestAnswered_unanswered hsend)
  · next hp => exact hwait hp (selectAnswered_unanswered hsend)
  · next hp => exact hwait hp (step4Answered_unanswered hsend)
  · next hp => exact hwait hp (awaitFirst_unanswered hrecv)
  · next b hp => exact hwait hp (awaitMore_unanswered b hrecv)
  · next w hp => exact hwait hp (window_unanswered w hrecv)

end

/-- Settles O55: the step goes on with the operation, and that leaves it waiting. -/
theorem waitingChangesNothing : Obligations.WaitingChangesNothing :=
  fun _ hcfg hp hsend hrecv => (step_in_progress hcfg hp).trans (resume_unanswered hsend hrecv)

end Sys2Proof.Machine
end

