-- ==== Sys2Proof/Proofs/ResetOperation.lean ====
section
/-! The RESET operation (70_reset_and_hazards.md R220). -/

namespace Sys2Proof.Machine

/-- R220: power-on reset and RESET are one event. Only TIMEOUT is not taken over from the reset state: its value of R25
depends on the configuration, which RESET keeps. -/
theorem execReset_atReset {s t : State} (h : execReset s = .next t) : t.AtReset := by
  cases h
  exact { State.atReset_reset with timeout := rfl }

/-- Settles O12: RESET ends at the values of R25, with the configuration, the histories and the answers of the state
before it. -/
theorem resetOperationResets : Obligations.ResetOperationResets :=
  fun _ => ⟨_, rfl, execReset_atReset rfl, rfl, rfl, rfl, rfl, rfl⟩

end Sys2Proof.Machine
end
